-- ==== Sys2Proof/Word.lean ====
section
/-! DEFINITION. Word types of AESMIN-CORE: bytes, the 32-bit command and register word, and the
13-bit offset into the host window (R9, R50, R70). -/

namespace Sys2Proof

/-- A byte: one element of GF(2^8) under R11, bit 0 the coefficient of x^0. -/
abbrev Byte := BitVec 8

/-- A 32-bit word: a command word (R70), CMD, STATUS and CFG (R31, R32, R34), a 4-byte port access (R55). -/
abbrev Word := BitVec 32

/-- A byte offset into the 8 KiB host window, 0x0000..0x1FFF (R50). -/
abbrev Offset := BitVec 13

/-- A byte string of fixed length, index 0 first (R10). -/
abbrev Bytes (n : Nat) := Vector Byte n

/-- A 16-byte buffer: the AES state BLK, a round key, KEY, or a GF(2^128) element under R12 (R7). -/
abbrev Block := Bytes 16

/-- One 4-byte column of a block or word of a round key, row 0 first (R15, R24). -/
abbrev Column := Bytes 4

/-- The 176-byte key schedule: 11 round keys of 16 bytes, round 0 first (R7, R26). -/
abbrev Schedule := Bytes 176

/-- GcmTable8: entry e (0..254) belongs to byte value e + 1 (R29). -/
abbrev Table8 := Vector Block 255

/-- GcmTable4: table 0 the high nibble's, table 1 the low nibble's; entry e (0..14) belongs to nibble e + 1 (R30). -/
abbrev Table4 := Vector (Vector Block 15) 2

end Sys2Proof
end

