-- ==== Sys2Proof/Config.lean ====
section
/-! DEFINITION. What one build or one platform of AESMIN-CORE fixes (R6): the build parameters
CFG_MULB, CFG_T4, CFG_T8, and the open base address of the window. -/

namespace Sys2Proof

/-- The build parameters a command or a table can depend on (R6, the column "option" of R75). -/
inductive BuildOption where
  | mulb
  | t4
  | t8
  deriving DecidableEq, Repr

/-- One build: `CFG_MULB`, `CFG_T4`, `CFG_T8`, true for 1 (R6). The value stands in State, where CFG is
read from, and no step changes it (R34). -/
structure Build where
  mulb : Bool
  t4   : Bool
  t8   : Bool
  deriving DecidableEq, Repr

/-- Whether a build has an option (R6). -/
def Build.has (b : Build) : BuildOption → Bool
  | .mulb => b.mulb
  | .t4 => b.t4
  | .t8 => b.t8

/-- The default build: all three parameters 1 (R6, D24). -/
def Config.defaultBuild : Build := { mulb := true, t4 := true, t8 := true }

/-- Which 8 KiB slot of the host's address space holds the window: OPEN (R6, R53, D6; log 9). No body:
nothing in the model can use a value of it. -/
opaque Config.windowIndex : Nat

/-- `AESMIN_BASE`, an 8 KiB-aligned host address (R6). -/
def Config.aesminBase : Nat := 0x2000 * Config.windowIndex

/-- The host address at which the host reaches a window offset: `AESMIN_BASE + off` (R50). -/
def Config.hostAddress (off : Offset) : Nat := Config.aesminBase + off.toNat

/-- The window offset a host address selects, none outside the window (R50, R53). -/
def Config.windowOffset (addr : Nat) : Option Offset :=
  if Config.aesminBase ≤ addr ∧ addr < Config.aesminBase + 0x2000 then
    some (BitVec.ofNat 13 (addr - Config.aesminBase))
  else none

end Sys2Proof
end

