-- ==== Sys2Proof/Syntax.lean ====
section
/-! DEFINITION. The 28 commands of AESMIN-CMD (R75, opcode_table.json), one constructor per row, with the
operands of R72 to R74. -/

namespace Sys2Proof

/-- A 2-bit register field, naming G0 to G3; every value is legal (R72). -/
abbrev GReg := BitVec 2

/-- One command. Register fields are RD first, then RA, then RB, as the assembler writes them (R81). -/
inductive Instr where
  /-- No operation (R230). -/
  | nop
  /-- `G[RD] <- gf_double(G[RA])` (R105). -/
  | gdbl (rd ra : GReg)
  /-- `G[RD] <- gf_halve(G[RA])` (R106). -/
  | ghlv (rd ra : GReg)
  /-- `G[RD] <- gf_mul(G[RA], G[RB])` (R107). -/
  | gmul (rd ra rb : GReg)
  /-- `G[RD] <- gf_inv(G[RA])` (R108). -/
  | ginv (rd ra : GReg)
  /-- `G[RD] <- sbox(G[RA])` (R125). -/
  | sbox (rd ra : GReg)
  /-- `G[RD] <- sbox_inverse(G[RA])` (R126). -/
  | isbox (rd ra : GReg)
  /-- SubBytes on BLK (R127). -/
  | subb
  /-- Inverse SubBytes on BLK (R128). -/
  | isubb
  /-- XOR a round key into BLK; `src` 0..10 a schedule round, 15 KEY, 11..14 reserved (R74, R145). -/
  | ark (src : BitVec 4)
  /-- ShiftRows on BLK (R146). -/
  | shr
  /-- Inverse ShiftRows on BLK (R147). -/
  | ishr
  /-- MixColumns on BLK (R148). -/
  | mixc
  /-- Inverse MixColumns on BLK (R149). -/
  | imixc
  /-- Expand KEY into SCH (R167). -/
  | kexp
  /-- Advance KEY by one round, `imm8` the round constant (R73, R168). -/
  | kadv (imm8 : Byte)
  /-- Regress KEY by one round, `imm8` the round constant (R73, R169). -/
  | kreg (imm8 : Byte)
  /-- Derive the decryption start key in KEY (R170). -/
  | kdec
  /-- Encrypt BLK with SCH (R185). -/
  | enc
  /-- Decrypt BLK with SCH (R186). -/
  | dec
  /-- Encrypt BLK on the fly with KEY (R187). -/
  | encf
  /-- Decrypt BLK on the fly with KEY (R188). -/
  | decf
  /-- Multiply GX by x (R209). -/
  | hdbl
  /-- Bit-serial multiply of GX by GH (R210). -/
  | hmulb
  /-- Build T8 from GH (R211). -/
  | ht8b
  /-- Multiply GX by T8 (R212). -/
  | hmul8
  /-- Build T4 from GH (R213). -/
  | ht4b
  /-- Multiply GX by T4 (R214). -/
  | hmul4
  deriving DecidableEq, Repr

end Sys2Proof
end

