-- ==== Sys2Proof/WellFormed.lean ====
section
/-! DEFINITION. Which terms of Instr are commands of the encoding: every field value is legal (R72, R73)
but ARK's SRC in 11..14, which is reserved (R74). -/

namespace Sys2Proof

/-- SRC names a round key: 0..10 a schedule round, 15 KEY (R74). -/
def srcLegal (src : BitVec 4) : Bool := decide (src.toNat ≤ 10) || src == 15#4

/-- A well-formed command (R72 to R74). -/
def Instr.wellFormed : Instr → Bool
  | .nop => true
  | .gdbl _ _ => true
  | .ghlv _ _ => true
  | .gmul _ _ _ => true
  | .ginv _ _ => true
  | .sbox _ _ => true
  | .isbox _ _ => true
  | .subb => true
  | .isubb => true
  | .ark src => srcLegal src
  | .shr => true
  | .ishr => true
  | .mixc => true
  | .imixc => true
  | .kexp => true
  | .kadv _ => true
  | .kreg _ => true
  | .kdec => true
  | .enc => true
  | .dec => true
  | .encf => true
  | .decf => true
  | .hdbl => true
  | .hmulb => true
  | .ht8b => true
  | .hmul8 => true
  | .ht4b => true
  | .hmul4 => true

end Sys2Proof
end

