-- ==== Sys2Proof/Decode.lean ====
section
/-! DEFINITION. The command decoder of R78, over the opcode map of R75 and the formats of R71 and R76,
and the encoder written from the same table. -/

namespace Sys2Proof

/-- The three command errors (R241); the decoder rejects a word by one of them (R77, R78). -/
inductive CommandError where
  /-- OP is not in the opcode map: code 0x01. -/
  | illegalOpcode
  /-- A reserved bit is 1, or ARK's SRC is in 11..14: code 0x02. -/
  | reservedField
  /-- The command's build parameter is 0: code 0x03. -/
  | absentVariant
  deriving DecidableEq, Repr

/-- The value recorded in STATUS.CAUSE (R241). -/
def CommandError.code : CommandError → Byte
  | .illegalOpcode => 0x01#8
  | .reservedField => 0x02#8
  | .absentVariant => 0x03#8

/-- The five formats of R71. -/
inductive Format where
  | n
  | r1
  | r2
  | i
  | k
  deriving DecidableEq, Repr

/-- The mask of a format: the bits fixed by OP and the reserved bits (R76). -/
def Format.mask : Format → Word
  | .n => 0xFFFFFFFF#32
  | .r1 => 0xFFFFF0FF#32
  | .r2 => 0xFFFFC0FF#32
  | .i => 0xFFFF00FF#32
  | .k => 0xFFFFF0FF#32

/-- OP = w[7:0] (R71). -/
def opField (w : Word) : Byte := w.extractLsb' 0 8
/-- RD = w[9:8] (R71). -/
def rdField (w : Word) : GReg := w.extractLsb' 8 2
/-- RA = w[11:10] (R71). -/
def raField (w : Word) : GReg := w.extractLsb' 10 2
/-- RB = w[13:12] (R71). -/
def rbField (w : Word) : GReg := w.extractLsb' 12 2
/-- IMM8 = w[15:8] (R71, R73). -/
def immField (w : Word) : Byte := w.extractLsb' 8 8
/-- SRC = w[11:8] (R71, R74). -/
def srcField (w : Word) : BitVec 4 := w.extractLsb' 8 4

/-- One row of the opcode map (R75): OP, format, option, and the command its fields make. -/
structure OpRow where
  op     : Byte
  format : Format
  option : Option BuildOption
  make   : Word → Instr

/-- The opcode map (R75), in the manual's order. -/
def opMap : List OpRow :=
  [ ⟨0x00#8, .n,  none, fun _ => .nop⟩,
    ⟨0x10#8, .r1, none, fun w => .gdbl (rdField w) (raField w)⟩,
    ⟨0x11#8, .r1, none, fun w => .ghlv (rdField w) (raField w)⟩,
    ⟨0x12#8, .r2, none, fun w => .gmul (rdField w) (raField w) (rbField w)⟩,
    ⟨0x13#8, .r1, none, fun w => .ginv (rdField w) (raField w)⟩,
    ⟨0x20#8, .r1, none, fun w => .sbox (rdField w) (raField w)⟩,
    ⟨0x21#8, .r1, none, fun w => .isbox (rdField w) (raField w)⟩,
    ⟨0x22#8, .n,  none, fun _ => .subb⟩,
    ⟨0x23#8, .n,  none, fun _ => .isubb⟩,
    ⟨0x30#8, .k,  none, fun w => .ark (srcField w)⟩,
    ⟨0x31#8, .n,  none, fun _ => .shr⟩,
    ⟨0x32#8, .n,  none, fun _ => .ishr⟩,
    ⟨0x33#8, .n,  none, fun _ => .mixc⟩,
    ⟨0x34#8, .n,  none, fun _ => .imixc⟩ ]
  ++
  [ ⟨0x40#8, .n,  none, fun _ => .kexp⟩,
    ⟨0x41#8, .i,  none, fun w => .kadv (immField w)⟩,
    ⟨0x42#8, .i,  none, fun w => .kreg (immField w)⟩,
    ⟨0x43#8, .n,  none, fun _ => .kdec⟩,
    ⟨0x50#8, .n,  none, fun _ => .enc⟩,
    ⟨0x51#8, .n,  none, fun _ => .dec⟩,
    ⟨0x52#8, .n,  none, fun _ => .encf⟩,
    ⟨0x53#8, .n,  none, fun _ => .decf⟩,
    ⟨0x60#8, .n,  none, fun _ => .hdbl⟩,
    ⟨0x61#8, .n,  some .mulb, fun _ => .hmulb⟩,
    ⟨0x62#8, .n,  some .t8, fun _ => .ht8b⟩,
    ⟨0x63#8, .n,  some .t8, fun _ => .hmul8⟩,
    ⟨0x64#8, .n,  some .t4, fun _ => .ht4b⟩,
    ⟨0x65#8, .n,  some .t4, fun _ => .hmul4⟩ ]

/-- Whether a build has the option a row names; a row without option is in every build (R75). -/
def optionPresent (b : Build) : Option BuildOption → Bool
  | none => true
  | some o => b.has o

/-- The decoder, in the order of R78: ILLEGAL_OPCODE, ABSENT_VARIANT, RESERVED_FIELD for a reserved bit,
RESERVED_FIELD for ARK's SRC in 11..14. Total on every 32-bit word. -/
def decode (b : Build) (w : Word) : Except CommandError Instr :=
  match opMap.find? (fun r => r.op == opField w) with
  | none => .error .illegalOpcode
  | some r =>
    if optionPresent b r.option = false then .error .absentVariant
    else if w &&& r.format.mask ≠ r.op.setWidth 32 then .error .reservedField
    else if r.format = .k ∧ srcLegal (srcField w) = false then .error .reservedField
    else .ok (r.make w)

/-- Format N: the reserved bits 31:8 are 0 (R71). -/
def formatN (op : Byte) : Word := 0#24 ++ op
/-- Format R1 (R71). -/
def formatR1 (op : Byte) (rd ra : GReg) : Word := 0#20 ++ ra ++ rd ++ op
/-- Format R2 (R71). -/
def formatR2 (op : Byte) (rd ra rb : GReg) : Word := 0#18 ++ rb ++ ra ++ rd ++ op
/-- Format I (R71). -/
def formatI (op imm8 : Byte) : Word := 0#16 ++ imm8 ++ op
/-- Format K (R71). -/
def formatK (op : Byte) (src : BitVec 4) : Word := 0#20 ++ src ++ op

/-- OP of a command (R75). -/
def Instr.op : Instr → Byte
  | .nop => 0x00#8
  | .gdbl _ _ => 0x10#8
  | .ghlv _ _ => 0x11#8
  | .gmul _ _ _ => 0x12#8
  | .ginv _ _ => 0x13#8
  | .sbox _ _ => 0x20#8
  | .isbox _ _ => 0x21#8
  | .subb => 0x22#8
  | .isubb => 0x23#8
  | .ark _ => 0x30#8
  | .shr => 0x31#8
  | .ishr => 0x32#8
  | .mixc => 0x33#8
  | .imixc => 0x34#8
  | .kexp => 0x40#8
  | .kadv _ => 0x41#8
  | .kreg _ => 0x42#8
  | .kdec => 0x43#8
  | .enc => 0x50#8
  | .dec => 0x51#8
  | .encf => 0x52#8
  | .decf => 0x53#8
  | .hdbl => 0x60#8
  | .hmulb => 0x61#8
  | .ht8b => 0x62#8
  | .hmul8 => 0x63#8
  | .ht4b => 0x64#8
  | .hmul4 => 0x65#8

/-- The option a command needs (R75). -/
def Instr.option : Instr → Option BuildOption
  | .hmulb => some .mulb
  | .ht8b => some .t8
  | .hmul8 => some .t8
  | .ht4b => some .t4
  | .hmul4 => some .t4
  | .nop | .gdbl _ _ | .ghlv _ _ | .gmul _ _ _ | .ginv _ _ | .sbox _ _ | .isbox _ _ => none
  | .subb | .isubb | .ark _ | .shr | .ishr | .mixc | .imixc => none
  | .kexp | .kadv _ | .kreg _ | .kdec | .enc | .dec | .encf | .decf | .hdbl => none

/-- The command word of a command (R71, R75). -/
def encode (i : Instr) : Word :=
  match i with
  | .gdbl rd ra => formatR1 i.op rd ra
  | .ghlv rd ra => formatR1 i.op rd ra
  | .gmul rd ra rb => formatR2 i.op rd ra rb
  | .ginv rd ra => formatR1 i.op rd ra
  | .sbox rd ra => formatR1 i.op rd ra
  | .isbox rd ra => formatR1 i.op rd ra
  | .ark src => formatK i.op src
  | .kadv imm8 => formatI i.op imm8
  | .kreg imm8 => formatI i.op imm8
  | .nop | .subb | .isubb | .shr | .ishr | .mixc | .imixc => formatN i.op
  | .kexp | .kdec | .enc | .dec | .encf | .decf => formatN i.op
  | .hdbl | .hmulb | .ht8b | .hmul8 | .ht4b | .hmul4 => formatN i.op

/-- The command the decoder of the default build reads from `nbits` bits `w`, bit 0 the least significant
bit of the one command word; a value of more than 32 bits is no command (R70). -/
def decodeTableWord (nbits w : Nat) : Option Instr :=
  let v := w % 2 ^ nbits
  if v < 2 ^ 32 then
    match decode Config.defaultBuild (BitVec.ofNat 32 v) with
    | .ok i => some i
    | .error _ => none
  else none

end Sys2Proof
end

