-- ==== Sys2Proof/Machine/State.lean ====
section
/-! DEFINITION. The state of AESMIN-CORE (R39) as plain data, what the host port can present and answer,
the reasons types of a step, and the state after reset (R271). -/

namespace Sys2Proof.Machine

open Sys2Proof

/-- The model fault of R40 and R247. It is a sticky MARK recorded in `State.modelFault`, as R247 and R286
have it: it never ends a run, and no step answers `Host.Outcome.fault` (log 2). Safe under R247's own
premise: every claim takes "no UNINIT_READ recorded" as a premise. -/
inductive Fault where
  /-- UNINIT_READ: raised by a host read that returns an undefined byte, and by every command whose listed
  reads include one; `off` is the window offset of the first such byte (95_test_vectors.md §8.3). Safe:
  the chip raises nothing and uses what the storage holds (R40). -/
  | uninitRead (off : Nat)
  deriving DecidableEq, Repr

/-- The refusals of a step. R247: "There is no refusal (every 32-bit word written to CMD has a meaning)". -/
inductive Refusal where
  /-- An instruction that has no meaning in the model, by its mnemonic. Raised by nothing: every command
  has its meaning. Safe. -/
  | notModelled (mnemonic : String)
  deriving DecidableEq, Repr

/-- The bus errors of R242. -/
inductive BusError where
  /-- BUS_WIDTH. -/
  | width
  /-- BUS_MISALIGNED. -/
  | misaligned
  /-- BUS_UNMAPPED. -/
  | unmapped
  deriving DecidableEq, Repr

/-- What the host port answered to the last event (R55, R56, R242, R245; log 7). -/
inductive Response where
  /-- Nothing has been answered since reset. -/
  | idle
  /-- A write has completed. -/
  | done
  /-- A 1-byte read returned this byte (R55). -/
  | byte (v : Byte)
  /-- A 4-byte read returned this value (R55). -/
  | word (v : Word)
  /-- The access ended with a bus error at this offset and width (R57, R242); a read returned no data (R245). -/
  | busError (e : BusError) (off : Offset) (n : Nat)
  deriving DecidableEq, Repr

/-- What the outside world presents to the block: host accesses of n bytes at a window offset (R54 to
R56), and the reset input (R270). A write carries 32 data bits, all a legal access has (R54). -/
inductive HostEvent where
  /-- `MemRead(off, n)` (R55). -/
  | read (off : Offset) (n : Nat)
  /-- `MemWrite(off, n, v)` (R56). -/
  | write (off : Offset) (n : Nat) (v : Word)
  /-- The platform asserts the reset input (R270). -/
  | reset
  deriving DecidableEq, Repr

/-- STATUS, by its fields; the reserved bits hold nothing (R32). -/
structure Status where
  /-- ERR, bit 0. -/
  err   : Bool
  /-- CAUSE, bits 15:8. -/
  cause : Byte
  /-- EOP, bits 23:16. -/
  eop   : Byte
  deriving DecidableEq, Repr

/-- The storage bytes of the data regions by window offset (R50, R51): exactly the bytes written since
reset are listed (R40), by rising offset. -/
abbrev Memory := List Host.Cell

/-- The state of the block (R39) and of its port. -/
structure State where
  /-- CMD: the last word written to it (R31). -/
  cmd        : Word
  /-- STATUS (R32). -/
  status     : Status
  /-- CFG: the build parameters, constant (R34). -/
  cfg        : Build
  /-- G0..G3, BLK, KEY, GX, GH, SCH, T4 and T8 (R22 to R30), each byte at its window offset (R51),
  with its written-since-reset mark: listed or not (R40; log 10). -/
  mem        : Memory
  /-- The sticky UNINIT_READ mark (R40, R247, R286). -/
  modelFault : Option Fault
  /-- The MODEL's own field: the host events still to come, next first (R286; log 5). -/
  pending    : List HostEvent
  /-- The MODEL's own field: the port's answer to the last event (log 7). -/
  response   : Response
  deriving DecidableEq, Repr

/-- STATUS after reset: ERR = 0, CAUSE = 0, EOP = 0 (R271). -/
def Status.reset : Status := { err := false, cause := 0#8, eop := 0#8 }

/-- The state after reset of a build (R271): no data byte written, nothing pending. -/
def State.resetOf (b : Build) : State :=
  { cmd := 0#32, status := Status.reset, cfg := b, mem := [], modelFault := none, pending := [],
    response := .idle }

/-- The state after reset of the default build (R6, R271). -/
def State.reset : State := State.resetOf Config.defaultBuild

end Sys2Proof.Machine
end

