-- ==== Sys2Proof/Machine/Operands.lean ====
section
/-! DEFINITION. The operands of commands and accesses: byte strings and their parts (R10, R24 to R30),
the address map of the window (R51, R52), and the spans of bytes a command lists as its reads (R14). -/

namespace Sys2Proof.Machine

open Sys2Proof

/-! ### Byte strings -/

/-- The string of length `n` whose item `i` is `f i`. -/
def vecOf {α : Type} (n : Nat) (f : Nat → α) : Vector α n :=
  ⟨((List.range n).map f).toArray, by simp⟩

/-- Byte `i` of a byte string (R10); every use has `i` in range. -/
def byteOf {n : Nat} (v : Bytes n) (i : Nat) : Byte := v.toList.getD i 0#8

/-- The byte string whose byte `i` is `f i` (R10). -/
def bytesOf (n : Nat) (f : Nat → Byte) : Bytes n := vecOf n f

/-- The 16-byte buffer of a list of bytes, byte 0 first (R10). -/
def blockOf (bs : List Byte) : Block := bytesOf 16 fun i => bs.getD i 0#8

/-- Sixteen zero bytes, the element 0 (R10, R12). -/
def zeroBlock : Block := bytesOf 16 fun _ => 0#8

/-- Entry `e` of a table of blocks (R29, R30); every use has `e` in range. -/
def entryOf {n : Nat} (t : Vector Block n) (e : Nat) : Block := t.toList.getD e zeroBlock

/-- Column `c` of a block, or word `c` of a round key: bytes 4c..4c+3 (R24, R25). -/
def columnOf (b : Block) (c : Nat) : Column := bytesOf 4 fun r => byteOf b (4 * c + r)

/-- The block of four columns (R24). -/
def ofColumns (c0 c1 c2 c3 : Column) : Block :=
  blockOf (c0.toList ++ c1.toList ++ c2.toList ++ c3.toList)

/-- Byte-wise XOR of two byte strings (R9, R13). -/
def xorBytes {n : Nat} (a b : Bytes n) : Bytes n := bytesOf n fun i => byteOf a i ^^^ byteOf b i

/-- Round key `r` (0..10) of a schedule: `S[16r .. 16r+15]` (R26, R180). -/
def roundKeyOf (s : Schedule) (r : Nat) : Block := bytesOf 16 fun i => byteOf s (16 * r + i)

/-- `for i in start..start+count-1: a <- f i a`, counting up (R13). -/
def forUp {α : Type} (start : Nat) : Nat → (Nat → α → α) → α → α
  | 0, _, a => a
  | count + 1, f, a => f (start + count) (forUp start count f a)

/-- `for i in start+count-1 downto start: a <- f i a`, counting down (R13). -/
def forDown {α : Type} (start count : Nat) (f : Nat → α → α) (a : α) : α :=
  forUp 0 count (fun k => f (start + count - 1 - k)) a

/-- The little-endian 32-bit value of four bytes (R55). -/
def wordOfBytes (b0 b1 b2 b3 : Byte) : Word := b3 ++ b2 ++ b1 ++ b0

/-- Byte `k` of a 32-bit value: `v[8k+7:8k]` (R56). -/
def byteOfWord (v : Word) (k : Nat) : Byte := v.extractLsb' (8 * k) 8

/-! ### The address map -/

/-- The regions of the window (R51). -/
inductive Region where
  | cmd
  | status
  | g
  | cfg
  | blk
  | key
  | gx
  | gh
  | sch
  | t4
  | t8
  deriving DecidableEq, Repr

/-- The first offset of a region (R51). -/
def regionBase : Region → Nat
  | .cmd => 0x0000
  | .status => 0x0004
  | .g => 0x0008
  | .cfg => 0x000C
  | .blk => 0x0010
  | .key => 0x0020
  | .gx => 0x0030
  | .gh => 0x0040
  | .sch => 0x0100
  | .t4 => 0x0200
  | .t8 => 0x1000

/-- The size of a region in bytes (R51). -/
def regionSize : Region → Nat
  | .cmd => 4
  | .status => 4
  | .g => 4
  | .cfg => 4
  | .blk => 16
  | .key => 16
  | .gx => 16
  | .gh => 16
  | .sch => 176
  | .t4 => 480
  | .t8 => 4080

/-- Whether a region is mapped in a build (R52). -/
def regionPresent (b : Build) : Region → Bool
  | .t4 => b.t4
  | .t8 => b.t8
  | .cmd | .status | .g | .cfg | .blk | .key | .gx | .gh | .sch => true

/-- CMD, STATUS and CFG: registers, word access only (R54). -/
def regionControl : Region → Bool
  | .cmd | .status | .cfg => true
  | .g | .blk | .key | .gx | .gh | .sch | .t4 | .t8 => false

/-- The rows of the address map, in the manual's order (R51). -/
def addressMap : List Region := [.cmd, .status, .g, .cfg, .blk, .key, .gx, .gh, .sch, .t4, .t8]

/-- Whether an offset lies in a region (R51). -/
def inRegion (r : Region) (off : Nat) : Bool :=
  decide (regionBase r ≤ off) && decide (off < regionBase r + regionSize r)

/-- The region an offset lies in, none at an unmapped offset (R51, R52). -/
def regionAt (b : Build) (off : Nat) : Option Region :=
  addressMap.find? fun r => regionPresent b r && inRegion r off

/-! ### Offsets of the named registers and buffers -/

/-- The offset of G[r] (R51). -/
def gOffset (r : GReg) : Nat := 0x0008 + r.toNat

/-- The offset of entry `e` of T8 (R51). -/
def t8Offset (e : Nat) : Nat := 0x1000 + 16 * e

/-- The offset of entry `e` of T4's table `t` (R51). -/
def t4Offset (t e : Nat) : Nat := 0x0200 + 240 * t + 16 * e

/-- `len` bytes from offset `base`: one item of a command's listed reads (R14). -/
structure Span where
  base : Nat
  len  : Nat
  deriving DecidableEq, Repr

/-- The whole of a region as a span. -/
def regionSpan (r : Region) : Span := { base := regionBase r, len := regionSize r }

/-- The 16 bytes of the round key SRC selects: KEY for 15, else the schedule's round key (R74, R145). -/
def srcSpan (src : BitVec 4) : Span :=
  if src = 15#4 then regionSpan .key else { base := 0x0100 + 16 * src.toNat, len := 16 }

end Sys2Proof.Machine
end

