-- ==== Sys2Proof/Machine/Flags.lean ====
section
/-! DEFINITION. STATUS and CFG as the host reads them, and the only flag computation of the block: the
first-error capture of a command error and its clearing by the host (R32 to R35, R244, R250). -/

namespace Sys2Proof.Machine

open Sys2Proof

/-- STATUS as a 32-bit value: ERR in bit 0, CAUSE in 15:8, EOP in 23:16, reserved bits 0 (R32). -/
def statusWord (st : Status) : Word := 0#8 ++ st.eop ++ st.cause ++ 0#7 ++ BitVec.ofBool st.err

/-- CFG as a 32-bit value: bit 0 CFG_MULB, bit 1 CFG_T4, bit 2 CFG_T8, bits 31:3 zero (R34). -/
def cfgWord (b : Build) : Word :=
  0#29 ++ BitVec.ofBool b.t8 ++ BitVec.ofBool b.t4 ++ BitVec.ofBool b.mulb

/-- STATUS after a command error: CAUSE and EOP keep the first error while ERR = 1; ERR is set (R244). -/
def captureError (code op : Byte) (st : Status) : Status :=
  if st.err = true then st else { err := true, cause := code, eop := op }

/-- STATUS after a host write of `v`: bit 0 clears ERR, CAUSE and EOP, every other bit is ignored (R33). -/
def writeStatus (v : Word) (st : Status) : Status :=
  if v.getLsbD 0 = true then { err := false, cause := 0#8, eop := 0#8 } else st

end Sys2Proof.Machine
end

