-- ==== Sys2Proof/Machine/Ops.lean ====
section
/-! DEFINITION. The shared operations of the machine: reading and storing storage bytes, the named
registers and buffers over them, the UNINIT_READ mark, taking a command error, the access checks, and the
forms of meaning that several commands share. -/

namespace Sys2Proof.Machine

open Sys2Proof

/-! ### Storage bytes (R40, R50, R51) -/

/-- What a byte that nothing has written since reset reads as: 0x00 (DESIGN CHOICE, unsafe without R247's
premise; log 1). Reading it through a host read or a command also records UNINIT_READ. -/
def unwrittenByte : Byte := 0#8

/-- The canonical form: offsets strictly rising. An unlisted offset is an undefined byte, which no written
byte equals, so a listed byte is never redundant (log 10). -/
abbrev Memory.wf (m : Memory) : Prop := m.Pairwise fun c d => c.1 < d.1

/-- Whether the byte at an offset has been written since reset (R40). -/
def Memory.written (m : Memory) (a : Nat) : Bool := (m.lookup a).isSome

/-- The storage byte at an offset (R55). -/
def Memory.byteAt (m : Memory) (a : Nat) : Byte := (m.lookup a).getD unwrittenByte

/-- The listed bytes of a span. -/
def Memory.slice (m : Memory) (base len : Nat) : Memory :=
  m.filter fun c => decide (base ≤ c.1) && decide (c.1 < base + len)

/-- The bytes `bs` listed from offset `base` on. -/
def cellsFrom (base : Nat) : List Byte → Memory
  | [] => []
  | b :: bs => (base, b) :: cellsFrom (base + 1) bs

/-- Store the bytes `bs` from offset `base` on: `byte(base + k) <- bs[k]`, all at once (R56); each stored byte
is then written (R40). -/
def Memory.store (m : Memory) (base : Nat) (bs : List Byte) : Memory :=
  m.filter (fun c => decide (c.1 < base)) ++ cellsFrom base bs
    ++ m.filter (fun c => decide (base + bs.length ≤ c.1))

/-- The first undefined byte of a span, by rising offset (R40). -/
def Memory.firstUnwritten (m : Memory) (sp : Span) : Option Nat :=
  let near := m.slice sp.base sp.len
  ((List.range sp.len).map fun k => sp.base + k).find? fun a => !(near.written a)

/-! ### The state's bytes and buffers -/

/-- The storage byte of the state at an offset (R55). -/
def State.byteAt (s : State) (a : Nat) : Byte := s.mem.byteAt a

/-- Whether the state's byte at an offset has been written since reset (R40). -/
def State.written (s : State) (a : Nat) : Bool := s.mem.written a

/-- The state's bytes from offset `base` on, as a byte string of length `n`. -/
def State.bytesAt (s : State) (base n : Nat) : Bytes n :=
  let near := s.mem.slice base n
  bytesOf n fun i => near.byteAt (base + i)

/-- Store bytes in the state (R56). -/
def State.storeAt (s : State) (base : Nat) (bs : List Byte) : State :=
  { s with mem := s.mem.store base bs }

/-- `G[r]` (R22). -/
def State.g (s : State) (r : GReg) : Byte := s.byteAt (gOffset r)
/-- BLK (R23). -/
def State.blk (s : State) : Block := s.bytesAt 0x0010 16
/-- KEY (R25). -/
def State.key (s : State) : Block := s.bytesAt 0x0020 16
/-- GX (R27). -/
def State.gx (s : State) : Block := s.bytesAt 0x0030 16
/-- GH (R28). -/
def State.gh (s : State) : Block := s.bytesAt 0x0040 16
/-- SCH (R26). -/
def State.sch (s : State) : Schedule := s.bytesAt 0x0100 176
/-- T8 (R29). -/
def State.t8 (s : State) : Table8 := vecOf 255 fun e => s.bytesAt (t8Offset e) 16
/-- T4 (R30). -/
def State.t4 (s : State) : Table4 :=
  vecOf 2 fun t => vecOf 15 fun e => s.bytesAt (t4Offset t e) 16

/-- `G[r] <- v` (R22). -/
def State.setG (s : State) (r : GReg) (v : Byte) : State := s.storeAt (gOffset r) [v]
/-- `BLK <- v` (R23). -/
def State.setBlk (s : State) (v : Block) : State := s.storeAt 0x0010 v.toList
/-- `KEY <- v` (R25). -/
def State.setKey (s : State) (v : Block) : State := s.storeAt 0x0020 v.toList
/-- `GX <- v` (R27). -/
def State.setGx (s : State) (v : Block) : State := s.storeAt 0x0030 v.toList
/-- `SCH <- v` (R26). -/
def State.setSch (s : State) (v : Schedule) : State := s.storeAt 0x0100 v.toList
/-- `T8 <- v`: entry 0 first (R29, R51). -/
def State.setT8 (s : State) (v : Table8) : State :=
  s.storeAt 0x1000 (v.toList.flatMap fun e => e.toList)
/-- `T4 <- v`: table 0 first, entry 0 first (R30, R51). -/
def State.setT4 (s : State) (v : Table4) : State :=
  s.storeAt 0x0200 (v.toList.flatMap fun t => t.toList.flatMap fun e => e.toList)

/-! ### UNINIT_READ (R40, R247) -/

/-- The first undefined byte among a list of spans, taken in order. -/
def State.firstUndefined (s : State) (reads : List Span) : Option Nat :=
  reads.findSome? fun sp => s.mem.firstUnwritten sp

/-- Record UNINIT_READ if a listed read includes an undefined byte; the first record is kept, none is ever
cleared (R40, R247; log 3). -/
def State.noteReads (s : State) (reads : List Span) : State :=
  match s.modelFault, s.firstUndefined reads with
  | none, some off => { s with modelFault := some (.uninitRead off) }
  | _, _ => s

/-! ### Taking a command error (R244) -/

/-- Take a command error: STATUS captures the first error, nothing else changes (R244). This is the block's
only exception; it saves no other state and transfers no control (R249). -/
def takeCommandError (e : CommandError) (op : Byte) (s : State) : State :=
  { s with status := captureError e.code op s.status }

/-- The return from a command error: the host's write of `v` to STATUS (R33, R250). -/
def clearCommandError (v : Word) (s : State) : State := { s with status := writeStatus v s.status }

/-! ### Access checks (R57) -/

/-- `check_access`: the first check that fails, in the order of R57. -/
def checkAccess (b : Build) (off n : Nat) : Option BusError :=
  if n ≠ 1 ∧ n ≠ 4 then some .width
  else if n = 4 ∧ off % 4 ≠ 0 then some .misaligned
  else if (List.range n).any (fun k => (regionAt b (off + k)).isNone) then some .unmapped
  else if (regionAt b off).any regionControl = true ∧ n ≠ 4 then some .width
  else none

/-! ### Forms of meaning several commands share -/

/-- The outcome of a machine step. -/
abbrev Result := Host.Outcome State Fault Refusal

/-- A scalar command of one source: `G[RD] <- f(G[RA])` (formats R1). -/
def scalarUnary (f : Byte → Byte) (rd ra : GReg) (s : State) : Result :=
  .next ((s.noteReads [⟨gOffset ra, 1⟩]).setG rd (f (s.g ra)))

/-- A scalar command of two sources, both read before the destination is written (R38, R72). -/
def scalarBinary (f : Byte → Byte → Byte) (rd ra rb : GReg) (s : State) : Result :=
  .next ((s.noteReads [⟨gOffset ra, 1⟩, ⟨gOffset rb, 1⟩]).setG rd (f (s.g ra) (s.g rb)))

/-- A block command in place: `BLK <- f(BLK)`. -/
def blockUnary (f : Block → Block) (s : State) : Result :=
  .next ((s.noteReads [regionSpan .blk]).setBlk (f s.blk))

/-- A key command in place: `KEY <- f(KEY)`. -/
def keyUnary (f : Block → Block) (s : State) : Result :=
  .next ((s.noteReads [regionSpan .key]).setKey (f s.key))

/-- A command of an optional variant: its meaning when the build has the option, else the command error
ABSENT_VARIANT (R241, R243; log 11). -/
def ifPresent (o : BuildOption) (op : Byte) (meaning : State → Result) (s : State) : Result :=
  if s.cfg.has o = true then meaning s else .next (takeCommandError .absentVariant op s)

end Sys2Proof.Machine
end

