-- ==== Sys2Proof/Machine/Gf256.lean ====
section
/-! DEFINITION. GF(2^8) arithmetic (40_gf256.md, R100 to R103) and the scalar commands GDBL, GHLV, GMUL,
GINV (R105 to R108). -/

namespace Sys2Proof.Machine

open Sys2Proof

/-- `gf_double`: multiply by x modulo 0x11B, by the mask of the high bit (R100). -/
def gfDouble (a : Byte) : Byte :=
  let m := 0#8 - (a >>> 7)
  (a <<< 1) ^^^ (m &&& 0x1B#8)

/-- `gf_halve`: multiply by x^-1, by the mask of the low bit (R101). -/
def gfHalve (a : Byte) : Byte :=
  let m := 0#8 - (a &&& 1#8)
  (a >>> 1) ^^^ (m &&& 0x8D#8)

/-- The iterations of `gf_mul` left to do, on the running `a`, `b` and `r`: XOR the undoubled `a` by the low
bit of `b`, double `a`, shift `b` (R102, C2). -/
def gfMulLoop : Nat → Byte → Byte → Byte → Byte
  | 0, _, _, r => r
  | n + 1, a, b, r =>
    let m := 0#8 - (b &&& 1#8)
    gfMulLoop n (gfDouble a) (b >>> 1) (r ^^^ (a &&& m))

/-- `gf_mul`: the field product, 8 iterations from r = 0 (R102). -/
def gfMul (a b : Byte) : Byte := gfMulLoop 8 a b 0#8

/-- CHAIN, the indices of the addition chain (R103). -/
def invChain : List Nat := [0, 1, 1, 3, 4, 3, 6, 7, 3, 9, 1]

/-- `gf_inv`: a^254 by the addition chain; `t[i+1] <- gf_mul(t[i], t[CHAIN[i]])`, the result t[11] (R103). -/
def gfInv (a : Byte) : Byte :=
  let t := forUp 0 11 (fun i t => t ++ [gfMul (t.getD i 0#8) (t.getD (invChain.getD i 0) 0#8)]) [a]
  t.getD 11 0#8

/-- GDBL (R105). -/
def execGdbl (rd ra : GReg) (s : State) : Result := scalarUnary gfDouble rd ra s

/-- GHLV (R106). -/
def execGhlv (rd ra : GReg) (s : State) : Result := scalarUnary gfHalve rd ra s

/-- GMUL (R107). -/
def execGmul (rd ra rb : GReg) (s : State) : Result := scalarBinary gfMul rd ra rb s

/-- GINV (R108). -/
def execGinv (rd ra : GReg) (s : State) : Result := scalarUnary gfInv rd ra s

end Sys2Proof.Machine
end

