-- ==== Sys2Proof/Machine/BlockTransform.lean ====
section
/-! DEFINITION. Block transforms (42_block_transform.md, R140 to R144) and the commands ARK, SHR, ISHR, MIXC,
IMIXC (R145 to R149). -/

namespace Sys2Proof.Machine

open Sys2Proof

/-- `xor_round_key(B, K)` (R140). -/
def xorRoundKey (b k : Block) : Block := xorBytes b k

/-- `shift_rows(B)`: `B'[4c + r] <- B[4((c + r) mod 4) + r]` (R141). -/
def shiftRows (b : Block) : Block :=
  bytesOf 16 fun i => byteOf b (4 * ((i / 4 + i % 4) % 4) + i % 4)

/-- `shift_rows_inverse(B)`: `B'[4c + r] <- B[4((c - r + 4) mod 4) + r]` (R142). -/
def shiftRowsInverse (b : Block) : Block :=
  bytesOf 16 fun i => byteOf b (4 * ((i / 4 + 4 - i % 4) % 4) + i % 4)

/-- One column of `mix_columns` (R143). -/
def mixColumn (c : Column) : Column :=
  let s0 := byteOf c 0
  let s1 := byteOf c 1
  let s2 := byteOf c 2
  let s3 := byteOf c 3
  let d0 := gfDouble s0
  let d1 := gfDouble s1
  let d2 := gfDouble s2
  let d3 := gfDouble s3
  #v[d0 ^^^ (d1 ^^^ s1) ^^^ s2 ^^^ s3,
     s0 ^^^ d1 ^^^ (d2 ^^^ s2) ^^^ s3,
     s0 ^^^ s1 ^^^ d2 ^^^ (d3 ^^^ s3),
     (d0 ^^^ s0) ^^^ s1 ^^^ s2 ^^^ d3]

/-- The multiples 9, 11, 13 and 14 of a byte, by doubling three times (R144). -/
structure InvMultiples where
  m9  : Byte
  m11 : Byte
  m13 : Byte
  m14 : Byte

/-- `m9`, `m11`, `m13`, `m14` of one byte (R144). -/
def invMultiples (s : Byte) : InvMultiples :=
  let x2 := gfDouble s
  let x4 := gfDouble x2
  let x8 := gfDouble x4
  { m9 := x8 ^^^ s, m11 := x8 ^^^ x2 ^^^ s, m13 := x8 ^^^ x4 ^^^ s, m14 := x8 ^^^ x4 ^^^ x2 }

/-- One column of `mix_columns_inverse` (R144). -/
def mixColumnInverse (c : Column) : Column :=
  let k0 := invMultiples (byteOf c 0)
  let k1 := invMultiples (byteOf c 1)
  let k2 := invMultiples (byteOf c 2)
  let k3 := invMultiples (byteOf c 3)
  #v[k0.m14 ^^^ k1.m11 ^^^ k2.m13 ^^^ k3.m9,
     k0.m9 ^^^ k1.m14 ^^^ k2.m11 ^^^ k3.m13,
     k0.m13 ^^^ k1.m9 ^^^ k2.m14 ^^^ k3.m11,
     k0.m11 ^^^ k1.m13 ^^^ k2.m9 ^^^ k3.m14]

/-- A column function on each of the four columns (R143, R144). -/
def mapColumns (f : Column → Column) (b : Block) : Block :=
  ofColumns (f (columnOf b 0)) (f (columnOf b 1)) (f (columnOf b 2)) (f (columnOf b 3))

/-- `mix_columns(B)` (R143). -/
def mixColumns (b : Block) : Block := mapColumns mixColumn b

/-- `mix_columns_inverse(B)` (R144). -/
def mixColumnsInverse (b : Block) : Block := mapColumns mixColumnInverse b

/-- The round key SRC selects: KEY for 15, else `SCH[16*SRC .. 16*SRC+15]` (R74, R145). -/
def State.srcKey (s : State) (src : BitVec 4) : Block :=
  if src = 15#4 then s.key else roundKeyOf s.sch src.toNat

/-- ARK: SRC in 11..14 is the command error RESERVED_FIELD (R74, R145; log 11). -/
def execArk (src : BitVec 4) (s : State) : Result :=
  if srcLegal src = true then
    .next ((s.noteReads [regionSpan .blk, srcSpan src]).setBlk (xorRoundKey s.blk (s.srcKey src)))
  else .next (takeCommandError .reservedField 0x30#8 s)

/-- SHR (R146). -/
def execShr (s : State) : Result := blockUnary shiftRows s

/-- ISHR (R147). -/
def execIshr (s : State) : Result := blockUnary shiftRowsInverse s

/-- MIXC (R148). -/
def execMixc (s : State) : Result := blockUnary mixColumns s

/-- IMIXC (R149). -/
def execImixc (s : State) : Result := blockUnary mixColumnsInverse s

end Sys2Proof.Machine
end

