-- ==== Sys2Proof/Machine/Sbox.lean ====
section
/-! DEFINITION. The S-box and its inverse (41_sbox.md, R120, R121) and the commands SBOX, ISBOX, SUBB, ISUBB
(R125 to R128). -/

namespace Sys2Proof.Machine

open Sys2Proof

/-- `rotl8(v, k)`: `((v << k) | (v >> (8 - k))) & 0xFF` (R9). -/
def rotl8 (v : Byte) (k : Nat) : Byte := (v <<< k) ||| (v >>> (8 - k))

/-- The affine map of R120, with the rotations 1, 2, 3 and 4 (C1). -/
def sboxAffine (b : Byte) : Byte :=
  b ^^^ rotl8 b 1 ^^^ rotl8 b 2 ^^^ rotl8 b 3 ^^^ rotl8 b 4 ^^^ 0x63#8

/-- The inverse affine map of R121. -/
def sboxAffineInv (s : Byte) : Byte := rotl8 s 1 ^^^ rotl8 s 3 ^^^ rotl8 s 6 ^^^ 0x05#8

/-- `sbox(a)` (R120). -/
def sbox (a : Byte) : Byte := sboxAffine (gfInv a)

/-- `sbox_inverse(s)` (R121). -/
def sboxInverse (s : Byte) : Byte := gfInv (sboxAffineInv s)

/-- `sub_bytes(B)` (R127). -/
def subBytes (b : Block) : Block := bytesOf 16 fun i => sbox (byteOf b i)

/-- `sub_bytes_inverse(B)` (R128). -/
def subBytesInverse (b : Block) : Block := bytesOf 16 fun i => sboxInverse (byteOf b i)

/-- SBOX (R125). -/
def execSbox (rd ra : GReg) (s : State) : Result := scalarUnary sbox rd ra s

/-- ISBOX (R126). -/
def execIsbox (rd ra : GReg) (s : State) : Result := scalarUnary sboxInverse rd ra s

/-- SUBB (R127). -/
def execSubb (s : State) : Result := blockUnary subBytes s

/-- ISUBB (R128). -/
def execIsubb (s : State) : Result := blockUnary subBytesInverse s

end Sys2Proof.Machine
end

