-- ==== Sys2Proof/Machine/KeySchedule.lean ====
section
/-! DEFINITION. The key schedule (43_key_schedule.md, R160 to R165) and the commands KEXP, KADV, KREG, KDEC
(R167 to R170). -/

namespace Sys2Proof.Machine

open Sys2Proof

/-- `RCON[1..10]` (R160). -/
def rconList : List Byte :=
  [0x01#8, 0x02#8, 0x04#8, 0x08#8, 0x10#8, 0x20#8, 0x40#8, 0x80#8, 0x1B#8, 0x36#8]

/-- `RCON[r]` for r in 1..10 (R160). -/
def rcon (r : Nat) : Byte := rconList.getD (r - 1) 0#8

/-- `sub_rot(w)`: rotate left one byte, then the forward S-box of all four bytes (R161). -/
def subRot (w : Column) : Column :=
  #v[sbox (byteOf w 1), sbox (byteOf w 2), sbox (byteOf w 3), sbox (byteOf w 0)]

/-- `t <- sub_rot(w); t[0] <- t[0] ^ rc` (R162, R163, R164). -/
def subRotRcon (w : Column) (rc : Byte) : Column :=
  let t := subRot w
  #v[byteOf t 0 ^^^ rc, byteOf t 1, byteOf t 2, byteOf t 3]

/-- What the loop of `expand` carries: the schedule words made so far, word 0 first, and the running
round constant (R162). -/
structure ExpandState where
  words : List Column
  rc    : Byte

/-- Word `i` of the words made so far; every use has `i` in range. -/
def wordAt (ws : List Column) (i : Nat) : Column := ws.getD i (bytesOf 4 fun _ => 0#8)

/-- One iteration of `expand`, word `i` in 4..43 (R162). -/
def expandStep (i : Nat) (e : ExpandState) : ExpandState :=
  if i % 4 = 0 then
    { words := e.words ++ [xorBytes (wordAt e.words (i - 4)) (subRotRcon (wordAt e.words (i - 1)) e.rc)]
      rc := gfDouble e.rc }
  else
    { words := e.words ++ [xorBytes (wordAt e.words (i - 4)) (wordAt e.words (i - 1))], rc := e.rc }

/-- The 44 words of the schedule of K: words 0..3 are K, then i in 4..43 with rc from 0x01 (R162). -/
def expandWords (k : Block) : List Column :=
  (forUp 4 40 expandStep
    { words := [columnOf k 0, columnOf k 1, columnOf k 2, columnOf k 3], rc := 0x01#8 }).words

/-- `expand(K)`: byte n of the schedule is byte n mod 4 of word n div 4 (R26, R162). -/
def expand (k : Block) : Schedule :=
  let ws := expandWords k
  bytesOf 176 fun n => byteOf (wordAt ws (n / 4)) (n % 4)

/-- `advance_round(Kb, rc)`: word 0 by the transformed last word, words 1, 2, 3 cumulatively (R163). -/
def advanceRound (k : Block) (rc : Byte) : Block :=
  let w0 := xorBytes (columnOf k 0) (subRotRcon (columnOf k 3) rc)
  let w1 := xorBytes (columnOf k 1) w0
  let w2 := xorBytes (columnOf k 2) w1
  let w3 := xorBytes (columnOf k 3) w2
  ofColumns w0 w1 w2 w3

/-- `regress_round(Kb, rc)`: words 3, 2, 1 undone in that order, then word 0 by the restored last word
(R164). -/
def regressRound (k : Block) (rc : Byte) : Block :=
  let w3 := xorBytes (columnOf k 3) (columnOf k 2)
  let w2 := xorBytes (columnOf k 2) (columnOf k 1)
  let w1 := xorBytes (columnOf k 1) (columnOf k 0)
  let w0 := xorBytes (columnOf k 0) (subRotRcon w3 rc)
  ofColumns w0 w1 w2 w3

/-- A key buffer with the running round constant (R36, R165, R182, R183). -/
structure KeyWalk where
  key : Block
  rc  : Byte

/-- Advance the key, then double the round constant (R165, R182). -/
def KeyWalk.advance (w : KeyWalk) : KeyWalk :=
  { key := advanceRound w.key w.rc, rc := gfDouble w.rc }

/-- Regress the key, then halve the round constant (R183). -/
def KeyWalk.regress (w : KeyWalk) : KeyWalk :=
  { key := regressRound w.key w.rc, rc := gfHalve w.rc }

/-- `derive_decrypt_start_key(K)`: ten rounds from rc = 0x01 (R165). -/
def deriveDecryptStartKey (k : Block) : Block :=
  (forUp 1 10 (fun _ w => w.advance) (KeyWalk.mk k 0x01#8)).key

/-- KEXP (R167). -/
def execKexp (s : State) : Result :=
  .next ((s.noteReads [regionSpan .key]).setSch (expand s.key))

/-- KADV (R168). -/
def execKadv (imm8 : Byte) (s : State) : Result := keyUnary (fun k => advanceRound k imm8) s

/-- KREG (R169). -/
def execKreg (imm8 : Byte) (s : State) : Result := keyUnary (fun k => regressRound k imm8) s

/-- KDEC: the start key is written into KEY (R170). -/
def execKdec (s : State) : Result := keyUnary deriveDecryptStartKey s

end Sys2Proof.Machine
end

