-- ==== Sys2Proof/Machine/Cipher.lean ====
section
/-! DEFINITION. The AES-128 cipher (44_cipher.md, R180 to R183) and the commands ENC, DEC, ENCF, DECF
(R185 to R188). -/

namespace Sys2Proof.Machine

open Sys2Proof

/-- `encrypt(B, S)` (R180). -/
def encrypt (b : Block) (sch : Schedule) : Block :=
  let b := xorRoundKey b (roundKeyOf sch 0)
  let b := forUp 1 9 (fun r b => xorRoundKey (mixColumns (shiftRows (subBytes b))) (roundKeyOf sch r)) b
  xorRoundKey (shiftRows (subBytes b)) (roundKeyOf sch 10)

/-- `decrypt(B, S)` (R181). -/
def decrypt (b : Block) (sch : Schedule) : Block :=
  let b := xorRoundKey b (roundKeyOf sch 10)
  let b := forDown 1 9
    (fun r b => mixColumnsInverse (xorRoundKey (subBytesInverse (shiftRowsInverse b)) (roundKeyOf sch r))) b
  xorRoundKey (subBytesInverse (shiftRowsInverse b)) (roundKeyOf sch 0)

/-- The block and the key buffer with its round constant, during an on-the-fly command (R36, R182, R183). -/
structure OnTheFly where
  blk  : Block
  walk : KeyWalk

/-- Round `r` (1..10) of `encrypt_on_the_fly` (R182). -/
def encryptRoundOnTheFly (r : Nat) (x : OnTheFly) : OnTheFly :=
  let walk := x.walk.advance
  let b := shiftRows (subBytes x.blk)
  let b := if r < 10 then mixColumns b else b
  { blk := xorRoundKey b walk.key, walk := walk }

/-- `encrypt_on_the_fly(B, K)`: the block and the key at the end (R182). -/
def encryptOnTheFly (b k : Block) : OnTheFly :=
  forUp 1 10 encryptRoundOnTheFly { blk := xorRoundKey b k, walk := { key := k, rc := 0x01#8 } }

/-- Round `r` (9 down to 0) of `decrypt_on_the_fly` (R183). -/
def decryptRoundOnTheFly (r : Nat) (x : OnTheFly) : OnTheFly :=
  let walk := x.walk.regress
  let b := xorRoundKey (subBytesInverse (shiftRowsInverse x.blk)) walk.key
  { blk := if r > 0 then mixColumnsInverse b else b, walk := walk }

/-- `decrypt_on_the_fly(B, K10)`: the block and the key at the end (R183). -/
def decryptOnTheFly (b k : Block) : OnTheFly :=
  forDown 0 10 decryptRoundOnTheFly { blk := xorRoundKey b k, walk := { key := k, rc := 0x36#8 } }

/-- ENC (R185). -/
def execEnc (s : State) : Result :=
  .next ((s.noteReads [regionSpan .blk, regionSpan .sch]).setBlk (encrypt s.blk s.sch))

/-- DEC (R186). -/
def execDec (s : State) : Result :=
  .next ((s.noteReads [regionSpan .blk, regionSpan .sch]).setBlk (decrypt s.blk s.sch))

/-- The on-the-fly commands: BLK and KEY are read, then both written (R187, R188). -/
def onTheFly (f : Block → Block → OnTheFly) (s : State) : Result :=
  let x := f s.blk s.key
  .next (((s.noteReads [regionSpan .blk, regionSpan .key]).setBlk x.blk).setKey x.walk.key)

/-- ENCF: KEY ends holding round key 10 (R187). -/
def execEncf (s : State) : Result := onTheFly encryptOnTheFly s

/-- DECF: KEY ends holding round key 0 (R188). -/
def execDecf (s : State) : Result := onTheFly decryptOnTheFly s

end Sys2Proof.Machine
end

