-- ==== Sys2Proof/Machine/Gf128.lean ====
section
/-! DEFINITION. The GF(2^128) multiplier (45_gf128.md, R200 to R207) and the commands HDBL, HMULB, HT8B, HMUL8,
HT4B, HMUL4 (R209 to R214). Elements are blocks under R12. -/

namespace Sys2Proof.Machine

open Sys2Proof

/-- `gf128_double`: multiply by x; every byte from the bytes before the shift (R200). -/
def gf128Double (p : Block) : Block :=
  let m := 0#8 - (byteOf p 15 &&& 1#8)
  bytesOf 16 fun i =>
    if i = 0 then (byteOf p 0 >>> 1) ^^^ (m &&& 0xE1#8)
    else (byteOf p i >>> 1) ||| (byteOf p (i - 1) <<< 7)

/-- `gf128_mul_x8`: eight doublings (R202, C6). -/
def gf128MulX8 (p : Block) : Block := forUp 1 8 (fun _ p => gf128Double p) p

/-- `multiply_bit_by_bit`, the body of the inner loop: double, then XOR B by the mask of bit `b` of A[i]
(R203). -/
def mulBitStep (a b : Block) (i bit : Nat) (acc : Block) : Block :=
  let m := 0#8 - ((byteOf a i >>> bit) &&& 1#8)
  let acc := gf128Double acc
  bytesOf 16 fun j => byteOf acc j ^^^ (byteOf b j &&& m)

/-- `multiply_bit_by_bit(A, B)`: byte 15 first, bit 0x01 first (R203, C3). -/
def multiplyBitByBit (a b : Block) : Block :=
  forDown 0 16 (fun i acc => forUp 0 8 (fun bit acc => mulBitStep a b i bit acc) acc) zeroBlock

/-- What the table builders carry: the table and the running multiple V = H ⊗ x^k (R204, R206). -/
structure BuildState (α : Type) where
  table : α
  v     : Block

/-- `build_table8`, iteration `k`: XOR V into every entry whose byte value has bit 0x80 >> k, then double V
(R204). -/
def buildTable8Step (k : Nat) (st : BuildState Table8) : BuildState Table8 :=
  { table := vecOf 255 fun e =>
      if (e + 1) &&& (0x80 >>> k) ≠ 0 then xorBytes (entryOf st.table e) st.v else entryOf st.table e
    v := gf128Double st.v }

/-- `build_table8(H)` (R204). -/
def buildTable8 (h : Block) : Table8 :=
  (forUp 0 8 buildTable8Step { table := vecOf 255 fun _ => zeroBlock, v := h }).table

/-- `multiply_table8(A, T)`: byte 15 first, no multiply by x^8 before it (R205). -/
def multiplyTable8 (a : Block) (t : Table8) : Block :=
  forDown 0 16
    (fun k acc =>
      let acc := if k ≠ 15 then gf128MulX8 acc else acc
      let v := (byteOf a k).toNat
      if v ≠ 0 then xorBytes acc (entryOf t (v - 1)) else acc)
    zeroBlock

/-- Entry `e` of T4's table `t`; every use has both in range (R30). -/
def entry4Of (t4 : Table4) (t e : Nat) : Block := entryOf (t4.toList.getD t (vecOf 15 fun _ => zeroBlock)) e

/-- `build_table4`, iteration `k`: table k div 4, nibble bit 0x8 >> (k mod 4) (R206). -/
def buildTable4Step (k : Nat) (st : BuildState Table4) : BuildState Table4 :=
  { table := vecOf 2 fun t => vecOf 15 fun e =>
      if t = k / 4 ∧ (e + 1) &&& (0x8 >>> (k % 4)) ≠ 0 then xorBytes (entry4Of st.table t e) st.v
      else entry4Of st.table t e
    v := gf128Double st.v }

/-- `build_table4(H)` (R206). -/
def buildTable4 (h : Block) : Table4 :=
  (forUp 0 8 buildTable4Step
    { table := vecOf 2 fun _ => vecOf 15 fun _ => zeroBlock, v := h }).table

/-- `multiply_table4(A, T)`: two lookups a byte (R207, C5). -/
def multiplyTable4 (a : Block) (t : Table4) : Block :=
  forDown 0 16
    (fun k acc =>
      let acc := if k ≠ 15 then gf128MulX8 acc else acc
      let hi := (byteOf a k >>> 4).toNat
      let lo := (byteOf a k &&& 0x0F#8).toNat
      let acc := if hi ≠ 0 then xorBytes acc (entry4Of t 0 (hi - 1)) else acc
      if lo ≠ 0 then xorBytes acc (entry4Of t 1 (lo - 1)) else acc)
    zeroBlock

/-- The T8 entries HMUL8 reads: those the non-zero bytes of GX select, byte 15 first (R205, R212). -/
def table8Reads (a : Block) : List Span :=
  (List.range 16).reverse.filterMap fun k =>
    let v := (byteOf a k).toNat
    if v ≠ 0 then some { base := t8Offset (v - 1), len := 16 } else none

/-- The T4 entries HMUL4 reads: those the non-zero nibbles of GX select, byte 15 first, the high nibble
before the low (R207, R214). -/
def table4Reads (a : Block) : List Span :=
  (List.range 16).reverse.flatMap fun k =>
    let hi := (byteOf a k >>> 4).toNat
    let lo := (byteOf a k &&& 0x0F#8).toNat
    (if hi ≠ 0 then [{ base := t4Offset 0 (hi - 1), len := 16 }] else [])
      ++ (if lo ≠ 0 then [{ base := t4Offset 1 (lo - 1), len := 16 }] else [])

/-- HDBL (R209). -/
def execHdbl (s : State) : Result :=
  .next ((s.noteReads [regionSpan .gx]).setGx (gf128Double s.gx))

/-- HMULB (R210). -/
def execHmulb (s : State) : Result :=
  ifPresent .mulb 0x61#8
    (fun s => .next ((s.noteReads [regionSpan .gx, regionSpan .gh]).setGx (multiplyBitByBit s.gx s.gh))) s

/-- HT8B (R211). -/
def execHt8b (s : State) : Result :=
  ifPresent .t8 0x62#8
    (fun s => .next ((s.noteReads [regionSpan .gh]).setT8 (buildTable8 s.gh))) s

/-- HMUL8: T8 as it stands, GH not read (R212). -/
def execHmul8 (s : State) : Result :=
  ifPresent .t8 0x63#8
    (fun s => .next ((s.noteReads (regionSpan .gx :: table8Reads s.gx)).setGx (multiplyTable8 s.gx s.t8))) s

/-- HT4B (R213). -/
def execHt4b (s : State) : Result :=
  ifPresent .t4 0x64#8
    (fun s => .next ((s.noteReads [regionSpan .gh]).setT4 (buildTable4 s.gh))) s

/-- HMUL4: T4 as it stands, GH not read (R214). -/
def execHmul4 (s : State) : Result :=
  ifPresent .t4 0x65#8
    (fun s => .next ((s.noteReads (regionSpan .gx :: table4Reads s.gx)).setGx (multiplyTable4 s.gx s.t4))) s

end Sys2Proof.Machine
end

