-- ==== Sys2Proof/Machine/Misc.lean ====
section
/-! DEFINITION. Miscellaneous commands (49_misc.md): NOP. -/

namespace Sys2Proof.Machine

open Sys2Proof

/-- NOP: no state changes; CMD already holds the word written (R230, R31). -/
def execNop (s : State) : Result := .next s

end Sys2Proof.Machine
end

