-- ==== Sys2Proof/Machine/Dispatch.lean ====
section
/-! DEFINITION. The meaning of every command, one arm per constructor of Instr. -/

namespace Sys2Proof.Machine

open Sys2Proof

/-- Execute one command by its rule (R243). -/
def exec (i : Instr) (s : State) : Host.Outcome State Fault Refusal :=
  match i with
  | .nop => Sys2Proof.Machine.execNop s
  | .gdbl rd ra => Sys2Proof.Machine.execGdbl rd ra s
  | .ghlv rd ra => Sys2Proof.Machine.execGhlv rd ra s
  | .gmul rd ra rb => Sys2Proof.Machine.execGmul rd ra rb s
  | .ginv rd ra => Sys2Proof.Machine.execGinv rd ra s
  | .sbox rd ra => Sys2Proof.Machine.execSbox rd ra s
  | .isbox rd ra => Sys2Proof.Machine.execIsbox rd ra s
  | .subb => Sys2Proof.Machine.execSubb s
  | .isubb => Sys2Proof.Machine.execIsubb s
  | .ark src => Sys2Proof.Machine.execArk src s
  | .shr => Sys2Proof.Machine.execShr s
  | .ishr => Sys2Proof.Machine.execIshr s
  | .mixc => Sys2Proof.Machine.execMixc s
  | .imixc => Sys2Proof.Machine.execImixc s
  | .kexp => Sys2Proof.Machine.execKexp s
  | .kadv imm8 => Sys2Proof.Machine.execKadv imm8 s
  | .kreg imm8 => Sys2Proof.Machine.execKreg imm8 s
  | .kdec => Sys2Proof.Machine.execKdec s
  | .enc => Sys2Proof.Machine.execEnc s
  | .dec => Sys2Proof.Machine.execDec s
  | .encf => Sys2Proof.Machine.execEncf s
  | .decf => Sys2Proof.Machine.execDecf s
  | .hdbl => Sys2Proof.Machine.execHdbl s
  | .hmulb => Sys2Proof.Machine.execHmulb s
  | .ht8b => Sys2Proof.Machine.execHt8b s
  | .hmul8 => Sys2Proof.Machine.execHmul8 s
  | .ht4b => Sys2Proof.Machine.execHt4b s
  | .hmul4 => Sys2Proof.Machine.execHmul4 s

end Sys2Proof.Machine
end

