-- ==== Sys2Proof/Machine/Port.lean ====
section
/-! DEFINITION. The host port: reads, writes and the CMD write that executes a command (20_memory.md, R243). -/

namespace Sys2Proof.Machine

open Sys2Proof

/-- `on_cmd_write`: CMD takes the word, then the decoded command executes, or the error is taken (R243). The
write completes when the command has (R31). -/
def onCmdWrite (w : Word) (s : State) : Result :=
  let s := { s with cmd := w, response := .done }
  match decode s.cfg w with
  | .error e => .next (takeCommandError e (opField w) s)
  | .ok i => exec i s

/-- The port answers a read (R55). -/
def State.answer (s : State) (r : Response) : State := { s with response := r }

/-- The value of a 4-byte read of the data regions (R55). -/
def State.wordAt (s : State) (off : Nat) : Word :=
  wordOfBytes (s.byteAt off) (s.byteAt (off + 1)) (s.byteAt (off + 2)) (s.byteAt (off + 3))

/-- `MemRead(off, n)` (R55, R57, R40, R66). -/
def hostRead (off : Offset) (n : Nat) (s : State) : State :=
  match checkAccess s.cfg off.toNat n with
  | some e => s.answer (.busError e off n)
  | none =>
    match regionAt s.cfg off.toNat with
    | some .cmd => s.answer (.word s.cmd)
    | some .status => s.answer (.word (statusWord s.status))
    | some .cfg => s.answer (.word (cfgWord s.cfg))
    | _ =>
      (s.noteReads [⟨off.toNat, n⟩]).answer
        (if n = 1 then .byte (s.byteAt off.toNat) else .word (s.wordAt off.toNat))

/-- `MemWrite(off, n, v)` (R56, R57): a CMD write executes (R31), a STATUS write clears (R33), a CFG write is
ignored (R34). -/
def hostWrite (off : Offset) (n : Nat) (v : Word) (s : State) : Result :=
  match checkAccess s.cfg off.toNat n with
  | some e => .next (s.answer (.busError e off n))
  | none =>
    match regionAt s.cfg off.toNat with
    | some .cmd => onCmdWrite v s
    | some .status => .next ((clearCommandError v s).answer .done)
    | some .cfg => .next (s.answer .done)
    | _ => .next ((s.storeAt off.toNat ((List.range n).map (byteOfWord v))).answer .done)

/-- The reset input (R270, R271): the block is as after reset; the build is the same; the UNINIT_READ mark
is never cleared (R247; log 4), and the events to come are the outside world's. -/
def resetInput (s : State) : State :=
  { State.resetOf s.cfg with modelFault := s.modelFault, pending := s.pending }

/-- Perform one event (R20, R21, R61). -/
def performEvent (e : HostEvent) (s : State) : Result :=
  match e with
  | .read off n => .next (hostRead off n s)
  | .write off n v => hostWrite off n v s
  | .reset => .next (resetInput s)

/-- Take the next event from those to come, and perform it; with none the block is idle (R257, R272; log 6). -/
def performNext (s : State) : Result :=
  match s.pending with
  | [] => .next s
  | e :: rest => performEvent e { s with pending := rest }

/-- The host's 4-byte write of a command word to CMD (R70, R82). -/
def cmdWrite (w : Word) : HostEvent := .write 0x0000#13 4 w

end Sys2Proof.Machine
end

