-- ==== Sys2Proof/Machine/Step.lean ====
section
/-! DEFINITION. One step of the machine: the next host event (R21: "its step is indexed by the host access
being performed"). -/

namespace Sys2Proof.Machine

open Sys2Proof

/-- One step (R20, R21, R61). -/
def step (s : State) : Host.Outcome State Fault Refusal := performNext s

/-- The state whose next event is the host's CMD write of the `nbits`-bit word `w` (log 5). -/
def State.withFetchWord (s : State) (nbits w : Nat) : State :=
  { s with pending := cmdWrite (BitVec.ofNat 32 (w % 2 ^ nbits)) :: s.pending }

end Sys2Proof.Machine
end

