-- ==== Sys2Proof/Safety.lean ====
section
/-! DEFINITION. What counts as a safe state and a safe run: the premises of R247, the end of a run and its
final states, and the invariant that every step keeps. -/

namespace Sys2Proof.Machine

open Sys2Proof

/-- "No UNINIT_READ recorded", the premise of every claim about the chip (R247, R286). -/
def State.noUninitRead (s : State) : Prop := s.modelFault = none

/-- "No command error": `STATUS.ERR = 0` (R247, R286). -/
def State.noCommandError (s : State) : Prop := s.status.err = false

/-- The run has ended: its last host access has completed, and none is to come (R286). -/
def State.Ended (s : State) : Prop := s.pending = []

/-- A final state: the run has ended and no UNINIT_READ is recorded. A faulted state is never one, although
steps go on past it (the mark is "never cleared by a later step", R247). -/
def State.IsFinal (s : State) : Prop := s.Ended ∧ s.noUninitRead

/-- A final state for a claim that needs "no command error": `STATUS.ERR = 0` at the end (R247, R286). -/
def State.IsFinalWithoutError (s : State) : Prop := s.IsFinal ∧ s.noCommandError

/-- STATUS holds a legal value: CAUSE and EOP are 0 while ERR = 0, and CAUSE is a code of R241 while
ERR = 1 (R32, R241). -/
def Status.legal (st : Status) : Prop :=
  (st.err = false → st.cause = 0#8 ∧ st.eop = 0#8) ∧
  (st.err = true → st.cause = 0x01#8 ∨ st.cause = 0x02#8 ∨ st.cause = 0x03#8)

/-- An offset of a data region of the build: mapped, and not CMD, STATUS or CFG (R51, R52). -/
def dataOffset (b : Build) (a : Nat) : Bool :=
  (regionAt b a).any fun r => !(regionControl r)

/-- The invariant of the machine: storage in its canonical form (log 10), only offsets of data regions that
the build maps hold a byte (R51, R52), and STATUS is legal (R32, R241). -/
structure State.Inv (s : State) : Prop where
  canonical   : s.mem.wf
  onlyMapped  : ∀ c ∈ s.mem, dataOffset s.cfg c.1 = true
  legalStatus : s.status.legal

end Sys2Proof.Machine
end

