-- ==== Sys2Proof/Certificates/Slice0/Obligations.lean ====
section
/-! DEFINITION. The statements for the provers, from the numbered rules of spec/, and the words they are said
in: what a command lists as its reads and writes (R14), what a command keeps, the mark it leaves (R40), and
the polynomial readings of R11 and R12. -/

namespace Sys2Proof.Claims

open Sys2Proof Sys2Proof.Machine

/-- The offsets base, base + 1, ..., base + len - 1. -/
def offsets (base len : Nat) : List Nat := (List.range len).map fun k => base + k

/-- The T8 bytes the non-zero bytes of GX select, byte 15 first (R205, R212). -/
def hmul8TableReads (s : State) : List Nat :=
  (List.range 16).reverse.flatMap fun k =>
    let v := (s.byteAt (0x0030 + k)).toNat
    if v = 0 then [] else offsets (0x1000 + 16 * (v - 1)) 16

/-- The T4 bytes the non-zero nibbles of GX select, byte 15 first, high nibble first (R207, R214). -/
def hmul4TableReads (s : State) : List Nat :=
  (List.range 16).reverse.flatMap fun k =>
    let v := (s.byteAt (0x0030 + k)).toNat
    (if v / 16 = 0 then [] else offsets (0x0200 + 16 * (v / 16 - 1)) 16)
      ++ (if v % 16 = 0 then [] else offsets (0x0200 + 240 + 16 * (v % 16 - 1)) 16)

/-- The window offsets of the bytes a command lists under "Reads" (R14, R51). -/
def listedReads (i : Instr) (s : State) : List Nat :=
  match i with
  | .nop => []
  | .gdbl _ ra => [0x0008 + ra.toNat]
  | .ghlv _ ra => [0x0008 + ra.toNat]
  | .gmul _ ra rb => [0x0008 + ra.toNat, 0x0008 + rb.toNat]
  | .ginv _ ra => [0x0008 + ra.toNat]
  | .sbox _ ra => [0x0008 + ra.toNat]
  | .isbox _ ra => [0x0008 + ra.toNat]
  | .subb => offsets 0x0010 16
  | .isubb => offsets 0x0010 16
  | .ark src =>
    offsets 0x0010 16
      ++ (if src = 15#4 then offsets 0x0020 16 else offsets (0x0100 + 16 * src.toNat) 16)
  | .shr => offsets 0x0010 16
  | .ishr => offsets 0x0010 16
  | .mixc => offsets 0x0010 16
  | .imixc => offsets 0x0010 16
  | .kexp => offsets 0x0020 16
  | .kadv _ => offsets 0x0020 16
  | .kreg _ => offsets 0x0020 16
  | .kdec => offsets 0x0020 16
  | .enc => offsets 0x0010 16 ++ offsets 0x0100 176
  | .dec => offsets 0x0010 16 ++ offsets 0x0100 176
  | .encf => offsets 0x0010 16 ++ offsets 0x0020 16
  | .decf => offsets 0x0010 16 ++ offsets 0x0020 16
  | .hdbl => offsets 0x0030 16
  | .hmulb => offsets 0x0030 16 ++ offsets 0x0040 16
  | .ht8b => offsets 0x0040 16
  | .hmul8 => offsets 0x0030 16 ++ hmul8TableReads s
  | .ht4b => offsets 0x0040 16
  | .hmul4 => offsets 0x0030 16 ++ hmul4TableReads s

/-- The window offsets of the bytes a command lists under "Writes" (R14, R51). -/
def listedWrites (i : Instr) : List Nat :=
  match i with
  | .nop => []
  | .gdbl rd _ => [0x0008 + rd.toNat]
  | .ghlv rd _ => [0x0008 + rd.toNat]
  | .gmul rd _ _ => [0x0008 + rd.toNat]
  | .ginv rd _ => [0x0008 + rd.toNat]
  | .sbox rd _ => [0x0008 + rd.toNat]
  | .isbox rd _ => [0x0008 + rd.toNat]
  | .subb => offsets 0x0010 16
  | .isubb => offsets 0x0010 16
  | .ark _ => offsets 0x0010 16
  | .shr => offsets 0x0010 16
  | .ishr => offsets 0x0010 16
  | .mixc => offsets 0x0010 16
  | .imixc => offsets 0x0010 16
  | .kexp => offsets 0x0100 176
  | .kadv _ => offsets 0x0020 16
  | .kreg _ => offsets 0x0020 16
  | .kdec => offsets 0x0020 16
  | .enc => offsets 0x0010 16
  | .dec => offsets 0x0010 16
  | .encf => offsets 0x0010 16 ++ offsets 0x0020 16
  | .decf => offsets 0x0010 16 ++ offsets 0x0020 16
  | .hdbl => offsets 0x0030 16
  | .hmulb => offsets 0x0030 16
  | .ht8b => offsets 0x1000 4080
  | .hmul8 => offsets 0x0030 16
  | .ht4b => offsets 0x0200 480
  | .hmul4 => offsets 0x0030 16

/-- A command the decoder can give in the state's build: well formed, and its option present (R74, R75). -/
def Executable (i : Instr) (s : State) : Prop :=
  i.wellFormed = true ∧ optionPresent s.cfg i.option = true

/-- Everything but the bytes at `stored` is as before: CMD, STATUS, CFG, the events to come, the port's
answer, and every other byte with its written mark; the stored bytes are written (R14, R35, R40). -/
structure KeptBut (s t : State) (stored : List Nat) : Prop where
  cmd      : t.cmd = s.cmd
  status   : t.status = s.status
  cfg      : t.cfg = s.cfg
  pending  : t.pending = s.pending
  response : t.response = s.response
  byte     : ∀ a, a ∉ stored → t.byteAt a = s.byteAt a
  written  : ∀ a, a ∉ stored → t.written a = s.written a
  stored   : ∀ a, a ∈ stored → t.written a = true

/-- The UNINIT_READ mark after bytes are read in order: a record is kept, else the first undefined byte is
recorded (R40, R247). -/
def markAfter (s : State) (reads : List Nat) : Option Fault :=
  match s.modelFault with
  | some f => some f
  | none => (reads.find? fun a => !(s.written a)).map Fault.uninitRead

/-- The command completes in `t`: it changes its listed writes only, and leaves the mark of its listed
reads (R14, R40). -/
structure Runs (i : Instr) (s t : State) : Prop where
  next : exec i s = .next t
  kept : KeptBut s t (listedWrites i)
  mark : t.modelFault = markAfter s (listedReads i s)

/-- `w` is the command word of `i`, and decodes to it in every build that has it (R71, R75, R76). -/
def WordOf (w : Nat) (i : Instr) : Prop :=
  encode i = BitVec.ofNat 32 w ∧
    ∀ b : Build, optionPresent b i.option = true → decode b (BitVec.ofNat 32 w) = .ok i

/-- Commands executed one after the other, CMD aside. -/
def runCommands : List Instr → State → Host.Outcome State Fault Refusal
  | [], s => .next s
  | i :: is, s =>
    match exec i s with
    | .next t => runCommands is t
    | .fault f => .fault f
    | .refused r => .refused r

/-- Every byte of `len` bytes from `base` has been written since reset. -/
def AllWritten (s : State) (base len : Nat) : Prop :=
  ∀ a, base ≤ a → a < base + len → s.written a = true

/-- A block of sixteen bytes given as numbers, byte 0 first (R10). -/
def block (bs : List Nat) : Block := blockOf (bs.map (BitVec.ofNat 8))

/-- A block whose first column is given and whose other columns are 0. -/
def firstColumn (b0 b1 b2 b3 : Nat) : Block := block [b0, b1, b2, b3, 0, 0, 0, 0, 0, 0, 0, 0, 0, 0, 0, 0]

/-- The element `elem(v)`: byte 0 is v, bytes 1 to 15 are 0 (45_gf128.md). -/
def elem (v : Nat) : Block := block [v]

/-- The entry of T8 that byte value `v` selects, read from the window; 0 for v = 0 (R29, R51, R205). -/
def selected8 (s : State) (v : Nat) : Block :=
  if v = 0 then zeroBlock
  else blockOf ((List.range 16).map fun j => s.byteAt (0x1000 + 16 * (v - 1) + j))

/-- The entry of T4's table `t` that nibble `n` selects, read from the window; 0 for n = 0 (R30, R51, R207). -/
def selected4 (s : State) (t n : Nat) : Block :=
  if n = 0 then zeroBlock
  else blockOf ((List.range 16).map fun j => s.byteAt (0x0200 + 240 * t + 16 * (n - 1) + j))

/-- The sum of elements: byte-wise XOR (R12, R13). -/
def xorAll (bs : List Block) : Block := bs.foldr xorBytes zeroBlock

/-- `t` is `s` but that bytes undefined in `s` may have been filled with any values: what the storage of a chip
held there (R40: "the hardware itself ... uses whatever the storage holds"). -/
structure Fills (s t : State) : Prop where
  cmd        : t.cmd = s.cmd
  status     : t.status = s.status
  cfg        : t.cfg = s.cfg
  modelFault : t.modelFault = s.modelFault
  pending    : t.pending = s.pending
  response   : t.response = s.response
  byte       : ∀ a, s.written a = true → t.written a = true ∧ t.byteAt a = s.byteAt a

/-- A byte as the polynomial of R11: the sum of b[i]·x^i over GF(2). -/
noncomputable def poly8 (b : Byte) : Polynomial (ZMod 2) :=
  ∑ i ∈ Finset.range 8, if b.getLsbD i = true then Polynomial.X ^ i else 0

/-- x^8 + x^4 + x^3 + x + 1, that is 0x11B (R11). -/
noncomputable def modulus8 : Polynomial (ZMod 2) :=
  Polynomial.X ^ 8 + Polynomial.X ^ 4 + Polynomial.X ^ 3 + Polynomial.X + 1

/-- A block as the polynomial of R12: a_i is bit 7 - (i mod 8) of byte i div 8. -/
noncomputable def poly128 (a : Block) : Polynomial (ZMod 2) :=
  ∑ i ∈ Finset.range 128,
    if (byteOf a (i / 8)).getLsbD (7 - i % 8) = true then Polynomial.X ^ i else 0

/-- x^128 + x^7 + x^2 + x + 1 (R12). -/
noncomputable def modulus128 : Polynomial (ZMod 2) :=
  Polynomial.X ^ 128 + Polynomial.X ^ 7 + Polynomial.X ^ 2 + Polynomial.X + 1

/-- The big-endian integer view `int128(A)` of R12: the sum of A[k]·2^(8·(15 - k)). -/
def int128 (a : Block) : Nat :=
  ∑ k ∈ Finset.range 16, (byteOf a k).toNat * 2 ^ (8 * (15 - k))

end Sys2Proof.Claims

open Sys2Proof Sys2Proof.Machine Sys2Proof.Claims

/-! ### Reset, the step, the port -/

/-- R271: after reset CMD and STATUS are 0, CFG reads the build parameters, and every data byte is undefined
(unwritten). The value an undefined byte holds is no part of this (log 1). -/
def Obligations.ResetLeavesRegistersAndUndefinedBytes : Prop :=
  ∀ b : Build,
    (State.resetOf b).cmd = 0x00000000#32 ∧
    (State.resetOf b).status.err = false ∧ (State.resetOf b).status.cause = 0x00#8 ∧
    (State.resetOf b).status.eop = 0x00#8 ∧ statusWord (State.resetOf b).status = 0x00000000#32 ∧
    (cfgWord (State.resetOf b).cfg).toNat = b.mulb.toNat + 2 * b.t4.toNat + 4 * b.t8.toNat ∧
    ∀ a, (State.resetOf b).written a = false

/-- The state after reset of every build meets the invariant. -/
def Obligations.ResetMeetsInvariant : Prop := ∀ b : Build, (State.resetOf b).Inv

/-- The invariant of the machine (storage canonical, only mapped data offsets hold a byte, STATUS legal:
R32, R51, R52, R241) is kept by every step from every state that meets it, reachable or not. -/
def Obligations.EveryStepKeepsInvariant : Prop :=
  ∀ s t : State, s.Inv → step s = .next t → t.Inv

/-- R31, R243: the next event is the CMD write of a word that decodes to `i`: the step is `exec i` on the state
with that event taken, CMD holding the word, and the port's answer "done". -/
def Obligations.StepRunsTheDecodedCommand : Prop :=
  ∀ (s : State) (rest : List HostEvent) (w : Word) (i : Instr),
    s.pending = .write 0x0000#13 4 w :: rest → decode s.cfg w = .ok i →
      step s = exec i { s with pending := rest, cmd := w, response := .done }

/-- R244, with R243 and R249: a CMD write of a word that fails to decode: CMD holds the word; ERR becomes 1; CAUSE
and EOP take the error's code and OP when ERR was 0 and keep the first error when it was 1; nothing else of the
block changes. The next CMD write is accepted at once: a legal command runs, ERR or not. -/
def Obligations.CommandErrorCapturesTheFirstErrorOnly : Prop :=
  ∀ (s : State) (rest : List HostEvent) (w : Word) (e : CommandError),
    s.pending = .write 0x0000#13 4 w :: rest → decode s.cfg w = .error e →
      ∃ t, step s = .next t ∧ t.cmd = w ∧ t.status.err = true ∧
        (s.status.err = false → t.status.cause = e.code ∧ t.status.eop = w.extractLsb' 0 8) ∧
        (s.status.err = true → t.status.cause = s.status.cause ∧ t.status.eop = s.status.eop) ∧
        t.cfg = s.cfg ∧ t.mem = s.mem ∧ t.modelFault = s.modelFault ∧ t.pending = rest ∧
        t.response = .done ∧
        ∀ (v : Word) (i : Instr) (rest' : List HostEvent),
          rest = .write 0x0000#13 4 v :: rest' → decode s.cfg v = .ok i →
            step t = exec i { t with pending := rest', cmd := v, response := .done }

/-- R245: an access that fails the checks of R57 changes no state of the block, STATUS included: only the event
is taken and the port answers the bus error. -/
def Obligations.BusErrorChangesNoStateOfTheBlock : Prop :=
  ∀ (s : State) (rest : List HostEvent) (off : Offset) (n : Nat) (v : Word) (e : BusError),
    checkAccess s.cfg off.toNat n = some e →
      (s.pending = .read off n :: rest ∨ s.pending = .write off n v :: rest) →
        step s = .next { s with pending := rest, response := .busError e off n }

/-- The offsets the map of R51 and R52 leaves unmapped in a build. -/
def Sys2Proof.Claims.Unmapped (b : Build) (a : Nat) : Prop :=
  (0x0050 ≤ a ∧ a ≤ 0x00FF) ∨ (0x01B0 ≤ a ∧ a ≤ 0x01FF) ∨ (0x03E0 ≤ a ∧ a ≤ 0x0FFF) ∨ 0x1FF0 ≤ a ∨
    (b.t4 = false ∧ 0x0200 ≤ a ∧ a ≤ 0x03DF) ∨ (b.t8 = false ∧ 0x1000 ≤ a ∧ a ≤ 0x1FEF)

/-- R57 with R51, R52 and R242: which check of an access fails first, for every offset of the window. -/
def Obligations.AccessChecksFollowTheMapInOrder : Prop :=
  ∀ (b : Build) (off : Offset) (n : Nat),
    let a := off.toNat
    let control := a ≤ 0x0007 ∨ (0x000C ≤ a ∧ a ≤ 0x000F)
    let word := n = 4 ∧ a % 4 = 0
    (checkAccess b a n = some .misaligned ↔ n = 4 ∧ a % 4 ≠ 0) ∧
    (checkAccess b a n = some .unmapped ↔ (n = 1 ∨ word) ∧ Unmapped b a) ∧
    (checkAccess b a n = some .width ↔ (n ≠ 1 ∧ n ≠ 4) ∨ (n = 1 ∧ control)) ∧
    (checkAccess b a n = none ↔ ((n = 1 ∧ ¬control) ∨ word) ∧ ¬Unmapped b a)

/-- R56 at the data regions: a host write that passes the checks stores the access's bytes, least significant
byte at the lowest offset, makes them written (R40), and changes nothing else. -/
def Obligations.HostWriteStoresItsBytesOnly : Prop :=
  ∀ (s : State) (rest : List HostEvent) (off : Offset) (n : Nat) (v : Word),
    s.pending = .write off n v :: rest → checkAccess s.cfg off.toNat n = none →
      dataOffset s.cfg off.toNat = true →
      ∃ t, step s = .next t ∧
        (∀ k, k < n → t.byteAt (off.toNat + k) = BitVec.ofNat 8 (v.toNat / 256 ^ k)) ∧
        (∀ a, off.toNat ≤ a → a < off.toNat + n → t.written a = true) ∧
        (∀ a, a < off.toNat ∨ off.toNat + n ≤ a →
          t.byteAt a = s.byteAt a ∧ t.written a = s.written a) ∧
        t.cmd = s.cmd ∧ t.status = s.status ∧ t.cfg = s.cfg ∧ t.modelFault = s.modelFault ∧
        t.pending = rest ∧ t.response = .done

/-- R55, R40, R59 at the data regions: a host read that passes the checks answers the byte, or the four bytes
with the lowest offset least significant; it changes nothing but the port's answer and the mark of R40. -/
def Obligations.HostReadReturnsTheBytes : Prop :=
  ∀ (s : State) (rest : List HostEvent) (off : Offset) (n : Nat),
    s.pending = .read off n :: rest → checkAccess s.cfg off.toNat n = none →
      dataOffset s.cfg off.toNat = true →
      ∃ t, step s = .next t ∧
        (n = 1 → t.response = .byte (s.byteAt off.toNat)) ∧
        (n = 4 → t.response = .word (BitVec.ofNat 32
          ((s.byteAt off.toNat).toNat + 256 * (s.byteAt (off.toNat + 1)).toNat
            + 65536 * (s.byteAt (off.toNat + 2)).toNat + 16777216 * (s.byteAt (off.toNat + 3)).toNat))) ∧
        t.modelFault = markAfter s (offsets off.toNat n) ∧
        t.cmd = s.cmd ∧ t.status = s.status ∧ t.cfg = s.cfg ∧ t.mem = s.mem ∧ t.pending = rest

/-- R31, R32, R34 as the host reads them: CMD, STATUS and CFG; nothing but the port's answer changes. -/
def Obligations.ControlRegistersReadBack : Prop :=
  ∀ (s : State) (rest : List HostEvent),
    (s.pending = .read 0x0000#13 4 :: rest →
      step s = .next { s with pending := rest, response := .word s.cmd }) ∧
    (s.pending = .read 0x0004#13 4 :: rest →
      step s = .next { s with
        pending := rest,
        response := .word (BitVec.ofNat 32
          (s.status.err.toNat + 256 * s.status.cause.toNat + 65536 * s.status.eop.toNat)) }) ∧
    (s.pending = .read 0x000C#13 4 :: rest →
      step s = .next { s with
        pending := rest,
        response := .word (BitVec.ofNat 32
          (s.cfg.mulb.toNat + 2 * s.cfg.t4.toNat + 4 * s.cfg.t8.toNat)) })

/-- R33: a host word write of v to STATUS clears ERR, CAUSE and EOP when v[0] = 1 and changes nothing when
v[0] = 0, whatever the other bits of v. -/
def Obligations.StatusWriteOneClears : Prop :=
  ∀ (s : State) (rest : List HostEvent) (v : Word),
    s.pending = .write 0x0004#13 4 v :: rest →
      (v.getLsbD 0 = true → step s = .next { s with
        pending := rest, response := .done, status := { err := false, cause := 0x00#8, eop := 0x00#8 } }) ∧
      (v.getLsbD 0 = false → step s = .next { s with pending := rest, response := .done })

/-- R34: a host write to CFG is ignored and raises no error. -/
def Obligations.CfgWriteIsIgnored : Prop :=
  ∀ (s : State) (rest : List HostEvent) (v : Word),
    s.pending = .write 0x000C#13 4 v :: rest →
      step s = .next { s with pending := rest, response := .done }

/-- R270, R271, R272 and logs 4 and 6 (the model's choices: the mark outlives a reset, the idle step changes
nothing): the reset input puts the block in the state after reset of the same build; with no event the block
does nothing. -/
def Obligations.ResetInputAndIdleStep : Prop :=
  ∀ (s : State) (rest : List HostEvent),
    (s.pending = .reset :: rest →
      ∃ t, step s = .next t ∧ t.cmd = 0x00000000#32 ∧ t.status = Status.reset ∧ t.cfg = s.cfg ∧
        (∀ a, t.written a = false) ∧ t.modelFault = s.modelFault ∧ t.pending = rest) ∧
    (s.pending = [] → step s = .next s)

/-- R50: the host reaches offset off at host address AESMIN_BASE + off, AESMIN_BASE 8 KiB aligned (R6), and no
other host address reaches it. -/
def Obligations.HostAddressesAreBasePlusOffset : Prop :=
  Config.aesminBase % 0x2000 = 0 ∧
  ∀ (off : Offset) (addr : Nat),
    Config.windowOffset addr = some off ↔ addr = Config.aesminBase + off.toNat

/-- R247: there is no refusal, no stuck state and no hang; every step, from every state, answers a next state. That
UNINIT_READ, which R247 calls a model fault, is a mark and ends no step is the model's reading (log 2), and so is
the idle step (log 6). -/
def Obligations.EveryStepAnswersANextState : Prop := ∀ s : State, ∃ t, step s = .next t

/-- R247, R286: UNINIT_READ is sticky, never cleared by a later step. -/
def Obligations.UninitReadMarkIsSticky : Prop :=
  ∀ (s t : State) (f : Fault), s.modelFault = some f → step s = .next t → t.modelFault = some f

/-- R31, R34, R271: CFG is constant; CMD holds the word of a CMD write after it, 0 after a reset, and is unchanged
by every other step. -/
def Obligations.CfgIsConstantAndCmdHoldsTheLastWord : Prop :=
  ∀ s t : State, step s = .next t →
    t.cfg = s.cfg ∧
    (∀ w rest, s.pending = .write 0x0000#13 4 w :: rest → t.cmd = w) ∧
    (∀ rest, s.pending = .reset :: rest → t.cmd = 0x00000000#32) ∧
    ((¬∃ w rest, s.pending = .write 0x0000#13 4 w :: rest) → (¬∃ rest, s.pending = .reset :: rest) →
      t.cmd = s.cmd)

/-! ### Encoding -/

/-- R71 to R76: decoding the word of a well-formed command of a build that has it gives the command back,
every operand at every value. -/
def Obligations.DecodeOfEncodeIsTheCommand : Prop :=
  ∀ (b : Build) (i : Instr), i.wellFormed = true → optionPresent b i.option = true →
    decode b (encode i) = .ok i

/-- R70, R76, R77: a word that decodes is the word of the command it decodes to; no bit of it is ignored. -/
def Obligations.EncodeOfDecodeIsTheWord : Prop :=
  ∀ (b : Build) (w : Word) (i : Instr), decode b w = .ok i →
    encode i = w ∧ i.wellFormed = true ∧ optionPresent b i.option = true

/-- The OP values of the opcode map (R75). -/
def Sys2Proof.Claims.mapOps : List Nat :=
  [0x00, 0x10, 0x11, 0x12, 0x13, 0x20, 0x21, 0x22, 0x23, 0x30, 0x31, 0x32, 0x33, 0x34, 0x40, 0x41, 0x42, 0x43,
   0x50, 0x51, 0x52, 0x53, 0x60, 0x61, 0x62, 0x63, 0x64, 0x65]

/-- The command of an OP is absent from a build (R75). -/
def Sys2Proof.Claims.AbsentOp (b : Build) (op : Nat) : Prop :=
  (op = 0x61 ∧ b.mulb = false) ∨ ((op = 0x62 ∨ op = 0x63) ∧ b.t8 = false) ∨
    ((op = 0x64 ∨ op = 0x65) ∧ b.t4 = false)

/-- A word whose OP is in the map has a reserved bit set, or a reserved SRC (R71, R74, R77). -/
def Sys2Proof.Claims.ReservedSet (w : Nat) : Prop :=
  if w % 256 ∈ [0x10, 0x11, 0x13, 0x20, 0x21] then w / 4096 ≠ 0
  else if w % 256 = 0x12 then w / 16384 ≠ 0
  else if w % 256 = 0x41 ∨ w % 256 = 0x42 then w / 65536 ≠ 0
  else if w % 256 = 0x30 then w / 4096 ≠ 0 ∨ (11 ≤ w / 256 ∧ w / 256 ≤ 14)
  else w / 256 ≠ 0

/-- R77, R78, R241: which words fail to decode, by which error, in the priority ILLEGAL_OPCODE, ABSENT_VARIANT,
RESERVED_FIELD; and the codes of the errors. -/
def Obligations.DecodeErrorsInPriorityOrder : Prop :=
  CommandError.illegalOpcode.code = 0x01#8 ∧ CommandError.reservedField.code = 0x02#8 ∧
  CommandError.absentVariant.code = 0x03#8 ∧
  ∀ (b : Build) (w : Word),
    let op := w.toNat % 256
    (decode b w = .error .illegalOpcode ↔ op ∉ mapOps) ∧
    (decode b w = .error .absentVariant ↔ AbsentOp b op) ∧
    (decode b w = .error .reservedField ↔ op ∈ mapOps ∧ ¬AbsentOp b op ∧ ReservedSet w.toNat)

/-- R81: the manual's own examples of command words, and one word of each other family, decode to the
commands they stand for. -/
def Obligations.ManualWordsDecode : Prop :=
  WordOf 0x00001212 (.gmul 2#2 0#2 1#2) ∧ WordOf 0x00000113 (.ginv 1#2 0#2) ∧
  WordOf 0x00000F21 (.isbox 3#2 3#2) ∧ WordOf 0x00003641 (.kadv 0x36#8) ∧
  WordOf 0x00000A30 (.ark 10#4) ∧ WordOf 0x00000F30 (.ark 15#4) ∧
  WordOf 0x00000000 .nop ∧ WordOf 0x00000050 .enc ∧ WordOf 0x00000065 .hmul4

/-! ### Whole-machine rules over all commands -/

/-- R14, R31, R35, R243: a command that the decoder can give completes; it writes nothing outside its listed
writes, not CMD, not STATUS, not CFG. -/
def Obligations.CommandsWriteOnlyTheirListedWrites : Prop :=
  ∀ (i : Instr) (s : State), Executable i s →
    ∃ t, exec i s = .next t ∧ KeptBut s t (listedWrites i)

/-- R40, R247: a command records UNINIT_READ exactly when its listed reads include an undefined byte, and
records the first such byte; a recorded mark is kept. -/
def Obligations.CommandsMarkTheirUndefinedReads : Prop :=
  ∀ (i : Instr) (s : State), Executable i s →
    ∃ t, exec i s = .next t ∧ t.modelFault = markAfter s (listedReads i s) ∧
      (t.modelFault = none ↔ s.modelFault = none ∧ ∀ a ∈ listedReads i s, s.written a = true)

/-- R14, R36: a command depends on its listed reads alone: from two states of one build that agree on them,
it stores the same bytes (for HMUL8 and HMUL4 this is that GH is not read, R212, R214; for ENC that KEY is
not, R185). -/
def Obligations.CommandsDependOnTheirListedReadsOnly : Prop :=
  ∀ (i : Instr) (s1 s2 t1 t2 : State), s1.cfg = s2.cfg →
    (∀ a ∈ listedReads i s1, s1.byteAt a = s2.byteAt a) →
    exec i s1 = .next t1 → exec i s2 = .next t2 → Executable i s1 →
      listedReads i s2 = listedReads i s1 ∧
      ∀ a ∈ listedWrites i, t1.byteAt a = t2.byteAt a

/-- R241, R243: a command outside the decoder's reach (ARK with a reserved SRC, a command whose option the build
lacks) takes the command error of R241 in its meaning too; nothing else changes (log 11). -/
def Obligations.UnreachableCommandsTakeTheirError : Prop :=
  ∀ (i : Instr) (s : State), ¬Executable i s →
    exec i s = .next { s with
      status := captureError (if i.wellFormed = true then 0x03#8 else 0x02#8) i.op s.status }

/-! ### Commands -/

/-- R230: the word 0x00000000 is NOP in every build; writing it to CMD leaves CMD holding it and changes nothing
else, STATUS included, the mark included (it reads nothing); a word with OP 0x00 and any other bit set is
RESERVED_FIELD. -/
def Obligations.NopChangesNothing : Prop :=
  WordOf 0x00000000 .nop ∧ (∀ s : State, exec .nop s = .next s) ∧
  (∀ (s : State) (rest : List HostEvent), s.pending = .write 0x0000#13 4 0x00000000#32 :: rest →
    step s = .next { s with pending := rest, cmd := 0x00000000#32, response := .done }) ∧
  ∀ (b : Build) (w : Word), w.toNat % 256 = 0 → w ≠ 0x00000000#32 → decode b w = .error .reservedField

/-- R105 to R108: the scalar field commands write G[RD] with the function of their sources, all sources read
first, in place or not, and change nothing else. -/
def Obligations.ScalarFieldCommandsComputeTheirFunction : Prop :=
  ∀ (rd ra rb : GReg) (s : State),
    (WordOf (0x10 + 256 * rd.toNat + 1024 * ra.toNat) (.gdbl rd ra) ∧
      ∃ t, Runs (.gdbl rd ra) s t ∧ t.g rd = gfDouble (s.g ra)) ∧
    (WordOf (0x11 + 256 * rd.toNat + 1024 * ra.toNat) (.ghlv rd ra) ∧
      ∃ t, Runs (.ghlv rd ra) s t ∧ t.g rd = gfHalve (s.g ra)) ∧
    (WordOf (0x12 + 256 * rd.toNat + 1024 * ra.toNat + 4096 * rb.toNat) (.gmul rd ra rb) ∧
      ∃ t, Runs (.gmul rd ra rb) s t ∧ t.g rd = gfMul (s.g ra) (s.g rb)) ∧
    (WordOf (0x13 + 256 * rd.toNat + 1024 * ra.toNat) (.ginv rd ra) ∧
      ∃ t, Runs (.ginv rd ra) s t ∧ t.g rd = gfInv (s.g ra))

/-- The corner cases and examples of R105 to R108; those of R107 for every byte. (In place, RD = RA or RB, is
ScalarFieldCommandsComputeTheirFunction.) -/
def Obligations.ScalarFieldCornerCases : Prop :=
  gfDouble 0x80#8 = 0x1B#8 ∧ gfDouble 0x00#8 = 0x00#8 ∧ gfDouble 0xFF#8 = 0xE5#8 ∧
  gfDouble 0x57#8 = 0xAE#8 ∧ gfHalve 0x01#8 = 0x8D#8 ∧ gfHalve 0x1B#8 = 0x80#8 ∧
  gfHalve 0x36#8 = 0x1B#8 ∧ gfHalve 0x00#8 = 0x00#8 ∧ gfMul 0x57#8 0x83#8 = 0xC1#8 ∧
  (∀ a : Byte, gfMul a 0x00#8 = 0x00#8 ∧ gfMul 0x00#8 a = 0x00#8 ∧ gfMul a 0x01#8 = a ∧ gfMul 0x01#8 a = a) ∧
  gfInv 0x00#8 = 0x00#8 ∧ gfInv 0x01#8 = 0x01#8 ∧ gfInv 0x02#8 = 0x8D#8 ∧ gfInv 0xFF#8 = 0x1C#8 ∧
  gfInv 0x53#8 = 0xCA#8

/-- R125, R126: the scalar S-box commands. -/
def Obligations.ScalarSboxCommandsSubstitute : Prop :=
  ∀ (rd ra : GReg) (s : State),
    (WordOf (0x20 + 256 * rd.toNat + 1024 * ra.toNat) (.sbox rd ra) ∧
      ∃ t, Runs (.sbox rd ra) s t ∧ t.g rd = sbox (s.g ra)) ∧
    (WordOf (0x21 + 256 * rd.toNat + 1024 * ra.toNat) (.isbox rd ra) ∧
      ∃ t, Runs (.isbox rd ra) s t ∧ t.g rd = sboxInverse (s.g ra))

/-- R127, R128: SubBytes and its inverse, byte by byte on BLK. -/
def Obligations.BlockSubstitutionIsPerByte : Prop :=
  WordOf 0x00000022 .subb ∧ WordOf 0x00000023 .isubb ∧
  ∀ s : State,
    (∃ t, Runs .subb s t ∧ ∀ i, i < 16 → byteOf t.blk i = sbox (byteOf s.blk i)) ∧
    (∃ t, Runs .isubb s t ∧ ∀ i, i < 16 → byteOf t.blk i = sboxInverse (byteOf s.blk i))

/-- R145 with R74: ARK XORs the round key SRC selects; a reserved SRC fails with RESERVED_FIELD. -/
def Obligations.ArkXorsTheSelectedRoundKey : Prop :=
  (∀ src : BitVec 4, src.toNat ≤ 10 ∨ src = 15#4 → WordOf (0x30 + 256 * src.toNat) (.ark src)) ∧
  (∀ (b : Build) (src : BitVec 4), 11 ≤ src.toNat → src.toNat ≤ 14 →
    decode b (BitVec.ofNat 32 (0x30 + 256 * src.toNat)) = .error .reservedField) ∧
  (∀ (src : BitVec 4) (s : State), src.toNat ≤ 10 →
    ∃ t, Runs (.ark src) s t ∧
      ∀ i, i < 16 → byteOf t.blk i = byteOf s.blk i ^^^ byteOf s.sch (16 * src.toNat + i)) ∧
  ∀ s : State, ∃ t, Runs (.ark 15#4) s t ∧
    ∀ i, i < 16 → byteOf t.blk i = byteOf s.blk i ^^^ byteOf s.key i

/-- R146, R147 with R141, R142: row r of BLK is shifted left, or right, by r positions. -/
def Obligations.ShiftRowsMoveRowsByTheirNumber : Prop :=
  WordOf 0x00000031 .shr ∧ WordOf 0x00000032 .ishr ∧
  ∀ s : State,
    (∃ t, Runs .shr s t ∧ ∀ c r, c < 4 → r < 4 →
      byteOf t.blk (4 * c + r) = byteOf s.blk (4 * ((c + r) % 4) + r)) ∧
    (∃ t, Runs .ishr s t ∧ ∀ c r, c < 4 → r < 4 →
      byteOf t.blk (4 * c + r) = byteOf s.blk (4 * ((c + 4 - r) % 4) + r))

/-- The matrix product over GF(2^8) of a row of coefficients with column c of a block. -/
def Sys2Proof.Claims.rowTimesColumn (m : List Nat) (b : Block) (c : Nat) : Byte :=
  gfMul (BitVec.ofNat 8 (m.getD 0 0)) (byteOf b (4 * c)) ^^^
  gfMul (BitVec.ofNat 8 (m.getD 1 0)) (byteOf b (4 * c + 1)) ^^^
  gfMul (BitVec.ofNat 8 (m.getD 2 0)) (byteOf b (4 * c + 2)) ^^^
  gfMul (BitVec.ofNat 8 (m.getD 3 0)) (byteOf b (4 * c + 3))

/-- R148, R149 with the matrices of R143, R144: MIXC and IMIXC multiply every column by the fixed matrix, over
the field product of R102. -/
def Obligations.MixColumnsAreTheMatrixProducts : Prop :=
  WordOf 0x00000033 .mixc ∧ WordOf 0x00000034 .imixc ∧
  ∀ s : State,
    (∃ t, Runs .mixc s t ∧ ∀ c, c < 4 →
      byteOf t.blk (4 * c) = rowTimesColumn [2, 3, 1, 1] s.blk c ∧
      byteOf t.blk (4 * c + 1) = rowTimesColumn [1, 2, 3, 1] s.blk c ∧
      byteOf t.blk (4 * c + 2) = rowTimesColumn [1, 1, 2, 3] s.blk c ∧
      byteOf t.blk (4 * c + 3) = rowTimesColumn [3, 1, 1, 2] s.blk c) ∧
    (∃ t, Runs .imixc s t ∧ ∀ c, c < 4 →
      byteOf t.blk (4 * c) = rowTimesColumn [14, 11, 13, 9] s.blk c ∧
      byteOf t.blk (4 * c + 1) = rowTimesColumn [9, 14, 11, 13] s.blk c ∧
      byteOf t.blk (4 * c + 2) = rowTimesColumn [13, 9, 14, 11] s.blk c ∧
      byteOf t.blk (4 * c + 3) = rowTimesColumn [11, 13, 9, 14] s.blk c)

/-- R167 with R162: KEXP writes the schedule of KEY, word by word, and leaves KEY. -/
def Obligations.KexpWritesTheScheduleOfKey : Prop :=
  WordOf 0x00000040 .kexp ∧
  ∀ s : State, ∃ t, Runs .kexp s t ∧ t.sch = expand s.key ∧
    (∀ j, j < 16 → byteOf t.sch j = byteOf s.key j) ∧
    ∀ i j, 4 ≤ i → i < 44 → j < 4 →
      byteOf t.sch (4 * i + j) = byteOf t.sch (4 * (i - 4) + j) ^^^
        (if i % 4 = 0 then
          sbox (byteOf t.sch (4 * (i - 1) + (j + 1) % 4)) ^^^ (if j = 0 then rcon (i / 4) else 0#8)
        else byteOf t.sch (4 * (i - 1) + j))

/-- R168, R169 with R163, R164: KADV and KREG, byte by byte, for every round constant. -/
def Obligations.KeyRoundStepsByTheirRules : Prop :=
  ∀ (rc : Byte) (s : State),
    (WordOf (0x41 + 256 * rc.toNat) (.kadv rc) ∧
      ∃ t, Runs (.kadv rc) s t ∧
        (∀ j, j < 4 → byteOf t.key j = byteOf s.key j ^^^
          (sbox (byteOf s.key (12 + (j + 1) % 4)) ^^^ (if j = 0 then rc else 0#8))) ∧
        (∀ i, 4 ≤ i → i < 16 → byteOf t.key i = byteOf s.key i ^^^ byteOf t.key (i - 4))) ∧
    (WordOf (0x42 + 256 * rc.toNat) (.kreg rc) ∧
      ∃ t, Runs (.kreg rc) s t ∧
        (∀ i, 4 ≤ i → i < 16 → byteOf t.key i = byteOf s.key i ^^^ byteOf s.key (i - 4)) ∧
        (∀ j, j < 4 → byteOf t.key j = byteOf s.key j ^^^
          (sbox (byteOf t.key (12 + (j + 1) % 4)) ^^^ (if j = 0 then rc else 0#8))))

/-- R160: the ten round constants, forward by doubling and backward by halving. -/
def Obligations.RconIsWalkedByDoubleAndHalve : Prop :=
  ((List.range 10).map fun k => (rcon (k + 1)).toNat) = [1, 2, 4, 8, 16, 32, 64, 128, 27, 54] ∧
  rcon 1 = 0x01#8 ∧
  (∀ r, 1 ≤ r → r < 10 → rcon (r + 1) = gfDouble (rcon r)) ∧
  ∀ r, 2 ≤ r → r ≤ 10 → rcon (r - 1) = gfHalve (rcon r)

/-- R170 with R165: KDEC leaves in KEY the start key, round key 10 of the schedule KEXP makes of the same KEY,
and does exactly what ten KADV with the round constants in order do. -/
def Obligations.KdecLeavesRoundKeyTen : Prop :=
  WordOf 0x00000043 .kdec ∧
  ∀ s : State,
    (∃ t, Runs .kdec s t ∧ t.key = deriveDecryptStartKey s.key ∧ t.key = roundKeyOf (expand s.key) 10) ∧
    exec .kdec s = runCommands ((List.range 10).map fun k => .kadv (rcon (k + 1))) s

/-- R185, R186: ENC and DEC transform BLK by SCH as it stands. -/
def Obligations.EncAndDecTransformBlkBySch : Prop :=
  WordOf 0x00000050 .enc ∧ WordOf 0x00000051 .dec ∧
  ∀ s : State,
    (∃ t, Runs .enc s t ∧ t.blk = encrypt s.blk s.sch) ∧
    (∃ t, Runs .dec s t ∧ t.blk = decrypt s.blk s.sch)

/-- R187, R188: ENCF and DECF transform BLK and leave the walked key in KEY. -/
def Obligations.EncfAndDecfTransformBlkAndKey : Prop :=
  WordOf 0x00000052 .encf ∧ WordOf 0x00000053 .decf ∧
  ∀ s : State,
    (∃ t, Runs .encf s t ∧ t.blk = (encryptOnTheFly s.blk s.key).blk ∧
      t.key = (encryptOnTheFly s.blk s.key).walk.key) ∧
    (∃ t, Runs .decf s t ∧ t.blk = (decryptOnTheFly s.blk s.key).blk ∧
      t.key = (decryptOnTheFly s.blk s.key).walk.key)

/-- R209: HDBL multiplies GX by x, with its corner cases. -/
def Obligations.HdblMultipliesGxByX : Prop :=
  WordOf 0x00000060 .hdbl ∧ (∀ s : State, ∃ t, Runs .hdbl s t ∧ t.gx = gf128Double s.gx) ∧
  gf128Double (block [0, 0, 0, 0, 0, 0, 0, 0, 0, 0, 0, 0, 0, 0, 0, 1]) = elem 0xE1 ∧
  gf128Double zeroBlock = zeroBlock ∧
  gf128Double (block [255, 255, 255, 255, 255, 255, 255, 255, 255, 255, 255, 255, 255, 255, 255, 255])
    = block [0x9E, 255, 255, 255, 255, 255, 255, 255, 255, 255, 255, 255, 255, 255, 255, 255] ∧
  gf128Double (elem 0x01) = block [0x00, 0x80] ∧ gf128Double (elem 0x80) = elem 0x40

/-- R210: HMULB multiplies GX by GH where CFG_MULB = 1, and is ABSENT_VARIANT where it is 0. -/
def Obligations.HmulbMultipliesGxByGh : Prop :=
  WordOf 0x00000061 .hmulb ∧
  (∀ s : State, s.cfg.mulb = true → ∃ t, Runs .hmulb s t ∧ t.gx = multiplyBitByBit s.gx s.gh) ∧
  (∀ b : Build, b.mulb = false → decode b 0x00000061#32 = .error .absentVariant) ∧
  ∀ a : Block, multiplyBitByBit a (elem 0x80) = a ∧ multiplyBitByBit a zeroBlock = zeroBlock ∧
    multiplyBitByBit zeroBlock a = zeroBlock

/-- R211, R213: HT8B and HT4B write every entry of their table from GH, where the build has it; entry v - 1 of T8
is elem(v) ⊗ GH, entry n - 1 of T4's tables elem(16n) ⊗ GH and elem(n) ⊗ GH (R204, R206). -/
def Obligations.TableBuildsHoldTheProducts : Prop :=
  WordOf 0x00000062 .ht8b ∧ WordOf 0x00000064 .ht4b ∧
  (∀ b : Build, b.t8 = false → decode b 0x00000062#32 = .error .absentVariant) ∧
  (∀ b : Build, b.t4 = false → decode b 0x00000064#32 = .error .absentVariant) ∧
  ∀ s : State,
    (s.cfg.t8 = true → ∃ t, Runs .ht8b s t ∧ t.t8 = buildTable8 s.gh ∧
      (∀ v, 1 ≤ v → v < 256 → entryOf t.t8 (v - 1) = multiplyBitByBit (elem v) s.gh) ∧
      entryOf t.t8 127 = s.gh) ∧
    (s.cfg.t4 = true → ∃ t, Runs .ht4b s t ∧ t.t4 = buildTable4 s.gh ∧
      (∀ n, 1 ≤ n → n < 16 →
        entry4Of t.t4 0 (n - 1) = multiplyBitByBit (elem (16 * n)) s.gh ∧
        entry4Of t.t4 1 (n - 1) = multiplyBitByBit (elem n) s.gh) ∧
      entry4Of t.t4 0 7 = s.gh)

/-- R212, R214: HMUL8 and HMUL4 multiply GX by the table as it stands, built or written by the host (R278), where
the build has it. The result is said on its own: the sum, over the bytes k of GX, of the selected entries doubled
8k times; with the corner cases. Which of several undefined bytes the mark of `Runs` names follows the order of
table entries that log 3 chose (DESIGN CHOICE, the model's). -/
def Obligations.TableMultipliesUseTheTableAsItStands : Prop :=
  WordOf 0x00000063 .hmul8 ∧ WordOf 0x00000065 .hmul4 ∧
  (∀ b : Build, b.t8 = false → decode b 0x00000063#32 = .error .absentVariant) ∧
  (∀ b : Build, b.t4 = false → decode b 0x00000065#32 = .error .absentVariant) ∧
  (∀ s : State,
    (s.cfg.t8 = true → ∃ t, Runs .hmul8 s t ∧ t.gx = multiplyTable8 s.gx s.t8 ∧
      t.gx = xorAll ((List.range 16).map fun k =>
        gf128Double^[8 * k] (selected8 s (s.byteAt (0x0030 + k)).toNat))) ∧
    (s.cfg.t4 = true → ∃ t, Runs .hmul4 s t ∧ t.gx = multiplyTable4 s.gx s.t4 ∧
      t.gx = xorAll ((List.range 16).map fun k =>
        gf128Double^[8 * k] (xorBytes (selected4 s 0 ((s.byteAt (0x0030 + k)).toNat / 16))
          (selected4 s 1 ((s.byteAt (0x0030 + k)).toNat % 16)))))) ∧
  (∀ t : Table8, multiplyTable8 zeroBlock t = zeroBlock ∧ multiplyTable8 (elem 0x80) t = entryOf t 127 ∧
    ∀ v, 1 ≤ v → v < 256 →
      multiplyTable8 (block [0, 0, 0, 0, 0, 0, 0, 0, 0, 0, 0, 0, 0, 0, 0, v]) t
        = gf128Double^[120] (entryOf t (v - 1))) ∧
  ∀ t : Table4, multiplyTable4 zeroBlock t = zeroBlock ∧ multiplyTable4 (elem 0x80) t = entry4Of t 0 7 ∧
    multiplyTable4 (elem 0x08) t = entry4Of t 1 7

/-! ### Laws of the functions, and what they mean for the machine -/

/-- R104: the field laws of GF(2^8). -/
def Obligations.ByteFieldLaws : Prop :=
  (∀ a b : Byte, gfMul a b = gfMul b a) ∧
  (∀ a : Byte, gfMul a 0x00#8 = 0x00#8 ∧ gfMul a 0x01#8 = a ∧ gfMul a 0x02#8 = gfDouble a) ∧
  (∀ a : Byte, a ≠ 0x00#8 → gfMul a (gfInv a) = 0x01#8) ∧ gfInv 0x00#8 = 0x00#8 ∧
  (∀ a : Byte, gfInv (gfInv a) = a) ∧
  gfDouble 0x80#8 = 0x1B#8 ∧ gfHalve 0x01#8 = 0x8D#8 ∧ gfDouble 0x00#8 = 0x00#8 ∧
  gfHalve 0x00#8 = 0x00#8 ∧ ∀ a : Byte, a ^^^ a = 0x00#8

/-- R100 to R103 with R11: gf_mul is the product of polynomials over GF(2) modulo 0x11B, gf_double is the
product by x, and gf_halve its inverse. -/
def Obligations.ByteProductIsThePolynomialProduct : Prop :=
  (∀ a b : Byte, modulus8 ∣ poly8 (gfMul a b) - poly8 a * poly8 b) ∧
  (∀ a : Byte, modulus8 ∣ poly8 (gfDouble a) - Polynomial.X * poly8 a) ∧
  ∀ a : Byte, gfHalve (gfDouble a) = a ∧ gfDouble (gfHalve a) = a

/-- R120, R121, bit by bit over gf_inv: bit i of sbox(a) is the sum of bits i, i+4, i+5, i+6 and i+7 (mod 8) of
gf_inv(a) and bit i of 0x63; sbox_inverse(a) is gf_inv of the byte whose bit i is the sum of bits i+2, i+5 and
i+7 of a and bit i of 0x05. R124: the two undo each other, the S-box has no fixed point and no complement point,
and sbox(0x00) = 0x63. -/
def Obligations.SboxIsABijectionWithoutFixedPoints : Prop :=
  ∀ a : Byte,
    (∀ i, i < 8 → (sbox a).getLsbD i =
      ((gfInv a).getLsbD i ^^ (gfInv a).getLsbD ((i + 4) % 8) ^^ (gfInv a).getLsbD ((i + 5) % 8) ^^
        (gfInv a).getLsbD ((i + 6) % 8) ^^ (gfInv a).getLsbD ((i + 7) % 8) ^^ (0x63#8).getLsbD i)) ∧
    (∃ b : Byte, sboxInverse a = gfInv b ∧ ∀ i, i < 8 → b.getLsbD i =
      (a.getLsbD ((i + 2) % 8) ^^ a.getLsbD ((i + 5) % 8) ^^ a.getLsbD ((i + 7) % 8) ^^
        (0x05#8).getLsbD i)) ∧
    sboxInverse (sbox a) = a ∧ sbox (sboxInverse a) = a ∧ sbox a ≠ a ∧ sbox a ≠ a ^^^ 0xFF#8 ∧
    sbox 0x00#8 = 0x63#8

/-- R142, R144, R140: the inverse block transforms undo the transforms, in both orders, and the round-key XOR
is its own inverse. -/
def Obligations.BlockTransformsAreInverted : Prop :=
  ∀ b k : Block,
    shiftRowsInverse (shiftRows b) = b ∧ shiftRows (shiftRowsInverse b) = b ∧
    mixColumnsInverse (mixColumns b) = b ∧ mixColumns (mixColumnsInverse b) = b ∧
    subBytesInverse (subBytes b) = b ∧ subBytes (subBytesInverse b) = b ∧
    xorRoundKey (xorRoundKey b k) k = b ∧
    shiftRows (shiftRows (shiftRows (shiftRows b))) = b

/-- R166: the schedule laws. Advance and regress undo each other for every round constant, so advance is a
bijection; every value is the round-10 key of exactly one cipher key; and regressing by RCON[10] down to
RCON[1] from the start key of K returns K. -/
def Obligations.KeyScheduleLaws : Prop :=
  (∀ (k : Block) (rc : Byte), regressRound (advanceRound k rc) rc = k ∧ advanceRound (regressRound k rc) rc = k) ∧
  (∀ rc : Byte, Function.Bijective fun k : Block => advanceRound k rc) ∧
  (∀ v : Block, ∃! k : Block, deriveDecryptStartKey k = v) ∧
  ∀ k : Block, forDown 1 10 (fun r x => regressRound x (rcon r)) (deriveDecryptStartKey k) = k

/-- R162, R163, R165: round key r + 1 of a schedule is the advance of round key r by RCON[r + 1], round key 0 is
the key, and round key 10 is the start key. -/
def Obligations.RoundKeysAreAdvancesOfEachOther : Prop :=
  ∀ k : Block,
    roundKeyOf (expand k) 0 = k ∧
    (∀ r, r < 10 → roundKeyOf (expand k) (r + 1) = advanceRound (roundKeyOf (expand k) r) (rcon (r + 1))) ∧
    roundKeyOf (expand k) 10 = deriveDecryptStartKey k

/-- R184: the cipher laws, for every key, block and, where no schedule of a key is asked, every 176 bytes. -/
def Obligations.CipherLaws : Prop :=
  (∀ (p : Block) (sch : Schedule), decrypt (encrypt p sch) sch = p) ∧
  (∀ p k : Block,
    (encryptOnTheFly p k).blk = encrypt p (expand k) ∧
    (encryptOnTheFly p k).walk.key = roundKeyOf (expand k) 10 ∧
    roundKeyOf (expand k) 10 = deriveDecryptStartKey k) ∧
  ∀ c k : Block,
    (decryptOnTheFly c (roundKeyOf (expand k) 10)).blk = decrypt c (expand k) ∧
    (decryptOnTheFly c (roundKeyOf (expand k) 10)).walk.key = k

/-- Round `k + 1` (1..9) of R180 as commands. -/
def Sys2Proof.Claims.encRound (k : Nat) : List Instr := [.subb, .shr, .mixc, .ark (BitVec.ofNat 4 (k + 1))]

/-- R180 as commands: round key 0; rounds 1 to 9; the last round without MixColumns. -/
def Sys2Proof.Claims.encSequence : List Instr :=
  .ark 0#4 :: List.append (List.flatMap encRound (List.range 9)) [.subb, .shr, .ark 10#4]

/-- Round `9 - k` (9 down to 1) of R181 as commands. -/
def Sys2Proof.Claims.decRound (k : Nat) : List Instr := [.ishr, .isubb, .ark (BitVec.ofNat 4 (9 - k)), .imixc]

/-- R181 as commands: round key 10; rounds 9 down to 1; the last round without MixColumns. -/
def Sys2Proof.Claims.decSequence : List Instr :=
  .ark 10#4 :: List.append (List.flatMap decRound (List.range 9)) [.ishr, .isubb, .ark 0#4]

/-- Round `k + 1` (1..9) of R182 as commands. -/
def Sys2Proof.Claims.encfRound (k : Nat) : List Instr :=
  [.kadv (rcon (k + 1)), .subb, .shr, .mixc, .ark 15#4]

/-- R182 as commands. -/
def Sys2Proof.Claims.encfSequence : List Instr :=
  .ark 15#4 :: List.append (List.flatMap encfRound (List.range 9)) [.kadv 0x36#8, .subb, .shr, .ark 15#4]

/-- Round `9 - k` (9 down to 1) of R183 as commands: the key is regressed by RCON[10 - k]. -/
def Sys2Proof.Claims.decfRound (k : Nat) : List Instr :=
  [.ishr, .isubb, .kreg (rcon (10 - k)), .ark 15#4, .imixc]

/-- R183 as commands. -/
def Sys2Proof.Claims.decfSequence : List Instr :=
  .ark 15#4 :: List.append (List.flatMap decfRound (List.range 9)) [.ishr, .isubb, .kreg 0x01#8, .ark 15#4]

/-- R180 on the machine: ENC does exactly what the round commands of R180 do one after the other, in every
state. (Where bytes are undefined, the marks agree because both list them in the order of log 3.) -/
def Obligations.EncIsTheRoundCommandSequence : Prop :=
  ∀ s : State, exec .enc s = runCommands encSequence s

/-- R181 on the machine: DEC does exactly what the round commands of R181 do one after the other, in every
state whose BLK and SCH are written. (Where a byte of SCH is undefined, DEC records the first in SCH's order and
the sequence the first in round 10: the marks differ, R40, log 3.) -/
def Obligations.DecIsTheRoundCommandSequence : Prop :=
  ∀ s : State, AllWritten s 0x0010 16 → AllWritten s 0x0100 176 → exec .dec s = runCommands decSequence s

/-- R182 and R183 on the machine: ENCF and DECF do exactly what the round commands with KADV and KREG do one
after the other, in every state. (Where bytes are undefined, the marks agree because both list them in the order
of log 3.) -/
def Obligations.OnTheFlyCommandsAreTheRoundCommandSequences : Prop :=
  ∀ s : State, exec .encf s = runCommands encfSequence s ∧ exec .decf s = runCommands decfSequence s

/-- R186, R187, R188, R276 on the machine: DEC after ENC restores BLK, for any SCH; DECF after ENCF, and ENCF after
DECF, restore BLK and KEY; ENCF gives the BLK of KEXP then ENC. -/
def Obligations.DecryptionUndoesEncryption : Prop :=
  ∀ s : State,
    (∃ t, runCommands [.enc, .dec] s = .next t ∧ t.blk = s.blk ∧ t.sch = s.sch) ∧
    (∃ t, runCommands [.encf, .decf] s = .next t ∧ t.blk = s.blk ∧ t.key = s.key) ∧
    (∃ t, runCommands [.decf, .encf] s = .next t ∧ t.blk = s.blk ∧ t.key = s.key) ∧
    ∃ t u, exec .encf s = .next t ∧ runCommands [.kexp, .enc] s = .next u ∧ t.blk = u.blk ∧
      t.key = roundKeyOf u.sch 10

/-- R200 with R12: gf128_double shifts int128 right by one bit and XORs 0xE1 into byte 0 when the old bit 0 was
1; as polynomials it is the product by x. -/
def Obligations.ElementDoubleIsTheProductByX : Prop :=
  ∀ p : Block,
    int128 (gf128Double p) = (int128 p / 2) ^^^ (int128 p % 2 * (0xE1 * 2 ^ 120)) ∧
    modulus128 ∣ poly128 (gf128Double p) - Polynomial.X * poly128 p

/-- R201, R203 with R12: multiply_bit_by_bit is the product of polynomials over GF(2) modulo
x^128 + x^7 + x^2 + x + 1. -/
def Obligations.ElementProductIsThePolynomialProduct : Prop :=
  ∀ a b : Block, modulus128 ∣ poly128 (multiplyBitByBit a b) - poly128 a * poly128 b

/-- R201, R208: the three multiplies are one function; it is commutative, has elem(0x80) as identity and 0 as
zero, and gf128_double is a bijection and the product by elem(0x40). -/
def Obligations.MultiplierLaws : Prop :=
  (∀ a b : Block,
    multiplyTable8 a (buildTable8 b) = multiplyBitByBit a b ∧
    multiplyTable4 a (buildTable4 b) = multiplyBitByBit a b ∧
    multiplyBitByBit a b = multiplyBitByBit b a) ∧
  (∀ a : Block, multiplyBitByBit a (elem 0x80) = a ∧ multiplyBitByBit zeroBlock a = zeroBlock ∧
    multiplyBitByBit a (elem 0x40) = gf128Double a) ∧
  Function.Bijective gf128Double

/-- R208, R212, R214 on the machine: in a build with all variants, HMULB, HT8B then HMUL8, and HT4B then HMUL4
leave the same GX and the same GH. -/
def Obligations.ThreeMultiplyCommandsAgree : Prop :=
  ∀ s : State, s.cfg = Config.defaultBuild →
    ∃ t u v, exec .hmulb s = .next t ∧ runCommands [.ht8b, .hmul8] s = .next u ∧
      runCommands [.ht4b, .hmul4] s = .next v ∧ u.gx = t.gx ∧ v.gx = t.gx ∧
      t.gh = s.gh ∧ u.gh = s.gh ∧ v.gh = s.gh

/-! ### Runs and their final states -/

/-- R247, R286: every finite run ends, after as many steps as it has events; its end is a final state exactly when
no UNINIT_READ is recorded; and from a faulted state no step and no run reaches a final state. -/
def Obligations.RunsEndAndFaultedStatesAreNeverFinal : Prop :=
  (∀ s : State, ∃ t : State, Sys2Proof.core.run s.pending.length s = .next t ∧ t.Ended ∧
    (t.IsFinal ↔ t.modelFault = none)) ∧
  ∀ (s : State) (f : Fault), s.modelFault = some f →
    ¬s.IsFinal ∧ ∀ (k : Nat) (t : State), Sys2Proof.core.run k s = .next t → ¬t.IsFinal

/-- R40, R247 with R286: the premise "no UNINIT_READ recorded" makes a run independent of what its undefined bytes
held. From a state and any filling of its undefined bytes, a run that ends without the mark has the same
registers, answers and defined bytes, whatever the filling (so it does not rest on log 1's 0x00). -/
def Obligations.RunsWithoutUninitReadIgnoreUndefinedBytes : Prop :=
  ∀ (k : Nat) (s1 s2 t1 : State), Fills s1 s2 → Sys2Proof.core.run k s1 = .next t1 → t1.noUninitRead →
    ∃ t2 : State, Sys2Proof.core.run k s2 = .next t2 ∧ Fills t1 t2
end

