-- ==== Sys2Proof/Laws/Memory.lean ====
section
/-! SUPPORT. Laws of the storage list: reading after a store, the canonical form, stores that overwrite or
commute, and the first undefined byte of a span. -/

namespace Sys2Proof.Machine

open Sys2Proof

/-! ### Lookup -/

theorem Memory.lookup_filter_of_pos (m : Memory) (p : Nat → Bool) (a : Nat) (h : p a = true) :
    List.lookup a (m.filter fun c => p c.1) = List.lookup a m := by
  induction m with
  | nil => rfl
  | cons c m ih =>
    obtain ⟨k, v⟩ := c
    by_cases hk : a = k
    · subst hk; simp [List.lookup, h]
    · have hk' : (a == k) = false := by simpa using hk
      cases hp : p k <;> simp [List.filter, List.lookup, hp, hk', ih]

theorem Memory.lookup_filter_of_neg (m : Memory) (p : Nat → Bool) (a : Nat) (h : p a = false) :
    List.lookup a (m.filter fun c => p c.1) = none := by
  induction m with
  | nil => rfl
  | cons c m ih =>
    obtain ⟨k, v⟩ := c
    by_cases hk : a = k
    · subst hk; simpa [List.filter, h] using ih
    · have hk' : (a == k) = false := by simpa using hk
      cases hp : p k <;> simp [List.filter, List.lookup, hp, hk', ih]

theorem lookup_cellsFrom (base : Nat) (bs : List Byte) (a : Nat) :
    List.lookup a (cellsFrom base bs) = if base ≤ a then bs[a - base]? else none := by
  induction bs generalizing base with
  | nil => simp [cellsFrom]
  | cons b bs ih =>
    by_cases hk : a = base
    · subst hk; simp [cellsFrom]
    · have hk' : (a == base) = false := by simpa using hk
      simp only [cellsFrom, List.lookup, hk', ih]
      by_cases h1 : base + 1 ≤ a
      · have h2 : a - base = (a - (base + 1)) + 1 := by omega
        rw [if_pos h1, if_pos (by omega), h2, List.getElem?_cons_succ]
      · rw [if_neg h1, if_neg (by omega)]

/-- Reading after a store: the stored byte inside the stored span, the old byte outside (R56). -/
theorem Memory.lookup_store (m : Memory) (base : Nat) (bs : List Byte) (a : Nat) :
    List.lookup a (m.store base bs) =
      if base ≤ a ∧ a < base + bs.length then bs[a - base]? else List.lookup a m := by
  unfold Memory.store
  rw [List.lookup_append, List.lookup_append, lookup_cellsFrom]
  by_cases h1 : a < base
  · rw [Memory.lookup_filter_of_pos m (fun k => decide (k < base)) a (by simpa using h1),
      Memory.lookup_filter_of_neg m (fun k => decide (base + bs.length ≤ k)) a (by simp; omega),
      if_neg (by omega), if_neg (by omega)]
    simp
  · rw [Memory.lookup_filter_of_neg m (fun k => decide (k < base)) a (by simpa using h1),
      if_pos (by omega)]
    by_cases h2 : a < base + bs.length
    · have h3 : a - base < bs.length := by omega
      rw [Memory.lookup_filter_of_neg m (fun k => decide (base + bs.length ≤ k)) a (by simpa using h2),
        if_pos ⟨by omega, h2⟩]
      simp [List.getElem?_eq_getElem h3]
    · have h3 : bs[a - base]? = none := List.getElem?_eq_none (by omega)
      rw [Memory.lookup_filter_of_pos m (fun k => decide (base + bs.length ≤ k)) a (by simpa using h2),
        if_neg (by omega), h3]
      simp

theorem Memory.byteAt_store_of_mem (m : Memory) (base : Nat) (bs : List Byte) (a : Nat)
    (h1 : base ≤ a) (h2 : a < base + bs.length) :
    (m.store base bs).byteAt a = bs.getD (a - base) unwrittenByte := by
  rw [Memory.byteAt, Memory.lookup_store, if_pos ⟨h1, h2⟩, List.getD_eq_getElem?_getD]

theorem Memory.byteAt_store_of_not_mem (m : Memory) (base : Nat) (bs : List Byte) (a : Nat)
    (h : ¬(base ≤ a ∧ a < base + bs.length)) : (m.store base bs).byteAt a = m.byteAt a := by
  rw [Memory.byteAt, Memory.lookup_store, if_neg h, Memory.byteAt]

theorem Memory.written_store_of_mem (m : Memory) (base : Nat) (bs : List Byte) (a : Nat)
    (h1 : base ≤ a) (h2 : a < base + bs.length) : (m.store base bs).written a = true := by
  have h3 : a - base < bs.length := by omega
  rw [Memory.written, Memory.lookup_store, if_pos ⟨h1, h2⟩, List.getElem?_eq_getElem h3]
  rfl

theorem Memory.written_store_of_not_mem (m : Memory) (base : Nat) (bs : List Byte) (a : Nat)
    (h : ¬(base ≤ a ∧ a < base + bs.length)) : (m.store base bs).written a = m.written a := by
  rw [Memory.written, Memory.lookup_store, if_neg h, Memory.written]

/-! ### Slices -/

theorem Memory.lookup_slice (m : Memory) (base len a : Nat) (h1 : base ≤ a) (h2 : a < base + len) :
    List.lookup a (m.slice base len) = List.lookup a m :=
  Memory.lookup_filter_of_pos m (fun k => decide (base ≤ k) && decide (k < base + len)) a
    (by simp [h1, h2])

theorem Memory.byteAt_slice (m : Memory) (base len a : Nat) (h1 : base ≤ a) (h2 : a < base + len) :
    (m.slice base len).byteAt a = m.byteAt a := by
  rw [Memory.byteAt, Memory.lookup_slice m base len a h1 h2, Memory.byteAt]

theorem Memory.written_slice (m : Memory) (base len a : Nat) (h1 : base ≤ a) (h2 : a < base + len) :
    (m.slice base len).written a = m.written a := by
  rw [Memory.written, Memory.lookup_slice m base len a h1 h2, Memory.written]

/-! ### The first undefined byte of a span -/

/-- The first undefined byte of a span, without the slice (R40). -/
theorem Memory.firstUnwritten_eq (m : Memory) (sp : Span) :
    m.firstUnwritten sp
      = ((List.range sp.len).map fun k => sp.base + k).find? fun a => !(m.written a) := by
  unfold Memory.firstUnwritten
  rw [List.find?_map, List.find?_map]
  congr 1
  apply List.find?_congr
  intro k hk
  have hk : k < sp.len := by simpa using hk
  simp only [Function.comp]
  rw [Memory.written_slice m sp.base sp.len (sp.base + k) (by omega) (by omega)]

theorem Memory.firstUnwritten_eq_none (m : Memory) (sp : Span) :
    m.firstUnwritten sp = none ↔ ∀ a, sp.base ≤ a → a < sp.base + sp.len → m.written a = true := by
  rw [Memory.firstUnwritten_eq, List.find?_eq_none]
  constructor
  · intro h a h1 h2
    have := h a (List.mem_map.2 ⟨a - sp.base, by simp; omega, by omega⟩)
    simpa using this
  · intro h x hx
    obtain ⟨k, hk, rfl⟩ := List.mem_map.1 hx
    have hk : k < sp.len := by simpa using hk
    simp [h (sp.base + k) (by omega) (by omega)]

theorem Memory.firstUnwritten_some (m : Memory) (sp : Span) (a : Nat)
    (h : m.firstUnwritten sp = some a) :
    sp.base ≤ a ∧ a < sp.base + sp.len ∧ m.written a = false := by
  rw [Memory.firstUnwritten_eq] at h
  have h1 := List.mem_of_find?_eq_some h
  have h2 := List.find?_some h
  obtain ⟨k, hk, rfl⟩ := List.mem_map.1 h1
  have hk : k < sp.len := by simpa using hk
  exact ⟨by omega, by omega, by simpa using h2⟩

/-! ### The canonical form -/

theorem mem_cellsFrom (base : Nat) (bs : List Byte) (c : Host.Cell) (h : c ∈ cellsFrom base bs) :
    base ≤ c.1 ∧ c.1 < base + bs.length := by
  induction bs generalizing base with
  | nil => simp [cellsFrom] at h
  | cons b bs ih =>
    rcases List.mem_cons.1 h with rfl | h
    · simp
    · have := ih (base + 1) h
      simp only [List.length_cons]
      omega

theorem cellsFrom_wf (base : Nat) (bs : List Byte) : Memory.wf (cellsFrom base bs) := by
  induction bs generalizing base with
  | nil => simp [cellsFrom, Memory.wf]
  | cons b bs ih =>
    refine List.pairwise_cons.2 ⟨fun c hc => ?_, ih (base + 1)⟩
    have := mem_cellsFrom (base + 1) bs c hc
    show base < c.1
    omega

theorem Memory.mem_store (m : Memory) (base : Nat) (bs : List Byte) (c : Host.Cell)
    (h : c ∈ m.store base bs) : c ∈ m ∨ (base ≤ c.1 ∧ c.1 < base + bs.length) := by
  unfold Memory.store at h
  rcases List.mem_append.1 h with h | h
  · rcases List.mem_append.1 h with h | h
    · exact .inl (List.mem_of_mem_filter h)
    · exact .inr (mem_cellsFrom base bs c h)
  · exact .inl (List.mem_of_mem_filter h)

/-- A store keeps the canonical form. -/
theorem Memory.store_wf (m : Memory) (base : Nat) (bs : List Byte) (h : m.wf) :
    (m.store base bs).wf := by
  unfold Memory.store
  refine List.pairwise_append.2 ⟨List.pairwise_append.2
    ⟨h.filter _, cellsFrom_wf base bs, ?_⟩, h.filter _, ?_⟩
  · intro c hc d hd
    have h1 := (List.mem_filter.1 hc).2
    have h2 := mem_cellsFrom base bs d hd
    simp only [decide_eq_true_eq] at h1
    omega
  · intro c hc d hd
    have h2 := (List.mem_filter.1 hd).2
    simp only [decide_eq_true_eq] at h2
    rcases List.mem_append.1 hc with hc | hc
    · have h1 := (List.mem_filter.1 hc).2
      simp only [decide_eq_true_eq] at h1
      omega
    · have h1 := mem_cellsFrom base bs c hc
      omega

/-! ### Stores that overwrite or commute -/

theorem filter_cellsFrom_all (base : Nat) (bs : List Byte) (p : Nat → Bool)
    (h : ∀ a, base ≤ a → a < base + bs.length → p a = true) :
    (cellsFrom base bs).filter (fun c => p c.1) = cellsFrom base bs := by
  rw [List.filter_eq_self]
  intro c hc
  have := mem_cellsFrom base bs c hc
  exact h c.1 this.1 this.2

theorem filter_cellsFrom_none (base : Nat) (bs : List Byte) (p : Nat → Bool)
    (h : ∀ a, base ≤ a → a < base + bs.length → p a = false) :
    (cellsFrom base bs).filter (fun c => p c.1) = [] := by
  rw [List.filter_eq_nil_iff]
  intro c hc
  have := mem_cellsFrom base bs c hc
  simp [h c.1 this.1 this.2]

theorem Memory.filter_filter_of_imp (m : Memory) (p q : Nat → Bool) (h : ∀ a, p a = true → q a = true) :
    (m.filter fun c => q c.1).filter (fun c => p c.1) = m.filter fun c => p c.1 := by
  rw [List.filter_filter]
  apply List.filter_congr
  intro c _
  cases hp : p c.1
  · rfl
  · simp [h c.1 hp]

theorem Memory.filter_filter_of_false (m : Memory) (p q : Nat → Bool) (h : ∀ a, p a = true → q a = false) :
    (m.filter fun c => q c.1).filter (fun c => p c.1) = [] := by
  rw [List.filter_filter, List.filter_eq_nil_iff]
  intro c _
  cases hp : p c.1
  · simp
  · simp [h c.1 hp]

/-- Storing again over the same span leaves the second bytes only. -/
theorem Memory.store_store_same (m : Memory) (base : Nat) (bs cs : List Byte)
    (h : cs.length = bs.length) : (m.store base bs).store base cs = m.store base cs := by
  unfold Memory.store
  rw [h]
  simp only [List.filter_append]
  rw [Memory.filter_filter_of_imp m (fun a => decide (a < base)) (fun a => decide (a < base)) (fun _ h => h),
    filter_cellsFrom_none base bs (fun a => decide (a < base)) (by intro a h1 _; simp; omega),
    Memory.filter_filter_of_false m (fun a => decide (a < base)) (fun a => decide (base + bs.length ≤ a))
      (by intro a; simp; omega),
    Memory.filter_filter_of_false m (fun a => decide (base + bs.length ≤ a)) (fun a => decide (a < base))
      (by intro a; simp; omega),
    filter_cellsFrom_none base bs (fun a => decide (base + bs.length ≤ a)) (by intro a _ h2; simp; omega),
    Memory.filter_filter_of_imp m (fun a => decide (base + bs.length ≤ a))
      (fun a => decide (base + bs.length ≤ a)) (fun _ h => h)]
  simp

/-- Stores to disjoint spans, the first below the second, commute. -/
theorem Memory.store_comm (m : Memory) (b1 b2 : Nat) (bs cs : List Byte) (h : b1 + bs.length ≤ b2) :
    (m.store b1 bs).store b2 cs = (m.store b2 cs).store b1 bs := by
  have e1 : (m.filter fun c => decide (c.1 < b1)).filter (fun c => decide (c.1 < b2))
      = m.filter fun c => decide (c.1 < b1) := by
    rw [List.filter_filter]
    exact List.filter_congr fun c _ => by by_cases hc : c.1 < b1 <;> simp [hc]; omega
  have e2 : (m.filter fun c => decide (c.1 < b2)).filter (fun c => decide (c.1 < b1))
      = m.filter fun c => decide (c.1 < b1) :=
    Memory.filter_filter_of_imp m (fun a => decide (a < b1)) (fun a => decide (a < b2))
      (by intro a; simp; omega)
  have e3 := filter_cellsFrom_all b1 bs (fun a => decide (a < b2)) (by intro a _ h2; simp; omega)
  have e4 : (m.filter fun c => decide (b1 + bs.length ≤ c.1)).filter (fun c => decide (c.1 < b2))
      = (m.filter fun c => decide (c.1 < b2)).filter fun c => decide (b1 + bs.length ≤ c.1) := by
    rw [List.filter_filter, List.filter_filter]
    exact List.filter_congr fun c _ => Bool.and_comm _ _
  have e5 : (m.filter fun c => decide (c.1 < b1)).filter (fun c => decide (b2 + cs.length ≤ c.1)) = [] :=
    Memory.filter_filter_of_false m (fun a => decide (b2 + cs.length ≤ a)) (fun a => decide (a < b1))
      (by intro a; simp; omega)
  have e6 := filter_cellsFrom_none b1 bs (fun a => decide (b2 + cs.length ≤ a))
    (by intro a _ h2; simp; omega)
  have e7 : (m.filter fun c => decide (b1 + bs.length ≤ c.1)).filter (fun c => decide (b2 + cs.length ≤ c.1))
      = m.filter fun c => decide (b2 + cs.length ≤ c.1) :=
    Memory.filter_filter_of_imp m (fun a => decide (b2 + cs.length ≤ a))
      (fun a => decide (b1 + bs.length ≤ a)) (by intro a; simp; omega)
  have e8 := filter_cellsFrom_none b2 cs (fun a => decide (a < b1)) (by intro a h1 _; simp; omega)
  have e9 : (m.filter fun c => decide (b2 + cs.length ≤ c.1)).filter (fun c => decide (c.1 < b1)) = [] :=
    Memory.filter_filter_of_false m (fun a => decide (a < b1)) (fun a => decide (b2 + cs.length ≤ a))
      (by intro a; simp; omega)
  have e10 := filter_cellsFrom_all b2 cs (fun a => decide (b1 + bs.length ≤ a))
    (by intro a h1 _; simp; omega)
  have e11 : (m.filter fun c => decide (b2 + cs.length ≤ c.1)).filter (fun c => decide (b1 + bs.length ≤ c.1))
      = m.filter fun c => decide (b2 + cs.length ≤ c.1) := by
    rw [List.filter_filter]
    exact List.filter_congr fun c _ => by by_cases hc : b2 + cs.length ≤ c.1 <;> simp [hc]; omega
  unfold Memory.store
  simp only [List.filter_append, e1, e2, e3, e4, e5, e6, e7, e8, e9, e10, e11, List.append_assoc,
    List.nil_append, List.append_nil]

end Sys2Proof.Machine
end

