-- ==== Sys2Proof/Laws/Operands.lean ====
section
/-! SUPPORT. Laws of byte strings, loops and spans: each byte of a built string, extensionality, and what the
state's buffers hold. -/

namespace Sys2Proof.Machine

open Sys2Proof

@[simp] theorem vecOf_toList {α : Type} (n : Nat) (f : Nat → α) :
    (vecOf n f).toList = (List.range n).map f := rfl

@[simp] theorem bytesOf_toList (n : Nat) (f : Nat → Byte) :
    (bytesOf n f).toList = (List.range n).map f := rfl

theorem getD_map_range {α : Type} (n : Nat) (f : Nat → α) (i : Nat) (d : α) :
    ((List.range n).map f).getD i d = if i < n then f i else d := by
  by_cases h : i < n
  · simp [List.getD_eq_getElem?_getD, h]
  · simp [List.getD_eq_getElem?_getD, h]

/-- Byte `i` of a built byte string. -/
theorem byteOf_bytesOf (n : Nat) (f : Nat → Byte) (i : Nat) :
    byteOf (bytesOf n f) i = if i < n then f i else 0#8 := by
  rw [byteOf, bytesOf_toList, getD_map_range]

theorem byteOf_bytesOf_lt {n : Nat} (f : Nat → Byte) {i : Nat} (h : i < n) :
    byteOf (bytesOf n f) i = f i := by rw [byteOf_bytesOf, if_pos h]

theorem byteOf_eq_getElem {n : Nat} (v : Bytes n) {i : Nat} (h : i < n) : byteOf v i = v[i] := by
  simp [byteOf, List.getD_eq_getElem?_getD, h]

/-- Two byte strings are equal when their bytes are. -/
theorem bytes_ext {n : Nat} {a b : Bytes n} (h : ∀ i, i < n → byteOf a i = byteOf b i) : a = b := by
  apply Vector.ext
  intro i hi
  rw [← byteOf_eq_getElem a hi, ← byteOf_eq_getElem b hi]
  exact h i hi

/-- A byte string is built from its own bytes. -/
theorem bytesOf_byteOf {n : Nat} (a : Bytes n) : bytesOf n (byteOf a) = a :=
  bytes_ext fun i hi => by rw [byteOf_bytesOf_lt _ hi]

theorem byteOf_xorBytes {n : Nat} (a b : Bytes n) {i : Nat} (h : i < n) :
    byteOf (xorBytes a b) i = byteOf a i ^^^ byteOf b i := byteOf_bytesOf_lt _ h

theorem entryOf_vecOf {n : Nat} (f : Nat → Block) {e : Nat} (h : e < n) :
    entryOf (vecOf n f) e = f e := by
  rw [entryOf, vecOf_toList, getD_map_range, if_pos h]

theorem byteOf_columnOf (b : Block) (c : Nat) {r : Nat} (h : r < 4) :
    byteOf (columnOf b c) r = byteOf b (4 * c + r) := byteOf_bytesOf_lt _ h

theorem byteOf_roundKeyOf (s : Schedule) (r : Nat) {i : Nat} (h : i < 16) :
    byteOf (roundKeyOf s r) i = byteOf s (16 * r + i) := byteOf_bytesOf_lt _ h

/-- Four explicit bytes of a column literal. -/
theorem byteOf_vec4 (b0 b1 b2 b3 : Byte) (i : Nat) :
    byteOf (#v[b0, b1, b2, b3] : Column) i = [b0, b1, b2, b3].getD i 0#8 := rfl

/-- Byte 4c + r of the block of four columns (R24). -/
theorem byteOf_ofColumns (c0 c1 c2 c3 : Column) {i : Nat} (h : i < 16) :
    byteOf (ofColumns c0 c1 c2 c3) i = byteOf ([c0, c1, c2, c3].getD (i / 4) c0) (i % 4) := by
  have l : ∀ c : Column, c.toList.length = 4 := fun c => by simp
  rw [ofColumns, blockOf, byteOf_bytesOf_lt _ h]
  simp only [List.getD_eq_getElem?_getD, byteOf]
  rcases (by omega : i / 4 = 0 ∨ i / 4 = 1 ∨ i / 4 = 2 ∨ i / 4 = 3) with q | q | q | q
  · rw [q, List.getElem?_append_left (by simp; omega), List.getElem?_append_left (by simp; omega),
      List.getElem?_append_left (by simp; omega), (by omega : i % 4 = i)]
    rfl
  · rw [q, List.getElem?_append_left (by simp; omega), List.getElem?_append_left (by simp; omega),
      List.getElem?_append_right (by simp; omega), l, (by omega : i % 4 = i - 4)]
    rfl
  · rw [q, List.getElem?_append_left (by simp; omega), List.getElem?_append_right (by simp; omega),
      (by omega : i % 4 = i - 8)]
    simp
  · rw [q, List.getElem?_append_right (by simp; omega), (by omega : i % 4 = i - 12)]
    simp

/-! ### Loops -/

@[simp] theorem forUp_zero {α : Type} (start : Nat) (f : Nat → α → α) (a : α) : forUp start 0 f a = a := rfl

theorem forUp_succ {α : Type} (start n : Nat) (f : Nat → α → α) (a : α) :
    forUp start (n + 1) f a = f (start + n) (forUp start n f a) := rfl

/-- An invariant of a loop: true before, kept by every iteration. -/
theorem forUp_induction {α : Type} (P : Nat → α → Prop) (start n : Nat) (f : Nat → α → α) (a : α)
    (h0 : P 0 a) (hs : ∀ k x, k < n → P k x → P (k + 1) (f (start + k) x)) :
    P n (forUp start n f a) := by
  induction n with
  | zero => exact h0
  | succ n ih =>
    exact hs n _ (by omega) (ih fun k x hk => hs k x (by omega))

/-- The first iteration taken out of a loop. -/
theorem forUp_first {α : Type} (start n : Nat) (f : Nat → α → α) (a : α) :
    forUp start (n + 1) f a = forUp (start + 1) n f (f start a) := by
  induction n with
  | zero => rfl
  | succ n ih => rw [forUp_succ, ih, forUp_succ]; congr 1; omega

/-! ### The state's bytes -/

theorem State.byteOf_bytesAt (s : State) (base n : Nat) {i : Nat} (h : i < n) :
    byteOf (s.bytesAt base n) i = s.byteAt (base + i) := by
  rw [State.bytesAt, byteOf_bytesOf_lt _ h, Memory.byteAt_slice _ _ _ _ (by omega) (by omega)]
  rfl

theorem State.bytesAt_congr {s t : State} {base n : Nat}
    (h : ∀ a, base ≤ a → a < base + n → s.byteAt a = t.byteAt a) : s.bytesAt base n = t.bytesAt base n :=
  bytes_ext fun i hi => by
    rw [State.byteOf_bytesAt s base n hi, State.byteOf_bytesAt t base n hi]
    exact h _ (by omega) (by omega)

theorem State.byteOf_blk (s : State) {i : Nat} (h : i < 16) : byteOf s.blk i = s.byteAt (0x0010 + i) :=
  s.byteOf_bytesAt 0x0010 16 h
theorem State.byteOf_key (s : State) {i : Nat} (h : i < 16) : byteOf s.key i = s.byteAt (0x0020 + i) :=
  s.byteOf_bytesAt 0x0020 16 h
theorem State.byteOf_gx (s : State) {i : Nat} (h : i < 16) : byteOf s.gx i = s.byteAt (0x0030 + i) :=
  s.byteOf_bytesAt 0x0030 16 h
theorem State.byteOf_gh (s : State) {i : Nat} (h : i < 16) : byteOf s.gh i = s.byteAt (0x0040 + i) :=
  s.byteOf_bytesAt 0x0040 16 h
theorem State.byteOf_sch (s : State) {i : Nat} (h : i < 176) : byteOf s.sch i = s.byteAt (0x0100 + i) :=
  s.byteOf_bytesAt 0x0100 176 h

/-- Byte j of entry e of T8 stands at 0x1000 + 16e + j (R51). -/
theorem State.byteOf_t8 (s : State) {e j : Nat} (he : e < 255) (hj : j < 16) :
    byteOf (entryOf s.t8 e) j = s.byteAt (0x1000 + 16 * e + j) := by
  rw [State.t8, entryOf_vecOf _ he, State.byteOf_bytesAt _ _ _ hj, t8Offset]

/-- Byte j of entry e of T4's table t stands at 0x0200 + 240t + 16e + j (R51). -/
theorem State.byteOf_t4 (s : State) {t e j : Nat} (ht : t < 2) (he : e < 15) (hj : j < 16) :
    byteOf (entryOf (s.t4.toList.getD t (vecOf 15 fun _ => zeroBlock)) e) j
      = s.byteAt (0x0200 + 240 * t + 16 * e + j) := by
  rw [State.t4, vecOf_toList, getD_map_range, if_pos ht, entryOf_vecOf _ he, State.byteOf_bytesAt _ _ _ hj,
    t4Offset]

end Sys2Proof.Machine
end

