-- ==== Sys2Proof/Laws/State.lean ====
section
/-! SUPPORT. One lemma per field per update of the state, the bytes after a store, and the UNINIT_READ mark
after a command's reads. -/

namespace Sys2Proof.Machine

open Sys2Proof

/-! ### storeAt -/

@[simp] theorem storeAt_cmd (s : State) (a : Nat) (bs : List Byte) : (s.storeAt a bs).cmd = s.cmd := rfl
@[simp] theorem storeAt_status (s : State) (a : Nat) (bs : List Byte) : (s.storeAt a bs).status = s.status := rfl
@[simp] theorem storeAt_cfg (s : State) (a : Nat) (bs : List Byte) : (s.storeAt a bs).cfg = s.cfg := rfl
@[simp] theorem storeAt_mem (s : State) (a : Nat) (bs : List Byte) :
    (s.storeAt a bs).mem = s.mem.store a bs := rfl
@[simp] theorem storeAt_modelFault (s : State) (a : Nat) (bs : List Byte) :
    (s.storeAt a bs).modelFault = s.modelFault := rfl
@[simp] theorem storeAt_pending (s : State) (a : Nat) (bs : List Byte) :
    (s.storeAt a bs).pending = s.pending := rfl
@[simp] theorem storeAt_response (s : State) (a : Nat) (bs : List Byte) :
    (s.storeAt a bs).response = s.response := rfl

/-! Every named write is a store at its offset. -/

@[simp] theorem setG_eq (s : State) (r : GReg) (v : Byte) : s.setG r v = s.storeAt (gOffset r) [v] := rfl
@[simp] theorem setBlk_eq (s : State) (v : Block) : s.setBlk v = s.storeAt 0x0010 v.toList := rfl
@[simp] theorem setKey_eq (s : State) (v : Block) : s.setKey v = s.storeAt 0x0020 v.toList := rfl
@[simp] theorem setGx_eq (s : State) (v : Block) : s.setGx v = s.storeAt 0x0030 v.toList := rfl
@[simp] theorem setSch_eq (s : State) (v : Schedule) : s.setSch v = s.storeAt 0x0100 v.toList := rfl
@[simp] theorem setT8_eq (s : State) (v : Table8) :
    s.setT8 v = s.storeAt 0x1000 (v.toList.flatMap fun e => e.toList) := rfl
@[simp] theorem setT4_eq (s : State) (v : Table4) :
    s.setT4 v = s.storeAt 0x0200 (v.toList.flatMap fun t => t.toList.flatMap fun e => e.toList) := rfl

/-! ### Bytes after a store -/

theorem storeAt_byteAt_of_mem (s : State) (base : Nat) (bs : List Byte) {a : Nat} (h1 : base ≤ a)
    (h2 : a < base + bs.length) : (s.storeAt base bs).byteAt a = bs.getD (a - base) unwrittenByte :=
  Memory.byteAt_store_of_mem _ _ _ _ h1 h2

theorem storeAt_byteAt_of_not_mem (s : State) (base : Nat) (bs : List Byte) {a : Nat}
    (h : ¬(base ≤ a ∧ a < base + bs.length)) : (s.storeAt base bs).byteAt a = s.byteAt a :=
  Memory.byteAt_store_of_not_mem _ _ _ _ h

theorem storeAt_written_of_mem (s : State) (base : Nat) (bs : List Byte) {a : Nat} (h1 : base ≤ a)
    (h2 : a < base + bs.length) : (s.storeAt base bs).written a = true :=
  Memory.written_store_of_mem _ _ _ _ h1 h2

theorem storeAt_written_of_not_mem (s : State) (base : Nat) (bs : List Byte) {a : Nat}
    (h : ¬(base ≤ a ∧ a < base + bs.length)) : (s.storeAt base bs).written a = s.written a :=
  Memory.written_store_of_not_mem _ _ _ _ h

theorem storeAt_storeAt_same (s : State) (base : Nat) (bs cs : List Byte) (h : cs.length = bs.length) :
    (s.storeAt base bs).storeAt base cs = s.storeAt base cs := by
  simp only [State.storeAt, Memory.store_store_same _ _ _ _ h]

theorem storeAt_comm (s : State) (b1 b2 : Nat) (bs cs : List Byte) (h : b1 + bs.length ≤ b2) :
    (s.storeAt b1 bs).storeAt b2 cs = (s.storeAt b2 cs).storeAt b1 bs := by
  simp only [State.storeAt, Memory.store_comm _ _ _ _ _ h]

/-- A byte string stored whole reads back whole. -/
theorem storeAt_bytesAt_same {n : Nat} (s : State) (base : Nat) (v : Bytes n) :
    (s.storeAt base v.toList).bytesAt base n = v := by
  refine bytes_ext fun i hi => ?_
  rw [State.byteOf_bytesAt _ _ _ hi, storeAt_byteAt_of_mem _ _ _ (by omega) (by simp; omega),
    Nat.add_sub_cancel_left]
  rfl

/-- A byte string disjoint from a store reads as before. -/
theorem storeAt_bytesAt_disjoint (s : State) (b1 b2 n : Nat) (bs : List Byte)
    (h : b1 + bs.length ≤ b2 ∨ b2 + n ≤ b1) : (s.storeAt b1 bs).bytesAt b2 n = s.bytesAt b2 n :=
  State.bytesAt_congr fun a h1 h2 => storeAt_byteAt_of_not_mem _ _ _ (by omega)

/-! ### noteReads -/

/-- Recording reads changes the mark at most; every other field is as before. -/
theorem noteReads_eq (s : State) (reads : List Span) :
    s.noteReads reads = { s with modelFault := (s.noteReads reads).modelFault } := by
  unfold State.noteReads
  split <;> rfl

@[simp] theorem noteReads_cmd (s : State) (r : List Span) : (s.noteReads r).cmd = s.cmd := by rw [noteReads_eq]
@[simp] theorem noteReads_status (s : State) (r : List Span) : (s.noteReads r).status = s.status := by
  rw [noteReads_eq]
@[simp] theorem noteReads_cfg (s : State) (r : List Span) : (s.noteReads r).cfg = s.cfg := by rw [noteReads_eq]
@[simp] theorem noteReads_mem (s : State) (r : List Span) : (s.noteReads r).mem = s.mem := by rw [noteReads_eq]
@[simp] theorem noteReads_pending (s : State) (r : List Span) : (s.noteReads r).pending = s.pending := by
  rw [noteReads_eq]
@[simp] theorem noteReads_response (s : State) (r : List Span) : (s.noteReads r).response = s.response := by
  rw [noteReads_eq]

@[simp] theorem noteReads_byteAt (s : State) (r : List Span) (a : Nat) :
    (s.noteReads r).byteAt a = s.byteAt a := by simp only [State.byteAt, noteReads_mem]
@[simp] theorem noteReads_written (s : State) (r : List Span) (a : Nat) :
    (s.noteReads r).written a = s.written a := by simp only [State.written, noteReads_mem]

/-- The mark after the reads: the old record, else the first undefined byte (R40, R247). -/
theorem noteReads_modelFault (s : State) (reads : List Span) :
    (s.noteReads reads).modelFault
      = match s.modelFault with
        | some f => some f
        | none => (s.firstUndefined reads).map Fault.uninitRead := by
  unfold State.noteReads
  cases h1 : s.modelFault <;> cases h2 : s.firstUndefined reads <;> simp [h1]

/-- A recorded mark stays (R247). -/
theorem noteReads_sticky {s : State} {f : Fault} (reads : List Span) (h : s.modelFault = some f) :
    (s.noteReads reads).modelFault = some f := by rw [noteReads_modelFault, h]

/-- Nothing is undefined in spans that are all written. -/
theorem firstUndefined_eq_none (s : State) (reads : List Span) :
    s.firstUndefined reads = none ↔
      ∀ sp ∈ reads, ∀ a, sp.base ≤ a → a < sp.base + sp.len → s.written a = true := by
  unfold State.firstUndefined
  rw [List.findSome?_eq_none_iff]
  exact forall₂_congr fun sp _ => Memory.firstUnwritten_eq_none s.mem sp

/-- No mark is recorded exactly when none was and every byte read is written (R40). -/
theorem noteReads_none (s : State) (reads : List Span) :
    (s.noteReads reads).modelFault = none ↔ s.modelFault = none ∧
      ∀ sp ∈ reads, ∀ a, sp.base ≤ a → a < sp.base + sp.len → s.written a = true := by
  rw [noteReads_modelFault, ← firstUndefined_eq_none]
  cases s.modelFault <;> cases s.firstUndefined reads <;> simp

/-- Recording reads and storing commute: a store does not touch the mark. -/
theorem storeAt_noteReads (s : State) (reads : List Span) (base : Nat) (bs : List Byte) :
    (s.noteReads reads).storeAt base bs
      = { s.storeAt base bs with modelFault := (s.noteReads reads).modelFault } := by
  rw [noteReads_eq]
  rfl

/-! ### The command error and its clearing -/

@[simp] theorem takeCommandError_cmd (e : CommandError) (op : Byte) (s : State) :
    (takeCommandError e op s).cmd = s.cmd := rfl
@[simp] theorem takeCommandError_status (e : CommandError) (op : Byte) (s : State) :
    (takeCommandError e op s).status = captureError e.code op s.status := rfl
@[simp] theorem takeCommandError_cfg (e : CommandError) (op : Byte) (s : State) :
    (takeCommandError e op s).cfg = s.cfg := rfl
@[simp] theorem takeCommandError_mem (e : CommandError) (op : Byte) (s : State) :
    (takeCommandError e op s).mem = s.mem := rfl
@[simp] theorem takeCommandError_modelFault (e : CommandError) (op : Byte) (s : State) :
    (takeCommandError e op s).modelFault = s.modelFault := rfl
@[simp] theorem takeCommandError_pending (e : CommandError) (op : Byte) (s : State) :
    (takeCommandError e op s).pending = s.pending := rfl
@[simp] theorem takeCommandError_response (e : CommandError) (op : Byte) (s : State) :
    (takeCommandError e op s).response = s.response := rfl

@[simp] theorem clearCommandError_cmd (v : Word) (s : State) : (clearCommandError v s).cmd = s.cmd := rfl
@[simp] theorem clearCommandError_status (v : Word) (s : State) :
    (clearCommandError v s).status = writeStatus v s.status := rfl
@[simp] theorem clearCommandError_cfg (v : Word) (s : State) : (clearCommandError v s).cfg = s.cfg := rfl
@[simp] theorem clearCommandError_mem (v : Word) (s : State) : (clearCommandError v s).mem = s.mem := rfl
@[simp] theorem clearCommandError_modelFault (v : Word) (s : State) :
    (clearCommandError v s).modelFault = s.modelFault := rfl
@[simp] theorem clearCommandError_pending (v : Word) (s : State) :
    (clearCommandError v s).pending = s.pending := rfl
@[simp] theorem clearCommandError_response (v : Word) (s : State) :
    (clearCommandError v s).response = s.response := rfl

end Sys2Proof.Machine
end

