-- ==== Sys2Proof/Laws/Exec.lean ====
section
/-! SUPPORT. What the shared operations, the address map and any one command can do, said once. -/

namespace Sys2Proof.Machine

open Sys2Proof

/-! ### The address map (R51) -/

/-- An offset lies in a region when it lies between its bounds (R51). -/
theorem inRegion_iff (r : Region) (a : Nat) :
    inRegion r a = true ↔ regionBase r ≤ a ∧ a < regionBase r + regionSize r := by
  simp only [inRegion, Bool.and_eq_true, decide_eq_true_eq]

/-- No offset lies in two regions. -/
theorem inRegion_unique {r r' : Region} {a : Nat} (h : inRegion r a = true) (h' : inRegion r' a = true) :
    r = r' := by
  rw [inRegion_iff] at h h'
  cases r <;> cases r' <;> first | rfl | (exfalso; simp only [regionBase, regionSize] at h h'; omega)

/-- The region of an offset is the present region it lies in (R51, R52). -/
theorem regionAt_eq_some (b : Build) (a : Nat) (r : Region) :
    regionAt b a = some r ↔ regionPresent b r = true ∧ inRegion r a = true := by
  have hmem : ∀ r : Region, r ∈ addressMap := by intro r; cases r <;> decide
  constructor
  · intro h
    simpa using List.find?_some h
  · rintro ⟨hp, hr⟩
    cases hf : regionAt b a with
    | none =>
      have := List.find?_eq_none.1 hf r (hmem r)
      simp [hp, hr] at this
    | some r' =>
      have h' : regionPresent b r' = true ∧ inRegion r' a = true := by simpa using List.find?_some hf
      rw [inRegion_unique h'.2 hr]

/-- The offsets of a present data region are data offsets. -/
theorem dataOffset_of_region {b : Build} {r : Region} {a : Nat} (hp : regionPresent b r = true)
    (hc : regionControl r = false) (h1 : regionBase r ≤ a) (h2 : a < regionBase r + regionSize r) :
    dataOffset b a = true := by
  have hr : regionAt b a = some r := (regionAt_eq_some b a r).2 ⟨hp, by simp [inRegion, h1, h2]⟩
  simp [dataOffset, hr, hc]

/-! ### The mark, by offsets -/

theorem findSome?_find?_flatMap {α β : Type} (l : List α) (f : α → List β) (p : β → Bool) :
    l.findSome? (fun x => (f x).find? p) = (l.flatMap f).find? p := by
  induction l with
  | nil => rfl
  | cons x l ih =>
    rw [List.flatMap_cons, List.find?_append, List.findSome?_cons, ih]
    cases (f x).find? p <;> rfl

/-- The first undefined byte of a list of spans, by the offsets of the spans in order. -/
theorem firstUndefined_eq_find (s : State) (reads : List Span) :
    s.firstUndefined reads
      = (reads.flatMap fun sp => (List.range sp.len).map fun k => sp.base + k).find?
          fun a => !(s.written a) := by
  rw [← findSome?_find?_flatMap]
  unfold State.firstUndefined
  congr 1
  funext sp
  exact Memory.firstUnwritten_eq s.mem sp

/-! ### The shared forms of meaning -/

theorem scalarUnary_eq (f : Byte → Byte) (rd ra : GReg) (s : State) :
    scalarUnary f rd ra s
      = .next ((s.noteReads [⟨gOffset ra, 1⟩]).storeAt (gOffset rd) [f (s.g ra)]) := rfl

theorem scalarBinary_eq (f : Byte → Byte → Byte) (rd ra rb : GReg) (s : State) :
    scalarBinary f rd ra rb s
      = .next ((s.noteReads [⟨gOffset ra, 1⟩, ⟨gOffset rb, 1⟩]).storeAt (gOffset rd)
          [f (s.g ra) (s.g rb)]) := rfl

theorem blockUnary_eq (f : Block → Block) (s : State) :
    blockUnary f s = .next ((s.noteReads [⟨0x0010, 16⟩]).storeAt 0x0010 (f s.blk).toList) := rfl

theorem keyUnary_eq (f : Block → Block) (s : State) :
    keyUnary f s = .next ((s.noteReads [⟨0x0020, 16⟩]).storeAt 0x0020 (f s.key).toList) := rfl

theorem ifPresent_pos {o : BuildOption} {op : Byte} {m : State → Result} {s : State}
    (h : s.cfg.has o = true) : ifPresent o op m s = m s := if_pos h

theorem ifPresent_neg {o : BuildOption} {op : Byte} {m : State → Result} {s : State}
    (h : s.cfg.has o = false) : ifPresent o op m s = .next (takeCommandError .absentVariant op s) := by
  rw [ifPresent, h]; rfl

theorem length_flatMap_const {α : Type} (l : List α) (f : α → List Byte) (k : Nat)
    (h : ∀ x ∈ l, (f x).length = k) : (l.flatMap f).length = l.length * k := by
  induction l with
  | nil => simp
  | cons x l ih =>
    rw [List.flatMap_cons, List.length_append, h x (by simp), ih fun y hy => h y (by simp [hy]),
      List.length_cons, Nat.succ_mul, Nat.add_comm]

theorem blocks_bytes_length {n : Nat} (t : Vector Block n) :
    (t.toList.flatMap fun e => e.toList).length = n * 16 := by
  rw [length_flatMap_const _ _ 16 fun e _ => Vector.length_toList, Vector.length_toList]

theorem table8_bytes_length (t : Table8) : (t.toList.flatMap fun e => e.toList).length = 4080 :=
  blocks_bytes_length t

theorem table4_bytes_length (t : Table4) :
    (t.toList.flatMap fun t => t.toList.flatMap fun e => e.toList).length = 480 := by
  rw [length_flatMap_const _ _ 240 fun v _ => blocks_bytes_length v, Vector.length_toList]

/-! ### What a command can do -/

/-- What one command can do to the state: nothing (NOP), take a command error, or note its reads and store
into a present data region, or into two. -/
inductive Effect (s : State) : State → Prop where
  | nothing : Effect s s
  | error (e : CommandError) (op : Byte) : Effect s (takeCommandError e op s)
  | store (reads : List Span) (base : Nat) (bs : List Byte)
      (h : ∀ a, base ≤ a → a < base + bs.length → dataOffset s.cfg a = true) :
      Effect s ((s.noteReads reads).storeAt base bs)
  | storeTwo (reads : List Span) (b1 b2 : Nat) (bs cs : List Byte)
      (h1 : ∀ a, b1 ≤ a → a < b1 + bs.length → dataOffset s.cfg a = true)
      (h2 : ∀ a, b2 ≤ a → a < b2 + cs.length → dataOffset s.cfg a = true) :
      Effect s (((s.noteReads reads).storeAt b1 bs).storeAt b2 cs)

theorem Effect.inRegion {s : State} (r : Region) (reads : List Span) (base : Nat) (bs : List Byte)
    (hp : regionPresent s.cfg r = true) (hc : regionControl r = false)
    (h1 : regionBase r ≤ base) (h2 : base + bs.length ≤ regionBase r + regionSize r) :
    Effect s ((s.noteReads reads).storeAt base bs) :=
  .store reads base bs fun _ ha hb => dataOffset_of_region (r := r) hp hc (by omega) (by omega)

theorem gOffset_bounds (r : GReg) : 0x0008 ≤ gOffset r ∧ gOffset r < 0x000C := by
  have := r.isLt
  unfold gOffset
  omega

theorem scalarUnary_effect (f : Byte → Byte) (rd ra : GReg) (s : State) :
    ∃ t, scalarUnary f rd ra s = .next t ∧ Effect s t :=
  ⟨_, scalarUnary_eq f rd ra s, .inRegion .g _ _ _ rfl rfl (gOffset_bounds rd).1 (by
    have := (gOffset_bounds rd).2
    simp only [List.length_singleton, regionBase, regionSize]; omega)⟩

theorem scalarBinary_effect (f : Byte → Byte → Byte) (rd ra rb : GReg) (s : State) :
    ∃ t, scalarBinary f rd ra rb s = .next t ∧ Effect s t :=
  ⟨_, scalarBinary_eq f rd ra rb s, .inRegion .g _ _ _ rfl rfl (gOffset_bounds rd).1 (by
    have := (gOffset_bounds rd).2
    simp only [List.length_singleton, regionBase, regionSize]; omega)⟩

theorem Effect.blk {s : State} (reads : List Span) (v : Block) :
    Effect s ((s.noteReads reads).storeAt 0x0010 v.toList) :=
  .inRegion .blk _ _ _ rfl rfl (by decide) (by simp [regionBase, regionSize])

theorem Effect.key {s : State} (reads : List Span) (v : Block) :
    Effect s ((s.noteReads reads).storeAt 0x0020 v.toList) :=
  .inRegion .key _ _ _ rfl rfl (by decide) (by simp [regionBase, regionSize])

theorem Effect.gx {s : State} (reads : List Span) (v : Block) :
    Effect s ((s.noteReads reads).storeAt 0x0030 v.toList) :=
  .inRegion .gx _ _ _ rfl rfl (by decide) (by simp [regionBase, regionSize])

theorem onTheFly_effect (f : Block → Block → OnTheFly) (s : State) :
    ∃ t, onTheFly f s = .next t ∧ Effect s t :=
  ⟨_, rfl, .storeTwo _ _ _ _ _
    (fun _ h1 h2 => dataOffset_of_region (r := .blk) rfl rfl h1 (by
      rw [Vector.length_toList] at h2; exact h2))
    (fun _ h1 h2 => dataOffset_of_region (r := .key) rfl rfl h1 (by
      rw [Vector.length_toList] at h2; exact h2))⟩

theorem ifPresent_effect (o : BuildOption) (op : Byte) (m : State → Result) (s : State)
    (h : s.cfg.has o = true → ∃ t, m s = .next t ∧ Effect s t) :
    ∃ t, ifPresent o op m s = .next t ∧ Effect s t := by
  cases ho : s.cfg.has o with
  | true => rw [ifPresent_pos ho]; exact h ho
  | false => exact ⟨_, ifPresent_neg ho, .error _ _⟩

/-- Every command answers a next state, and its effect is one of those listed (R243, R247). -/
theorem exec_effect (i : Instr) (s : State) : ∃ t, exec i s = .next t ∧ Effect s t := by
  cases i with
  | nop => exact ⟨s, rfl, .nothing⟩
  | gdbl rd ra => exact scalarUnary_effect _ rd ra s
  | ghlv rd ra => exact scalarUnary_effect _ rd ra s
  | gmul rd ra rb => exact scalarBinary_effect _ rd ra rb s
  | ginv rd ra => exact scalarUnary_effect _ rd ra s
  | sbox rd ra => exact scalarUnary_effect _ rd ra s
  | isbox rd ra => exact scalarUnary_effect _ rd ra s
  | subb => exact ⟨_, blockUnary_eq _ s, .blk _ _⟩
  | isubb => exact ⟨_, blockUnary_eq _ s, .blk _ _⟩
  | ark src =>
    show ∃ t, execArk src s = .next t ∧ Effect s t
    unfold execArk
    split
    · exact ⟨_, rfl, .blk _ _⟩
    · exact ⟨_, rfl, .error _ _⟩
  | shr => exact ⟨_, blockUnary_eq _ s, .blk _ _⟩
  | ishr => exact ⟨_, blockUnary_eq _ s, .blk _ _⟩
  | mixc => exact ⟨_, blockUnary_eq _ s, .blk _ _⟩
  | imixc => exact ⟨_, blockUnary_eq _ s, .blk _ _⟩
  | kexp =>
    exact ⟨_, rfl, .inRegion .sch _ _ _ rfl rfl (by decide) (by simp [regionBase, regionSize])⟩
  | kadv rc => exact ⟨_, keyUnary_eq (fun k => advanceRound k rc) s, .key _ _⟩
  | kreg rc => exact ⟨_, keyUnary_eq (fun k => regressRound k rc) s, .key _ _⟩
  | kdec => exact ⟨_, keyUnary_eq _ s, .key _ _⟩
  | enc => exact ⟨_, rfl, .blk _ _⟩
  | dec => exact ⟨_, rfl, .blk _ _⟩
  | encf => exact onTheFly_effect _ s
  | decf => exact onTheFly_effect _ s
  | hdbl => exact ⟨_, rfl, .gx _ _⟩
  | hmulb => unfold exec execHmulb; exact ifPresent_effect _ _ _ s fun _ => ⟨_, rfl, .gx _ _⟩
  | ht8b =>
    unfold exec execHt8b
    exact ifPresent_effect _ _ _ s fun h => ⟨_, rfl, .inRegion .t8 _ 0x1000 _ h rfl (by decide) (by
      rw [table8_bytes_length]; decide)⟩
  | hmul8 => unfold exec execHmul8; exact ifPresent_effect _ _ _ s fun _ => ⟨_, rfl, .gx _ _⟩
  | ht4b =>
    unfold exec execHt4b
    exact ifPresent_effect _ _ _ s fun h => ⟨_, rfl, .inRegion .t4 _ 0x0200 _ h rfl (by decide) (by
      rw [table4_bytes_length]; decide)⟩
  | hmul4 => unfold exec execHmul4; exact ifPresent_effect _ _ _ s fun _ => ⟨_, rfl, .gx _ _⟩

/-- The fields no command touches but by a command error's STATUS (R14, R31, R34). -/
theorem Effect.fields {s t : State} (h : Effect s t) :
    t.cmd = s.cmd ∧ t.cfg = s.cfg ∧ t.pending = s.pending ∧ t.response = s.response := by
  cases h <;> simp

/-- A recorded UNINIT_READ stays recorded (R247). -/
theorem Effect.sticky {s t : State} {f : Fault} (h : Effect s t) (hf : s.modelFault = some f) :
    t.modelFault = some f := by
  cases h with
  | nothing => exact hf
  | error => exact hf
  | store reads => exact noteReads_sticky reads hf
  | storeTwo reads => exact noteReads_sticky reads hf

end Sys2Proof.Machine
end

