-- ==== Sys2Proof/Laws/PerInstr.lean ====
section
/-! SUPPORT. One statement for every command, made per constructor: the command word under its format's mask
is OP (R76). -/

namespace Sys2Proof.Laws.MatchMask

open Sys2Proof

/-- The format of a command: that of the row of the opcode map with its OP (R75). -/
def formatOf (i : Instr) : Option Format := (opMap.find? fun r => r.op == i.op).map fun r => r.format

/-- The word of the command, under the mask of its row's format, is the row's match value, OP (R76). -/
def Statement (i : Instr) : Prop :=
  ∃ f, formatOf i = some f ∧ encode i &&& f.mask = i.op.setWidth 32

theorem nop : Statement .nop := ⟨.n, by decide, by decide⟩
theorem gdbl (rd ra : GReg) : Statement (.gdbl rd ra) := ⟨.r1, rfl, by revert rd ra; decide +kernel⟩
theorem ghlv (rd ra : GReg) : Statement (.ghlv rd ra) := ⟨.r1, rfl, by revert rd ra; decide +kernel⟩
theorem gmul (rd ra rb : GReg) : Statement (.gmul rd ra rb) := ⟨.r2, rfl, by revert rd ra rb; decide +kernel⟩
theorem ginv (rd ra : GReg) : Statement (.ginv rd ra) := ⟨.r1, rfl, by revert rd ra; decide +kernel⟩
theorem sbox (rd ra : GReg) : Statement (.sbox rd ra) := ⟨.r1, rfl, by revert rd ra; decide +kernel⟩
theorem isbox (rd ra : GReg) : Statement (.isbox rd ra) := ⟨.r1, rfl, by revert rd ra; decide +kernel⟩
theorem subb : Statement .subb := ⟨.n, by decide, by decide⟩
theorem isubb : Statement .isubb := ⟨.n, by decide, by decide⟩
theorem ark (src : BitVec 4) : Statement (.ark src) := ⟨.k, rfl, by revert src; decide +kernel⟩
theorem shr : Statement .shr := ⟨.n, by decide, by decide⟩
theorem ishr : Statement .ishr := ⟨.n, by decide, by decide⟩
theorem mixc : Statement .mixc := ⟨.n, by decide, by decide⟩
theorem imixc : Statement .imixc := ⟨.n, by decide, by decide⟩
theorem kexp : Statement .kexp := ⟨.n, by decide, by decide⟩
theorem kadv (imm8 : Byte) : Statement (.kadv imm8) := ⟨.i, rfl, by revert imm8; decide +kernel⟩
theorem kreg (imm8 : Byte) : Statement (.kreg imm8) := ⟨.i, rfl, by revert imm8; decide +kernel⟩
theorem kdec : Statement .kdec := ⟨.n, by decide, by decide⟩
theorem enc : Statement .enc := ⟨.n, by decide, by decide⟩
theorem dec : Statement .dec := ⟨.n, by decide, by decide⟩
theorem encf : Statement .encf := ⟨.n, by decide, by decide⟩
theorem decf : Statement .decf := ⟨.n, by decide, by decide⟩
theorem hdbl : Statement .hdbl := ⟨.n, by decide, by decide⟩
theorem hmulb : Statement .hmulb := ⟨.n, by decide, by decide⟩
theorem ht8b : Statement .ht8b := ⟨.n, by decide, by decide⟩
theorem hmul8 : Statement .hmul8 := ⟨.n, by decide, by decide⟩
theorem ht4b : Statement .ht4b := ⟨.n, by decide, by decide⟩
theorem hmul4 : Statement .hmul4 := ⟨.n, by decide, by decide⟩

end Sys2Proof.Laws.MatchMask
end

