-- ==== Sys2Proof/Laws/Port.lean ====
section
/-! SUPPORT. What the access checks, a host access and one step can do, said once; the rows of the opcode map
do not overlap. -/

namespace Sys2Proof.Machine

open Sys2Proof

/-! ### The decoder -/

/-- No two rows of the opcode map share an OP (R75). -/
theorem opMap_ops_nodup : (opMap.map fun r => r.op).Nodup := by decide

/-- The row a lookup gives is a row of the map, with that OP. -/
theorem opMap_find_some {op : Byte} {r : OpRow} (h : opMap.find? (fun r => r.op == op) = some r) :
    r ∈ opMap ∧ r.op = op :=
  ⟨List.mem_of_find?_eq_some h, by simpa using List.find?_some h⟩

/-! ### The access checks (R57) -/

/-- An access passes the checks exactly when its width is 1 or 4, a word is aligned, every byte is mapped,
and a register is accessed as a word (R57). -/
theorem checkAccess_eq_none (b : Build) (off n : Nat) :
    checkAccess b off n = none ↔
      (n = 1 ∨ n = 4) ∧ (n = 4 → off % 4 = 0) ∧ (∀ k, k < n → (regionAt b (off + k)).isSome = true) ∧
        ((regionAt b off).any regionControl = true → n = 4) := by
  unfold checkAccess
  split
  · simp; omega
  split
  · simp; omega
  split
  · rename_i h
    obtain ⟨k, hk, h⟩ := List.any_eq_true.1 h
    simp only [reduceCtorEq, false_iff]
    rintro ⟨-, -, h', -⟩
    have := h' k (by simpa using hk)
    cases hr : regionAt b (off + k) <;> simp [hr] at h this
  · rename_i h1 h2 h3
    have h3' : ∀ k, k < n → (regionAt b (off + k)).isSome = true := by
      intro k hk
      cases hr : regionAt b (off + k) with
      | some r => rfl
      | none => exact absurd (List.any_eq_true.2 ⟨k, by simpa using hk, by simp [hr]⟩) h3
    split
    · rename_i h4
      simp only [reduceCtorEq, false_iff]
      rintro ⟨-, -, -, h⟩
      exact h4.2 (h h4.1)
    · rename_i h4
      simp only [true_iff]
      exact ⟨by omega, by omega, h3', fun h => by
        by_contra hn
        exact h4 ⟨h, hn⟩⟩

/-- A word access inside a region stays inside it: bases and sizes are multiples of 4 (R51). -/
theorem regionAt_add {b : Build} {off n : Nat} {r : Region} (hn : n = 1 ∨ n = 4) (ha : n = 4 → off % 4 = 0)
    (h : regionAt b off = some r) {k : Nat} (hk : k < n) : regionAt b (off + k) = some r := by
  rw [regionAt_eq_some] at h ⊢
  refine ⟨h.1, ?_⟩
  have h2 := h.2
  simp only [inRegion, Bool.and_eq_true, decide_eq_true_eq] at h2 ⊢
  rcases hn with rfl | rfl
  · omega
  · have ha := ha rfl
    cases r <;> simp only [regionBase, regionSize] at h2 ⊢ <;> omega

/-- The offset of a word access to a register is its base (R51, R54). -/
theorem control_offset {b : Build} {off : Nat} {r : Region} (h : regionAt b off = some r)
    (hc : regionControl r = true) (ha : off % 4 = 0) : off = regionBase r := by
  have h2 := ((regionAt_eq_some b off r).1 h).2
  simp only [inRegion, Bool.and_eq_true, decide_eq_true_eq] at h2
  cases r <;> simp only [regionControl, Bool.false_eq_true] at hc <;>
    simp only [regionBase, regionSize] at h2 ⊢ <;> omega

theorem regionAt_cmd (b : Build) : regionAt b 0x0000 = some .cmd :=
  (regionAt_eq_some _ _ _).2 ⟨rfl, rfl⟩
theorem regionAt_status (b : Build) : regionAt b 0x0004 = some .status :=
  (regionAt_eq_some _ _ _).2 ⟨rfl, rfl⟩
theorem regionAt_cfg (b : Build) : regionAt b 0x000C = some .cfg :=
  (regionAt_eq_some _ _ _).2 ⟨rfl, rfl⟩

/-- A word access to CMD, STATUS or CFG passes the checks in every build (R54, R57). -/
theorem checkAccess_control (b : Build) (r : Region) (hc : regionControl r = true) :
    checkAccess b (regionBase r) 4 = none := by
  have hr : regionAt b (regionBase r) = some r := by
    cases r <;> simp [regionControl] at hc
    · exact regionAt_cmd b
    · exact regionAt_status b
    · exact regionAt_cfg b
  have ha : regionBase r % 4 = 0 := by cases r <;> rfl
  refine (checkAccess_eq_none _ _ _).2 ⟨.inr rfl, fun _ => ha, fun k hk => ?_, fun _ => rfl⟩
  rw [regionAt_add (.inr rfl) (fun _ => ha) hr hk]
  rfl

/-! ### Host accesses -/

@[simp] theorem answer_cmd (s : State) (r : Response) : (s.answer r).cmd = s.cmd := rfl
@[simp] theorem answer_status (s : State) (r : Response) : (s.answer r).status = s.status := rfl
@[simp] theorem answer_cfg (s : State) (r : Response) : (s.answer r).cfg = s.cfg := rfl
@[simp] theorem answer_mem (s : State) (r : Response) : (s.answer r).mem = s.mem := rfl
@[simp] theorem answer_modelFault (s : State) (r : Response) : (s.answer r).modelFault = s.modelFault := rfl
@[simp] theorem answer_pending (s : State) (r : Response) : (s.answer r).pending = s.pending := rfl
@[simp] theorem answer_response (s : State) (r : Response) : (s.answer r).response = r := rfl
@[simp] theorem answer_byteAt (s : State) (r : Response) (a : Nat) : (s.answer r).byteAt a = s.byteAt a := rfl
@[simp] theorem answer_written (s : State) (r : Response) (a : Nat) :
    (s.answer r).written a = s.written a := rfl

/-- What a host read can do (R55, R57): a bus error, the value of a register, or the bytes of a data region. -/
theorem hostRead_cases (off : Offset) (n : Nat) (s : State) :
    (∃ e, checkAccess s.cfg off.toNat n = some e ∧ hostRead off n s = s.answer (.busError e off n)) ∨
    (n = 4 ∧ off = 0x0000#13 ∧ hostRead off n s = s.answer (.word s.cmd)) ∨
    (n = 4 ∧ off = 0x0004#13 ∧ hostRead off n s = s.answer (.word (statusWord s.status))) ∨
    (n = 4 ∧ off = 0x000C#13 ∧ hostRead off n s = s.answer (.word (cfgWord s.cfg))) ∨
    (checkAccess s.cfg off.toNat n = none ∧ dataOffset s.cfg off.toNat = true ∧
      hostRead off n s = (s.noteReads [⟨off.toNat, n⟩]).answer
        (if n = 1 then .byte (s.byteAt off.toNat) else .word (s.wordAt off.toNat))) := by
  cases hc : checkAccess s.cfg off.toNat n with
  | some e => exact .inl ⟨e, rfl, by rw [hostRead, hc]⟩
  | none =>
    obtain ⟨hn, ha, hm, hw⟩ := (checkAccess_eq_none _ _ _).1 hc
    obtain ⟨r, hr⟩ := Option.isSome_iff_exists.1 (hm 0 (by omega))
    rw [Nat.add_zero] at hr
    cases hk : regionControl r with
    | false =>
      refine .inr (.inr (.inr (.inr ⟨rfl, by simp [dataOffset, hr, hk], ?_⟩)))
      rw [hostRead, hc]
      simp only [hr]
      cases r <;> first | rfl | simp [regionControl] at hk
    | true =>
      have hn4 : n = 4 := hw (by simp [hr, hk])
      have hoff := control_offset hr hk (ha hn4)
      have heq : off = BitVec.ofNat 13 (regionBase r) := by rw [← hoff]; simp
      cases r <;> simp only [regionControl, Bool.false_eq_true] at hk
      · exact .inr (.inl ⟨hn4, heq, by rw [hostRead, hc]; simp only [hr]⟩)
      · exact .inr (.inr (.inl ⟨hn4, heq, by rw [hostRead, hc]; simp only [hr]⟩))
      · exact .inr (.inr (.inr (.inl ⟨hn4, heq, by rw [hostRead, hc]; simp only [hr]⟩)))

/-- What a host write can do (R56, R57): a bus error, a command, a STATUS write, a CFG write, or a store to a
data region, which stays in data offsets. -/
theorem hostWrite_cases (off : Offset) (n : Nat) (v : Word) (s : State) :
    (∃ e, checkAccess s.cfg off.toNat n = some e ∧
      hostWrite off n v s = .next (s.answer (.busError e off n))) ∨
    (n = 4 ∧ off = 0x0000#13 ∧ hostWrite off n v s = onCmdWrite v s) ∨
    (n = 4 ∧ off = 0x0004#13 ∧ hostWrite off n v s = .next ((clearCommandError v s).answer .done)) ∨
    (n = 4 ∧ off = 0x000C#13 ∧ hostWrite off n v s = .next (s.answer .done)) ∨
    (checkAccess s.cfg off.toNat n = none ∧
      (∀ a, off.toNat ≤ a → a < off.toNat + n → dataOffset s.cfg a = true) ∧
      hostWrite off n v s
        = .next ((s.storeAt off.toNat ((List.range n).map (byteOfWord v))).answer .done)) := by
  cases hc : checkAccess s.cfg off.toNat n with
  | some e => exact .inl ⟨e, rfl, by rw [hostWrite, hc]⟩
  | none =>
    obtain ⟨hn, ha, hm, hw⟩ := (checkAccess_eq_none _ _ _).1 hc
    obtain ⟨r, hr⟩ := Option.isSome_iff_exists.1 (hm 0 (by omega))
    rw [Nat.add_zero] at hr
    cases hk : regionControl r with
    | false =>
      refine .inr (.inr (.inr (.inr ⟨rfl, fun a h1 h2 => ?_, ?_⟩)))
      · have := regionAt_add hn ha hr (k := a - off.toNat) (by omega)
        rw [Nat.add_sub_cancel' h1] at this
        simp [dataOffset, this, hk]
      · rw [hostWrite, hc]
        simp only [hr]
        cases r <;> first | rfl | simp [regionControl] at hk
    | true =>
      have hn4 : n = 4 := hw (by simp [hr, hk])
      have hoff := control_offset hr hk (ha hn4)
      have heq : off = BitVec.ofNat 13 (regionBase r) := by rw [← hoff]; simp
      cases r <;> simp only [regionControl, Bool.false_eq_true] at hk
      · exact .inr (.inl ⟨hn4, heq, by rw [hostWrite, hc]; simp only [hr]⟩)
      · exact .inr (.inr (.inl ⟨hn4, heq, by rw [hostWrite, hc]; simp only [hr]⟩))
      · exact .inr (.inr (.inr (.inl ⟨hn4, heq, by rw [hostWrite, hc]; simp only [hr]⟩)))

/-- A word write to CMD is a command (R31). -/
theorem hostWrite_cmd (v : Word) (s : State) : hostWrite 0x0000#13 4 v s = onCmdWrite v s := by
  have h1 : checkAccess s.cfg (BitVec.toNat 0x0000#13) 4 = none := checkAccess_control s.cfg .cmd rfl
  have h2 : regionAt s.cfg (BitVec.toNat 0x0000#13) = some .cmd := regionAt_cmd s.cfg
  rw [hostWrite, h1]
  simp only [h2]

/-- A CMD write answers a next state: CMD takes the word, then the command's effect, or its error (R243). -/
theorem onCmdWrite_effect (w : Word) (s : State) :
    ∃ t, onCmdWrite w s = .next t ∧ Effect { s with cmd := w, response := .done } t := by
  cases hd : decode s.cfg w with
  | error e => exact ⟨_, by simp only [onCmdWrite, hd], .error e (opField w)⟩
  | ok i =>
    obtain ⟨t, h1, h2⟩ := exec_effect i { s with cmd := w, response := .done }
    exact ⟨t, by simp only [onCmdWrite, hd]; exact h1, h2⟩

/-! ### One step -/

/-- What one step from `s`, with the next event taken, can do: nothing, an answer, a command's effect or its
error after CMD has taken the word, a STATUS write, a host's store, or a reset. -/
inductive StepEffect (s : State) : State → Prop where
  | idle (h : s.pending = []) : StepEffect s s
  | answered (rest : List HostEvent) (r : Response) (reads : List Span) :
      StepEffect s (({ s with pending := rest }.noteReads reads).answer r)
  | command (rest : List HostEvent) (w : Word) (t : State)
      (hp : s.pending = cmdWrite w :: rest)
      (h : Effect { s with pending := rest, cmd := w, response := .done } t) : StepEffect s t
  | statusWrite (rest : List HostEvent) (v : Word) :
      StepEffect s ((clearCommandError v { s with pending := rest }).answer .done)
  | stored (rest : List HostEvent) (base : Nat) (bs : List Byte)
      (h : ∀ a, base ≤ a → a < base + bs.length → dataOffset s.cfg a = true) :
      StepEffect s (({ s with pending := rest }.storeAt base bs).answer .done)
  | reset (rest : List HostEvent) (hp : s.pending = .reset :: rest) :
      StepEffect s (resetInput { s with pending := rest })

theorem noteReads_nil (s : State) : s.noteReads [] = s := by
  unfold State.noteReads State.firstUndefined
  cases s.modelFault <;> rfl

/-- Every step answers a next state, and its effect is one of those listed (R20, R21, R247). -/
theorem step_effect (s : State) : ∃ t, step s = .next t ∧ StepEffect s t := by
  unfold step performNext
  cases hp : s.pending with
  | nil => exact ⟨s, rfl, .idle hp⟩
  | cons e rest =>
    have plain : ∀ r, StepEffect s (State.answer { s with pending := rest } r) := fun r => by
      have := StepEffect.answered (s := s) rest r []
      rwa [noteReads_nil] at this
    cases e with
    | reset => exact ⟨_, rfl, .reset rest hp⟩
    | read off n =>
      refine ⟨_, rfl, ?_⟩
      rcases hostRead_cases off n { s with pending := rest } with
        ⟨e, -, h⟩ | ⟨-, -, h⟩ | ⟨-, -, h⟩ | ⟨-, -, h⟩ | ⟨-, -, h⟩
      · rw [h]; exact plain _
      · rw [h]; exact plain _
      · rw [h]; exact plain _
      · rw [h]; exact plain _
      · rw [h]; exact .answered rest _ _
    | write off n v =>
      simp only [performEvent]
      rcases hostWrite_cases off n v { s with pending := rest } with
        ⟨e, -, h⟩ | ⟨hn, ho, h⟩ | ⟨-, -, h⟩ | ⟨-, -, h⟩ | ⟨-, hd, h⟩
      · exact ⟨_, h, plain _⟩
      · subst hn ho
        obtain ⟨t, h1, h2⟩ := onCmdWrite_effect v { s with pending := rest }
        exact ⟨t, by rw [h, h1], .command rest v t hp h2⟩
      · exact ⟨_, h, .statusWrite rest v⟩
      · exact ⟨_, h, plain _⟩
      · exact ⟨_, h, .stored rest _ _ (by simpa using hd)⟩

/-- The one next state of a step has one of the listed effects. -/
theorem step_cases {s t : State} (h : step s = .next t) : StepEffect s t := by
  obtain ⟨u, hu, he⟩ := step_effect s
  rw [hu] at h
  cases h
  exact he

/-- A step takes one event from those to come, or none when there is none. -/
theorem step_pending {s t : State} (h : step s = .next t) : t.pending = s.pending.tail := by
  unfold step performNext at h
  cases hp : s.pending with
  | nil =>
    rw [hp] at h
    cases h
    exact hp
  | cons e rest =>
    rw [hp] at h
    cases e with
    | reset =>
      cases h
      rfl
    | read off n =>
      cases h
      rcases hostRead_cases off n { s with pending := rest } with
        ⟨e, -, h⟩ | ⟨-, -, h⟩ | ⟨-, -, h⟩ | ⟨-, -, h⟩ | ⟨-, -, h⟩ <;> rw [h] <;> simp
    | write off n v =>
      simp only [performEvent] at h
      rcases hostWrite_cases off n v { s with pending := rest } with
        ⟨e, -, h'⟩ | ⟨-, -, h'⟩ | ⟨-, -, h'⟩ | ⟨-, -, h'⟩ | ⟨-, -, h'⟩ <;> rw [h'] at h
      · cases h; rfl
      · obtain ⟨u, h1, h2⟩ := onCmdWrite_effect v { s with pending := rest }
        rw [h1] at h
        cases h
        exact h2.fields.2.2.1
      · cases h; rfl
      · cases h; rfl
      · cases h; rfl

/-- A run of k + 1 steps is one step and a run of k. -/
theorem core_run_succ {s u : State} (h : step s = .next u) (k : Nat) :
    Sys2Proof.core.run (k + 1) s = Sys2Proof.core.run k u := by
  have hc : Sys2Proof.core.step s = .next u := h
  simp only [Host.Core.run, hc]

/-- What every step keeps, a run keeps: an invariant is proved of `step` once. -/
theorem run_induction {core : Host.Core} (Inv : core.State → Prop)
    (hstep : ∀ s t, Inv s → core.step s = .next t → Inv t) :
    ∀ (k : Nat) (s t : core.State), Inv s → core.run k s = .next t → Inv t := by
  intro k
  induction k with
  | zero =>
    intro s t hs h
    cases h
    exact hs
  | succ k ih =>
    intro s t hs h
    simp only [Host.Core.run] at h
    split at h
    · rename_i u hu
      exact ih u t (hstep s u hs hu) h
    · cases h
    · cases h

end Sys2Proof.Machine
end

