-- ==== Sys2Proof/Tests/Slice0.lean ====
section
/-! SUPPORT. Tests: the well-formedness smoke, one written-out word for every command, the results of
spec/95_test_vectors.md and of the rules' own examples, one step each, and a witness for every statement with
hypotheses. -/

namespace Sys2Proof.Tests

open Sys2Proof Sys2Proof.Machine Sys2Proof.Claims

/-! ### Helpers -/

/-- Bytes given as numbers. -/
def bytes (bs : List Nat) : List Byte := bs.map (BitVec.ofNat 8)

/-- The state with bytes stored, as the host would store them. -/
def put (base : Nat) (bs : List Nat) (s : State) : State := s.storeAt base (bytes bs)

/-- The state after the step that writes the command word `w` to CMD. -/
def after (w : Nat) (s : State) : State :=
  match step (s.withFetchWord 32 w) with
  | .next t => t
  | .fault _ => s
  | .refused _ => s

/-- `n` bytes of the state as numbers. -/
def at' (base n : Nat) (s : State) : List Nat := (s.bytesAt base n).toList.map fun b => b.toNat

/-- What one event makes of the state after reset with STATUS as given. -/
def event (e : HostEvent) (s : State) : State :=
  match step { s with pending := [e] } with
  | .next t => t
  | .fault _ => s
  | .refused _ => s

/-- STATUS of a state as the host reads it. -/
def status' (s : State) : Nat := (statusWord s.status).toNat

/-- What the default decoder makes of a word: 0 for a command, else the code of the error. -/
def code (b : Build) (w : Nat) : Nat :=
  match decode b (BitVec.ofNat 32 w) with
  | .ok _ => 0
  | .error e => e.code.toNat

/-- A build without any option. -/
def bare : Build := { mulb := false, t4 := false, t8 := false }

/-! ### Well-formedness: the one field with reserved values is SRC (R74) -/

theorem test_src_reserved_refused : (Instr.ark 11#4).wellFormed = false ∧ (Instr.ark 12#4).wellFormed = false ∧
    (Instr.ark 13#4).wellFormed = false ∧ (Instr.ark 14#4).wellFormed = false := by decide
theorem test_src_legal_accepted : (Instr.ark 0#4).wellFormed = true ∧ (Instr.ark 10#4).wellFormed = true ∧
    (Instr.ark 15#4).wellFormed = true := by decide

/-! ### Words written out bit by bit from R71 and R75, and what they decode to -/

/-- NOP: OP 0x00 (R230). -/
theorem test_decode_misc : decodeTableWord 32 0b00000000000000000000000000000000 = some .nop := by decide
/-- RB, RA, RD in bits 13:12, 11:10, 9:8 (R71; the words of R81). -/
theorem test_decode_gf256 :
    decodeTableWord 32 0b00000000000000000000_01_10_00010000 = some (.gdbl 2#2 1#2) ∧
    decodeTableWord 32 0b00000000000000000000_10_01_00010001 = some (.ghlv 1#2 2#2) ∧
    decodeTableWord 32 0b000000000000000000_01_00_10_00010010 = some (.gmul 2#2 0#2 1#2) ∧
    decodeTableWord 32 0b00000000000000000000_00_01_00010011 = some (.ginv 1#2 0#2) := by decide
theorem test_decode_sbox :
    decodeTableWord 32 0b00000000000000000000_00_11_00100000 = some (.sbox 3#2 0#2) ∧
    decodeTableWord 32 0b00000000000000000000_11_11_00100001 = some (.isbox 3#2 3#2) ∧
    decodeTableWord 32 0b000000000000000000000000_00100010 = some .subb ∧
    decodeTableWord 32 0b000000000000000000000000_00100011 = some .isubb := by decide
/-- SRC in bits 11:8 (R71, R74). -/
theorem test_decode_block :
    decodeTableWord 32 0b00000000000000000000_1010_00110000 = some (.ark 10#4) ∧
    decodeTableWord 32 0b00000000000000000000_1111_00110000 = some (.ark 15#4) ∧
    decodeTableWord 32 0b000000000000000000000000_00110001 = some .shr ∧
    decodeTableWord 32 0b000000000000000000000000_00110010 = some .ishr ∧
    decodeTableWord 32 0b000000000000000000000000_00110011 = some .mixc ∧
    decodeTableWord 32 0b000000000000000000000000_00110100 = some .imixc := by decide
/-- IMM8 in bits 15:8 (R71, R73). -/
theorem test_decode_key :
    decodeTableWord 32 0b000000000000000000000000_01000000 = some .kexp ∧
    decodeTableWord 32 0b0000000000000000_00110110_01000001 = some (.kadv 0x36#8) ∧
    decodeTableWord 32 0b0000000000000000_00000001_01000010 = some (.kreg 0x01#8) ∧
    decodeTableWord 32 0b000000000000000000000000_01000011 = some .kdec := by decide
theorem test_decode_cipher :
    decodeTableWord 32 0b000000000000000000000000_01010000 = some .enc ∧
    decodeTableWord 32 0b000000000000000000000000_01010001 = some .dec ∧
    decodeTableWord 32 0b000000000000000000000000_01010010 = some .encf ∧
    decodeTableWord 32 0b000000000000000000000000_01010011 = some .decf := by decide
theorem test_decode_gf128 :
    decodeTableWord 32 0b000000000000000000000000_01100000 = some .hdbl ∧
    decodeTableWord 32 0b000000000000000000000000_01100001 = some .hmulb ∧
    decodeTableWord 32 0b000000000000000000000000_01100010 = some .ht8b ∧
    decodeTableWord 32 0b000000000000000000000000_01100011 = some .hmul8 ∧
    decodeTableWord 32 0b000000000000000000000000_01100100 = some .ht4b ∧
    decodeTableWord 32 0b000000000000000000000000_01100101 = some .hmul4 := by decide
/-- R77, R78: an OP outside the map; reserved bits; SRC 11 and 14; an absent variant before a reserved bit. -/
theorem test_decode_errors :
    code Config.defaultBuild 0x000000FF = 0x01 ∧ code Config.defaultBuild 0x00000001 = 0x01 ∧
    code Config.defaultBuild 0x00000100 = 0x02 ∧ code Config.defaultBuild 0x00001010 = 0x02 ∧
    code Config.defaultBuild 0x00004012 = 0x02 ∧ code Config.defaultBuild 0x00010041 = 0x02 ∧
    code Config.defaultBuild 0x00000B30 = 0x02 ∧ code Config.defaultBuild 0x00000E30 = 0x02 ∧
    code Config.defaultBuild 0x00001030 = 0x02 ∧ code Config.defaultBuild 0x00000161 = 0x02 ∧
    code bare 0x00000161 = 0x03 ∧ code bare 0x00000062 = 0x03 ∧ code bare 0x00000065 = 0x03 := by decide

/-! ### Results, one step each: the word is written to CMD (95_test_vectors.md §3 to §7 and the rules' examples) -/

/-- §4: no reduction, and in place with the top bit set. -/
theorem test_gdbl :
    at' 0x0009 1 (after 0x00000110 (put 0x0008 [0x57] State.reset)) = [0xAE] ∧
    at' 0x0008 1 (after 0x00000010 (put 0x0008 [0x80] State.reset)) = [0x1B] := by decide +kernel
/-- §4: the low bit set folds in 0x8D; R106's example in place. -/
theorem test_ghlv :
    at' 0x0009 1 (after 0x00000111 (put 0x0008 [0x01] State.reset)) = [0x8D] ∧
    at' 0x000A 1 (after 0x00000A11 (put 0x000A [0x1B] State.reset)) = [0x80] := by decide +kernel
/-- R107's example, and §4: all three registers the same. -/
theorem test_gmul :
    at' 0x000A 1 (after 0x00001212 (put 0x0009 [0x83] (put 0x0008 [0x57] State.reset))) = [0xC1] ∧
    at' 0x0008 1 (after 0x00000012 (put 0x0008 [0x03] State.reset)) = [0x05] := by decide +kernel
/-- R108's example, and §4: the inverse of 0. -/
theorem test_ginv :
    at' 0x0009 1 (after 0x00000113 (put 0x0008 [0x53] State.reset)) = [0xCA] ∧
    at' 0x0009 1 (after 0x00000113 (put 0x0008 [0x00] State.reset)) = [0x00] := by decide +kernel
/-- §4: the byte that three rotations get wrong (C1); R125's example. -/
theorem test_sbox :
    at' 0x000B 1 (after 0x00000320 (put 0x0008 [0x01] State.reset)) = [0x7C] ∧
    at' 0x000B 1 (after 0x00000320 (put 0x0008 [0x53] State.reset)) = [0xED] := by decide +kernel
/-- R126's example, in place; §4: 0. -/
theorem test_isbox :
    at' 0x000B 1 (after 0x00000F21 (put 0x000B [0xED] State.reset)) = [0x53] ∧
    at' 0x000B 1 (after 0x00000321 (put 0x0008 [0x00] State.reset)) = [0x52] := by decide +kernel
/-- R127's example. -/
theorem test_subb :
    at' 0x0010 16 (after 0x00000022
        (put 0x0010 [0x00, 0x01, 0x02, 0x03, 0x04, 0x05, 0x06, 0x07, 0x08, 0x09, 0x0a, 0x0b, 0x0c, 0x0d, 0x0e, 0x0f]
        State.reset))
      = [0x63, 0x7c, 0x77, 0x7b, 0xf2, 0x6b, 0x6f, 0xc5, 0x30, 0x01, 0x67, 0x2b, 0xfe, 0xd7, 0xab, 0x76] := by decide +kernel
/-- R128's example. -/
theorem test_isubb :
    at' 0x0010 16 (after 0x00000023
        (put 0x0010 [0x00, 0x01, 0x02, 0x03, 0x04, 0x05, 0x06, 0x07, 0x08, 0x09, 0x0a, 0x0b, 0x0c, 0x0d, 0x0e, 0x0f]
        State.reset))
      = [0x52, 0x09, 0x6a, 0xd5, 0x30, 0x36, 0xa5, 0x38, 0xbf, 0x40, 0xa3, 0x9e, 0x81, 0xf3, 0xd7, 0xfb] := by decide +kernel
/-- R145's example: SRC = 15 is KEY. -/
theorem test_ark_key :
    at' 0x0010 16 (after 0x00000F30
        (put 0x0020 [0x00, 0x01, 0x02, 0x03, 0x04, 0x05, 0x06, 0x07, 0x08, 0x09, 0x0a, 0x0b, 0x0c, 0x0d, 0x0e, 0x0f]
        (put 0x0010 [0x00, 0x11, 0x22, 0x33, 0x44, 0x55, 0x66, 0x77, 0x88, 0x99, 0xaa, 0xbb, 0xcc, 0xdd, 0xee, 0xff]
        State.reset)))
      = [0x00, 0x10, 0x20, 0x30, 0x40, 0x50, 0x60, 0x70, 0x80, 0x90, 0xa0, 0xb0, 0xc0, 0xd0, 0xe0, 0xf0] := by decide +kernel
/-- §5: SRC = 10 is the last round key of SCH. -/
theorem test_ark_sch :
    at' 0x0010 16 (after 0x00000A30
        (put 0x01A0 [0x13, 0x11, 0x1d, 0x7f, 0xe3, 0x94, 0x4a, 0x17, 0xf3, 0x07, 0xa7, 0x8b, 0x4d, 0x2b, 0x30, 0xc5]
        (put 0x0010 [0x00, 0x00, 0x00, 0x00, 0x00, 0x00, 0x00, 0x00, 0x00, 0x00, 0x00, 0x00, 0x00, 0x00, 0x00, 0x00]
        State.reset)))
      = [0x13, 0x11, 0x1d, 0x7f, 0xe3, 0x94, 0x4a, 0x17, 0xf3, 0x07, 0xa7, 0x8b, 0x4d, 0x2b, 0x30, 0xc5] := by decide +kernel
/-- R146's example. -/
theorem test_shr :
    at' 0x0010 16 (after 0x00000031
        (put 0x0010 [0x00, 0x01, 0x02, 0x03, 0x04, 0x05, 0x06, 0x07, 0x08, 0x09, 0x0a, 0x0b, 0x0c, 0x0d, 0x0e, 0x0f]
        State.reset))
      = [0x00, 0x05, 0x0a, 0x0f, 0x04, 0x09, 0x0e, 0x03, 0x08, 0x0d, 0x02, 0x07, 0x0c, 0x01, 0x06, 0x0b] := by decide +kernel
/-- R147's example. -/
theorem test_ishr :
    at' 0x0010 16 (after 0x00000032
        (put 0x0010 [0x00, 0x01, 0x02, 0x03, 0x04, 0x05, 0x06, 0x07, 0x08, 0x09, 0x0a, 0x0b, 0x0c, 0x0d, 0x0e, 0x0f]
        State.reset))
      = [0x00, 0x0d, 0x0a, 0x07, 0x04, 0x01, 0x0e, 0x0b, 0x08, 0x05, 0x02, 0x0f, 0x0c, 0x09, 0x06, 0x03] := by decide +kernel
/-- §3.2, round 1 of V2. -/
theorem test_mixc :
    at' 0x0010 16 (after 0x00000033
        (put 0x0010 [0xd4, 0xbf, 0x5d, 0x30, 0xe0, 0xb4, 0x52, 0xae, 0xb8, 0x41, 0x11, 0xf1, 0x1e, 0x27, 0x98, 0xe5]
        State.reset))
      = [0x04, 0x66, 0x81, 0xe5, 0xe0, 0xcb, 0x19, 0x9a, 0x48, 0xf8, 0xd3, 0x7a, 0x28, 0x06, 0x26, 0x4c] := by decide +kernel
/-- §3.2, round 1 of V2, undone. -/
theorem test_imixc :
    at' 0x0010 16 (after 0x00000034
        (put 0x0010 [0x04, 0x66, 0x81, 0xe5, 0xe0, 0xcb, 0x19, 0x9a, 0x48, 0xf8, 0xd3, 0x7a, 0x28, 0x06, 0x26, 0x4c]
        State.reset))
      = [0xd4, 0xbf, 0x5d, 0x30, 0xe0, 0xb4, 0x52, 0xae, 0xb8, 0x41, 0x11, 0xf1, 0x1e, 0x27, 0x98, 0xe5] := by decide +kernel
/-- R167's example: round key 10. -/
theorem test_kexp :
    at' 0x01A0 16 (after 0x00000040
        (put 0x0020 [0x2b, 0x7e, 0x15, 0x16, 0x28, 0xae, 0xd2, 0xa6, 0xab, 0xf7, 0x15, 0x88, 0x09, 0xcf, 0x4f, 0x3c]
        State.reset))
      = [0xd0, 0x14, 0xf9, 0xa8, 0xc9, 0xee, 0x25, 0x89, 0xe1, 0x3f, 0x0c, 0xc8, 0xb6, 0x63, 0x0c, 0xa6] := by decide +kernel
/-- R168's example. -/
theorem test_kadv :
    at' 0x0020 16 (after 0x00000141
        (put 0x0020 [0x2b, 0x7e, 0x15, 0x16, 0x28, 0xae, 0xd2, 0xa6, 0xab, 0xf7, 0x15, 0x88, 0x09, 0xcf, 0x4f, 0x3c]
        State.reset))
      = [0xa0, 0xfa, 0xfe, 0x17, 0x88, 0x54, 0x2c, 0xb1, 0x23, 0xa3, 0x39, 0x39, 0x2a, 0x6c, 0x76, 0x05] := by decide +kernel
/-- R169's example, and §6: regress from zero by 0x36. -/
theorem test_kreg :
    at' 0x0020 16 (after 0x00000142
        (put 0x0020 [0xa0, 0xfa, 0xfe, 0x17, 0x88, 0x54, 0x2c, 0xb1, 0x23, 0xa3, 0x39, 0x39, 0x2a, 0x6c, 0x76, 0x05]
        State.reset))
      = [0x2b, 0x7e, 0x15, 0x16, 0x28, 0xae, 0xd2, 0xa6, 0xab, 0xf7, 0x15, 0x88, 0x09, 0xcf, 0x4f, 0x3c] ∧
    at' 0x0020 16 (after 0x00003642
        (put 0x0020 [0x00, 0x00, 0x00, 0x00, 0x00, 0x00, 0x00, 0x00, 0x00, 0x00, 0x00, 0x00, 0x00, 0x00, 0x00, 0x00]
        State.reset))
      = [0x55, 0x63, 0x63, 0x63, 0x00, 0x00, 0x00, 0x00, 0x00, 0x00, 0x00, 0x00, 0x00, 0x00, 0x00, 0x00] := by decide +kernel
/-- R170's example. -/
theorem test_kdec :
    at' 0x0020 16 (after 0x00000043
        (put 0x0020 [0x80, 0x00, 0x00, 0x00, 0x00, 0x00, 0x00, 0x00, 0x00, 0x00, 0x00, 0x00, 0x00, 0x00, 0x00, 0x00]
        State.reset))
      = [0xb5, 0xb1, 0x25, 0x17, 0x3e, 0xcc, 0xe2, 0xcd, 0x22, 0xe9, 0x51, 0x13, 0x6f, 0x8f, 0x18, 0x52] := by decide +kernel
/-- The schedule of §3.1 for the key of scenario 1, in pieces. -/
def scenario1 : List Nat :=
  [0x80, 0x00, 0x00, 0x00, 0x00, 0x00, 0x00, 0x00, 0x00, 0x00, 0x00, 0x00, 0x00, 0x00, 0x00, 0x00] ++
  [0xe2, 0x63, 0x63, 0x63, 0xe2, 0x63, 0x63, 0x63, 0xe2, 0x63, 0x63, 0x63, 0xe2, 0x63, 0x63, 0x63] ++
  [0x1b, 0x98, 0x98, 0xfb, 0xf9, 0xfb, 0xfb, 0x98, 0x1b, 0x98, 0x98, 0xfb, 0xf9, 0xfb, 0xfb, 0x98] ++
  [0x10, 0x97, 0xde, 0x62, 0xe9, 0x6c, 0x25, 0xfa, 0xf2, 0xf4, 0xbd, 0x01, 0x0b, 0x0f, 0x46, 0x99] ++
  [0x6e, 0xcd, 0x30, 0x49, 0x87, 0xa1, 0x15, 0xb3, 0x75, 0x55, 0xa8, 0xb2, 0x7e, 0x5a, 0xee, 0x2b] ++
  [0xc0, 0xe5, 0xc1, 0xba, 0x47, 0x44, 0xd4, 0x09, 0x32, 0x11, 0x7c, 0xbb, 0x4c, 0x4b, 0x92, 0x90] ++
  [0x53, 0xaa, 0xa1, 0x93, 0x14, 0xee, 0x75, 0x9a, 0x26, 0xff, 0x09, 0x21, 0x6a, 0xb4, 0x9b, 0xb1] ++
  [0x9e, 0xbe, 0x69, 0x91, 0x8a, 0x50, 0x1c, 0x0b, 0xac, 0xaf, 0x15, 0x2a, 0xc6, 0x1b, 0x8e, 0x9b] ++
  [0xb1, 0xa7, 0x7d, 0x25, 0x3b, 0xf7, 0x61, 0x2e, 0x97, 0x58, 0x74, 0x04, 0x51, 0x43, 0xfa, 0x9f] ++
  [0xb0, 0x8a, 0xa6, 0xf4, 0x8b, 0x7d, 0xc7, 0xda, 0x1c, 0x25, 0xb3, 0xde, 0x4d, 0x66, 0x49, 0x41] ++
  [0xb5, 0xb1, 0x25, 0x17, 0x3e, 0xcc, 0xe2, 0xcd, 0x22, 0xe9, 0x51, 0x13, 0x6f, 0x8f, 0x18, 0x52]
/-- Sixteen zeros. -/
def zeros : List Nat := List.replicate 16 0
/-- Scenario 1 with its schedule written by the host. -/
theorem test_enc :
    at' 0x0010 16 (after 0x00000050 (put 0x0010 zeros (put 0x0100 scenario1 State.reset)))
      = [0x0e, 0xdd, 0x33, 0xd3, 0xc6, 0x21, 0xe5, 0x46, 0x45, 0x5b, 0xd8, 0xba, 0x14, 0x18, 0xbe, 0xc8] := by decide +kernel
/-- R188's example: scenario 1 decrypted on the fly, BLK and KEY. -/
theorem test_decf :
    at' 0x0010 32 (after 0x00000053
        (put 0x0010 [0x0e, 0xdd, 0x33, 0xd3, 0xc6, 0x21, 0xe5, 0x46, 0x45, 0x5b, 0xd8, 0xba, 0x14, 0x18, 0xbe, 0xc8]
          (put 0x0020 [0xb5, 0xb1, 0x25, 0x17, 0x3e, 0xcc, 0xe2, 0xcd, 0x22, 0xe9, 0x51, 0x13, 0x6f, 0x8f, 0x18, 0x52] State.reset)))
      = zeros ++ [0x80, 0x00, 0x00, 0x00, 0x00, 0x00, 0x00, 0x00, 0x00, 0x00, 0x00, 0x00, 0x00, 0x00, 0x00, 0x00] := by decide +kernel
/-- §7.1: x^127 folds in e1; a carry from byte 0 into byte 1. -/
theorem test_hdbl :
    at' 0x0030 16 (after 0x00000060
        (put 0x0030 [0x00, 0x00, 0x00, 0x00, 0x00, 0x00, 0x00, 0x00, 0x00, 0x00, 0x00, 0x00, 0x00, 0x00, 0x00, 0x01]
        State.reset))
      = [0xe1, 0x00, 0x00, 0x00, 0x00, 0x00, 0x00, 0x00, 0x00, 0x00, 0x00, 0x00, 0x00, 0x00, 0x00, 0x00] ∧
    at' 0x0030 16 (after 0x00000060
        (put 0x0030 [0x01, 0x00, 0x00, 0x00, 0x00, 0x00, 0x00, 0x00, 0x00, 0x00, 0x00, 0x00, 0x00, 0x00, 0x00, 0x00]
        State.reset))
      = [0x00, 0x80, 0x00, 0x00, 0x00, 0x00, 0x00, 0x00, 0x00, 0x00, 0x00, 0x00, 0x00, 0x00, 0x00, 0x00] := by decide +kernel
/-- Scenario 2. -/
theorem test_hmulb :
    at' 0x0030 16 (after 0x00000061
        (put 0x0040 [0xdf, 0xa6, 0xbf, 0x4d, 0xed, 0x81, 0xdb, 0x03, 0xff, 0xca, 0xff, 0x95, 0xf8, 0x30, 0xf0, 0x61]
        (put 0x0030 [0x95, 0x2b, 0x2a, 0x56, 0xa5, 0x60, 0x4a, 0xc0, 0xb3, 0x2b, 0x66, 0x56, 0xa0, 0x5b, 0x40, 0xb6]
        State.reset)))
      = [0xda, 0x53, 0xeb, 0x0a, 0xd2, 0xc5, 0x5b, 0xb6, 0x4f, 0xc4, 0x80, 0x2c, 0xc3, 0xfe, 0xda, 0x60] := by decide +kernel
/-- R211's example: T8[0] and T8[254]. -/
theorem test_ht8b :
    at' 0x1000 16 (after 0x00000062
        (put 0x0040 [0xdf, 0xa6, 0xbf, 0x4d, 0xed, 0x81, 0xdb, 0x03, 0xff, 0xca, 0xff, 0x95, 0xf8, 0x30, 0xf0, 0x61]
        State.reset))
      = [0x93, 0xbb, 0x4d, 0x7e, 0x9b, 0xdb, 0x03, 0xb6, 0x07, 0xff, 0x95, 0xff, 0x2b, 0xf0, 0x61, 0xe0] ∧
    at' 0x1FE0 16 (after 0x00000062
        (put 0x0040 [0xdf, 0xa6, 0xbf, 0x4d, 0xed, 0x81, 0xdb, 0x03, 0xff, 0xca, 0xff, 0x95, 0xf8, 0x30, 0xf0, 0x61]
        State.reset))
      = [0x5a, 0x52, 0x11, 0x5c, 0xc0, 0x48, 0x6c, 0x90, 0xa8, 0x26, 0x26, 0x4c, 0x49, 0x70, 0x80, 0xe1] := by decide +kernel
/-- §7.2 with the one entry it uses written by the host (R278): T8[0x94] is elem(0x95) ⊗ H, and byte 15 comes
first, with 15 steps by x^8 after it. -/
theorem test_hmul8 :
    at' 0x0030 16 (after 0x00000063
        (put 0x1940 [0x67, 0x44, 0x10, 0x20, 0xa4, 0x86, 0xed, 0x0d, 0x98, 0x32, 0x62, 0x64, 0xc3, 0x07, 0x08, 0x0e]
        (put 0x0030 [0x00, 0x00, 0x00, 0x00, 0x00, 0x00, 0x00, 0x00, 0x00, 0x00, 0x00, 0x00, 0x00, 0x00, 0x00, 0x95]
        State.reset)))
      = [0x77, 0x94, 0x18, 0x9e, 0xad, 0x2d, 0x12, 0x29, 0x17, 0xaf, 0x0b, 0x5b, 0xc3, 0x40, 0x1a, 0xfb] := by decide +kernel
/-- R213's example: T4[0][14] and T4[1][14]. -/
theorem test_ht4b :
    at' 0x02E0 16 (after 0x00000064
        (put 0x0040 [0xdf, 0xa6, 0xbf, 0x4d, 0xed, 0x81, 0xdb, 0x03, 0xff, 0xca, 0xff, 0x95, 0xf8, 0x30, 0xf0, 0x61]
        State.reset))
      = [0x35, 0xa8, 0x98, 0xd1, 0xdd, 0x91, 0x7b, 0x22, 0x80, 0x24, 0x60, 0x48, 0xc5, 0x22, 0xaa, 0x45] ∧
    at' 0x03D0 16 (after 0x00000064
        (put 0x0040 [0xdf, 0xa6, 0xbf, 0x4d, 0xed, 0x81, 0xdb, 0x03, 0xff, 0xca, 0xff, 0x95, 0xf8, 0x30, 0xf0, 0x61]
        State.reset))
      = [0x6f, 0xfa, 0x89, 0x8d, 0x1d, 0xd9, 0x17, 0xb2, 0x28, 0x02, 0x46, 0x04, 0x8c, 0x52, 0x2a, 0xa4] := by decide +kernel
/-- §7.3 with T4[0][7] = H and T4[1][0] = elem(1) ⊗ H written by the host: GX = 81 00 x15 takes one entry of each
table. §7.2: x^127 ⊗ x, with T4[1][0] = x^8. -/
theorem test_hmul4 :
    at' 0x0030 16 (after 0x00000065
        (put 0x02F0 [0x93, 0xbb, 0x4d, 0x7e, 0x9b, 0xdb, 0x03, 0xb6, 0x07, 0xff, 0x95, 0xff, 0x2b, 0xf0, 0x61, 0xe0]
        (put 0x0270 [0xdf, 0xa6, 0xbf, 0x4d, 0xed, 0x81, 0xdb, 0x03, 0xff, 0xca, 0xff, 0x95, 0xf8, 0x30, 0xf0, 0x61]
        (put 0x0030 [0x81, 0x00, 0x00, 0x00, 0x00, 0x00, 0x00, 0x00, 0x00, 0x00, 0x00, 0x00, 0x00, 0x00, 0x00, 0x00]
        State.reset))))
      = [0x4c, 0x1d, 0xf2, 0x33, 0x76, 0x5a, 0xd8, 0xb5, 0xf8, 0x35, 0x6a, 0x6a, 0xd3, 0xc0, 0x91, 0x81] ∧
    at' 0x0030 16 (after 0x00000065
        (put 0x02F0 [0x00, 0x80, 0x00, 0x00, 0x00, 0x00, 0x00, 0x00, 0x00, 0x00, 0x00, 0x00, 0x00, 0x00, 0x00, 0x00]
        (put 0x0030 [0x00, 0x00, 0x00, 0x00, 0x00, 0x00, 0x00, 0x00, 0x00, 0x00, 0x00, 0x00, 0x00, 0x00, 0x00, 0x01]
        State.reset)))
      = [0xe1, 0x00, 0x00, 0x00, 0x00, 0x00, 0x00, 0x00, 0x00, 0x00, 0x00, 0x00, 0x00, 0x00, 0x00, 0x00] := by decide +kernel
/-- R230's example: STATUS and every field but CMD, the events and the answer are unchanged. -/
theorem test_nop :
    after 0x00000000 { State.reset with status := ⟨true, 0x01#8, 0xFF#8⟩ }
      = { State.reset with status := ⟨true, 0x01#8, 0xFF#8⟩, response := .done } := by decide

/-! ### STATUS, bus errors and undefined bytes (95_test_vectors.md §8) -/

/-- §8.2: the first error is captured, the second ignored, and the word stays in CMD. -/
theorem test_error_capture :
    status' (after 0x000000FF State.reset) = 0x00FF0101 ∧
    status' (after 0x00000C30 (after 0x000000FF State.reset)) = 0x00FF0101 ∧
    (after 0x00000C30 State.reset).cmd = 0x00000C30#32 ∧
    status' (after 0x00000C30 State.reset) = 0x00300201 ∧
    status' (after 0x00000161 { State.reset with cfg := bare }) = 0x00610301 := by decide

/-- §8.2: bit 0 clear changes nothing, bit 0 set clears; CFG reads 7, and 2 in a build with T4 only. -/
theorem test_status_and_cfg :
    status' (event (.write 0x0004#13 4 0xFFFFFFFE#32) (after 0x000000FF State.reset)) = 0x00FF0101 ∧
    status' (event (.write 0x0004#13 4 0x00000001#32) (after 0x000000FF State.reset)) = 0x00000000 ∧
    (event (.read 0x000C#13 4) State.reset).response = .word 0x00000007#32 ∧
    (event (.read 0x000C#13 4) { State.reset with cfg := { bare with t4 := true } }).response
      = .word 0x00000002#32 := by decide

/-- §8.3: the bus errors, and the check that comes first. -/
theorem test_bus_errors :
    (event (.write 0x0000#13 1 0x50#32) State.reset).response = .busError .width 0x0000#13 1 ∧
    (event (.write 0x0012#13 4 0#32) State.reset).response = .busError .misaligned 0x0012#13 4 ∧
    (event (.write 0x0002#13 4 0x50#32) State.reset).response = .busError .misaligned 0x0002#13 4 ∧
    (event (.read 0x1FF0#13 1) State.reset).response = .busError .unmapped 0x1FF0#13 1 ∧
    (event (.write 0x1000#13 4 0#32) { State.reset with cfg := bare }).response
      = .busError .unmapped 0x1000#13 4 ∧
    (event (.read 0x0050#13 2) State.reset).response = .busError .width 0x0050#13 2 := by decide

/-- §8.3: reads of G1 after its write, of the word with G0, and the mark; ENC with nothing written. -/
theorem test_undefined_bytes :
    (event (.read 0x0009#13 1) (put 0x0009 [0x53] State.reset)).response = .byte 0x53#8 ∧
    (event (.read 0x0009#13 1) (put 0x0009 [0x53] State.reset)).modelFault = none ∧
    (event (.read 0x0008#13 4) (put 0x0009 [0x53] State.reset)).modelFault = some (.uninitRead 0x0008) ∧
    (event (.read 0x0010#13 4) State.reset).modelFault = some (.uninitRead 0x0010) := by decide

/-- §8.3: word lanes. -/
theorem test_word_lanes :
    at' 0x0010 4 (event (.write 0x0010#13 4 0x03020100#32) State.reset) = [0, 1, 2, 3] := by decide

/-- The offsets where the rules of the map meet (R51, R57): the last byte of a region and the first past it. -/
theorem test_access_boundaries :
    checkAccess Config.defaultBuild 0x004F 1 = none ∧
    checkAccess Config.defaultBuild 0x0050 1 = some .unmapped ∧
    checkAccess Config.defaultBuild 0x00FF 1 = some .unmapped ∧
    checkAccess Config.defaultBuild 0x0100 1 = none ∧ checkAccess Config.defaultBuild 0x01AF 1 = none ∧
    checkAccess Config.defaultBuild 0x01B0 4 = some .unmapped ∧
    checkAccess Config.defaultBuild 0x03DF 1 = none ∧
    checkAccess Config.defaultBuild 0x03E0 1 = some .unmapped ∧
    checkAccess Config.defaultBuild 0x0FFF 1 = some .unmapped ∧
    checkAccess Config.defaultBuild 0x1FEC 4 = none ∧
    checkAccess Config.defaultBuild 0x0007 1 = some .width ∧
    checkAccess Config.defaultBuild 0x0008 1 = none ∧ checkAccess Config.defaultBuild 0x000B 1 = none ∧
    checkAccess Config.defaultBuild 0x000C 1 = some .width ∧
    checkAccess Config.defaultBuild 0x0051 4 = some .misaligned ∧
    checkAccess bare 0x0200 1 = some .unmapped ∧ checkAccess bare 0x1FEF 1 = some .unmapped := by decide

/-! ### A witness for every statement with hypotheses -/

/-- A state with G0, G1 written and the CMD write of GMUL G2, G0, G1 to come. -/
def beforeGmul : State := (put 0x0008 [0x57, 0x83] State.reset).withFetchWord 32 0x00001212

theorem beforeGmul_inv : beforeGmul.Inv := by
  refine ⟨by decide, by decide, ?_⟩
  unfold Status.legal
  decide

theorem test_witness_EveryStepKeepsInvariant : beforeGmul.Inv ∧ ∃ t, step beforeGmul = .next t :=
  ⟨beforeGmul_inv, _, rfl⟩

theorem test_witness_StepRunsTheDecodedCommand :
    beforeGmul.pending = .write 0x0000#13 4 0x00001212#32 :: [] ∧
    decode beforeGmul.cfg 0x00001212#32 = .ok (.gmul 2#2 0#2 1#2) := ⟨rfl, by decide⟩

/-- Both clauses: STATUS.ERR = 0 and ERR = 1, and each of the three errors. -/
theorem test_witness_CommandErrorCapturesTheFirstErrorOnly :
    (State.reset.withFetchWord 32 0xFF).pending = .write 0x0000#13 4 0x000000FF#32 :: [] ∧
    decode State.reset.cfg 0x000000FF#32 = .error .illegalOpcode ∧ State.reset.status.err = false ∧
    (after 0xFF State.reset).status.err = true ∧
    decode (after 0xFF State.reset).cfg 0x00000B30#32 = .error .reservedField ∧
    decode bare 0x00000061#32 = .error .absentVariant ∧
    decode State.reset.cfg 0x00000110#32 = .ok (.gdbl 1#2 0#2) := by
  refine ⟨rfl, by decide, rfl, by decide, by decide, by decide, by decide⟩

/-- A read and a write, and each of the three errors. -/
theorem test_witness_BusErrorChangesNoStateOfTheBlock :
    checkAccess State.reset.cfg (0x0000#13).toNat 1 = some .width ∧
    checkAccess State.reset.cfg (0x0002#13).toNat 4 = some .misaligned ∧
    checkAccess State.reset.cfg (0x1FF0#13).toNat 1 = some .unmapped ∧
    { State.reset with pending := [.read 0x0000#13 1] }.pending = .read 0x0000#13 1 :: [] ∧
    { State.reset with pending := [.write 0x0002#13 4 0#32] }.pending = .write 0x0002#13 4 0#32 :: [] := by
  refine ⟨by decide, by decide, by decide, rfl, rfl⟩

/-- A byte and a word write, the word the last four bytes of T8. -/
theorem test_witness_HostWriteStoresItsBytesOnly :
    { State.reset with pending := [.write 0x0008#13 1 0x57#32] }.pending = .write 0x0008#13 1 0x57#32 :: [] ∧
    checkAccess State.reset.cfg (0x0008#13).toNat 1 = none ∧ dataOffset State.reset.cfg (0x0008#13).toNat = true ∧
    checkAccess State.reset.cfg (0x1FEC#13).toNat 4 = none ∧
    dataOffset State.reset.cfg (0x1FEC#13).toNat = true := by
  refine ⟨rfl, by decide, by decide, by decide, by decide⟩

/-- Both clauses: a byte and a word read. -/
theorem test_witness_HostReadReturnsTheBytes :
    { State.reset with pending := [.read 0x01AF#13 1] }.pending = .read 0x01AF#13 1 :: [] ∧
    checkAccess State.reset.cfg (0x01AF#13).toNat 1 = none ∧ dataOffset State.reset.cfg (0x01AF#13).toNat = true ∧
    checkAccess State.reset.cfg (0x0010#13).toNat 4 = none ∧
    dataOffset State.reset.cfg (0x0010#13).toNat = true := by
  refine ⟨rfl, by decide, by decide, by decide, by decide⟩

theorem test_witness_ControlRegistersReadBack :
    { State.reset with pending := [.read 0x0000#13 4] }.pending = .read 0x0000#13 4 :: [] ∧
    { State.reset with pending := [.read 0x0004#13 4] }.pending = .read 0x0004#13 4 :: [] ∧
    { State.reset with pending := [.read 0x000C#13 4] }.pending = .read 0x000C#13 4 :: [] := ⟨rfl, rfl, rfl⟩

/-- Both clauses: v[0] = 1 and v[0] = 0 with every other bit set. -/
theorem test_witness_StatusWriteOneClears :
    { State.reset with pending := [.write 0x0004#13 4 1#32] }.pending = .write 0x0004#13 4 1#32 :: [] ∧
    (1#32).getLsbD 0 = true ∧ (0xFFFFFFFE#32).getLsbD 0 = false := ⟨rfl, by decide, by decide⟩

theorem test_witness_CfgWriteIsIgnored :
    { State.reset with pending := [.write 0x000C#13 4 0#32] }.pending = .write 0x000C#13 4 0#32 :: [] := rfl

/-- Both clauses: a reset to come from a state with a byte written, and no event to come. -/
theorem test_witness_ResetInputAndIdleStep :
    { beforeGmul with pending := [.reset] }.pending = .reset :: [] ∧ State.reset.pending = [] := ⟨rfl, rfl⟩

/-- A mark recorded, and a step over a reset. -/
theorem test_witness_UninitReadMarkIsSticky :
    { State.reset with modelFault := some (.uninitRead 0x0010), pending := [.reset] }.modelFault
      = some (.uninitRead 0x0010) ∧
    ∃ t, step { State.reset with modelFault := some (.uninitRead 0x0010), pending := [.reset] } = .next t :=
  ⟨rfl, _, rfl⟩

/-- Each clause: a CMD write, a reset, a step that is neither. -/
theorem test_witness_CfgIsConstantAndCmdHoldsTheLastWord :
    (∃ t, step beforeGmul = .next t) ∧ beforeGmul.pending = .write 0x0000#13 4 0x00001212#32 :: [] ∧
    (∃ t, step { beforeGmul with pending := [.reset] } = .next t) ∧
    (∃ t, step { beforeGmul with pending := [.read 0x0000#13 4] } = .next t) := ⟨⟨_, rfl⟩, rfl, ⟨_, rfl⟩, ⟨_, rfl⟩⟩

/-- A faulted state, and a run of one step from it. -/
theorem test_witness_RunsEndAndFaultedStatesAreNeverFinal :
    { beforeGmul with modelFault := some (.uninitRead 0x0010) }.modelFault = some (.uninitRead 0x0010) ∧
    ∃ t : State, Sys2Proof.core.run 1 { beforeGmul with modelFault := some (.uninitRead 0x0010) } = .next t :=
  ⟨rfl, _, rfl⟩

/-- G0 and G1 written, G2 and BLK filled with what a chip might hold, GMUL run, and no UNINIT_READ. -/
theorem test_witness_RunsWithoutUninitReadIgnoreUndefinedBytes :
    Fills beforeGmul (put 0x000A [0x99] (put 0x0010 [0x77] beforeGmul)) ∧
    ∃ t : State, Sys2Proof.core.run 1 beforeGmul = .next t ∧ t.noUninitRead := by
  refine ⟨⟨rfl, rfl, rfl, rfl, rfl, rfl, fun a ha => ?_⟩, _, rfl, by unfold State.noUninitRead; decide +kernel⟩
  have h : a = 0x0008 ∨ a = 0x0009 := by
    by_contra hn
    have h' : ((State.reset.withFetchWord 32 0x00001212).storeAt 0x0008 [0x57#8, 0x83#8]).written a = false :=
      storeAt_written_of_not_mem _ _ _ (by rw [List.length_cons, List.length_singleton]; omega)
    have ha : ((State.reset.withFetchWord 32 0x00001212).storeAt 0x0008 [0x57#8, 0x83#8]).written a = true := ha
    rw [h'] at ha
    cases ha
  rcases h with rfl | rfl <;> decide

/-- The premises that name no build option, and one that does; SRC at the ends of its ranges. -/
theorem test_witness_DecodeOfEncodeIsTheCommand :
    (Instr.ark 10#4).wellFormed = true ∧ (Instr.ark 15#4).wellFormed = true ∧
    optionPresent bare (Instr.ark 10#4).option = true ∧ Instr.hmulb.wellFormed = true ∧
    optionPresent Config.defaultBuild Instr.hmulb.option = true := by decide

theorem test_witness_EncodeOfDecodeIsTheWord :
    decode bare 0x00000F30#32 = .ok (.ark 15#4) ∧ decode Config.defaultBuild 0x00000065#32 = .ok .hmul4 := by
  decide

theorem test_witness_CommandsWriteOnlyTheirListedWrites : Executable .hmul8 State.reset := ⟨rfl, rfl⟩

theorem test_witness_CommandsMarkTheirUndefinedReads : Executable .hmul4 State.reset := ⟨rfl, rfl⟩

/-- Two states that differ in KEY and agree on what ENC lists, and a step of each. -/
theorem test_witness_CommandsDependOnTheirListedReadsOnly :
    State.reset.cfg = (put 0x0020 [0x2B] State.reset).cfg ∧
    (∀ a ∈ listedReads .enc State.reset, State.reset.byteAt a = (put 0x0020 [0x2B] State.reset).byteAt a) ∧
    (∃ t, exec .enc State.reset = .next t) ∧ (∃ t, exec .enc (put 0x0020 [0x2B] State.reset) = .next t) ∧
    Executable .enc State.reset :=
  ⟨rfl, by decide +kernel, ⟨_, rfl⟩, ⟨_, rfl⟩, rfl, rfl⟩

/-- Both clauses: SRC reserved, at both ends, and an option the build lacks. -/
theorem test_witness_UnreachableCommandsTakeTheirError :
    ¬Executable (.ark 11#4) State.reset ∧ ¬Executable (.ark 14#4) State.reset ∧
    ¬Executable .hmulb { State.reset with cfg := bare } := by
  refine ⟨fun h => ?_, fun h => ?_, fun h => ?_⟩
  · exact absurd h.1 (by decide)
  · exact absurd h.1 (by decide)
  · exact absurd h.2 (by decide)

/-- SRC at the ends of its three ranges. -/
theorem test_witness_ArkXorsTheSelectedRoundKey :
    (0#4).toNat ≤ 10 ∧ (10#4).toNat ≤ 10 ∧ 11 ≤ (11#4).toNat ∧ (14#4).toNat ≤ 14 ∧ ¬(15#4).toNat ≤ 14 := by
  decide

theorem test_witness_HmulbMultipliesGxByGh : State.reset.cfg.mulb = true ∧ bare.mulb = false := by decide

theorem test_witness_TableBuildsHoldTheProducts :
    State.reset.cfg.t8 = true ∧ State.reset.cfg.t4 = true ∧ bare.t8 = false ∧ bare.t4 = false := by decide

/-- The builds, and the ends of the range of the byte alone in byte 15. -/
theorem test_witness_TableMultipliesUseTheTableAsItStands :
    State.reset.cfg.t8 = true ∧ State.reset.cfg.t4 = true ∧ bare.t8 = false ∧ bare.t4 = false ∧
    1 ≤ 1 ∧ 255 < 256 := by decide

/-- BLK and SCH written. -/
theorem test_witness_DecIsTheRoundCommandSequence :
    AllWritten (put 0x0010 zeros (put 0x0100 scenario1 State.reset)) 0x0010 16 ∧
    AllWritten (put 0x0010 zeros (put 0x0100 scenario1 State.reset)) 0x0100 176 := by
  have h := (firstUndefined_eq_none (put 0x0010 zeros (put 0x0100 scenario1 State.reset))
    [⟨0x0010, 16⟩, ⟨0x0100, 176⟩]).1 (by decide +kernel)
  exact ⟨h ⟨0x0010, 16⟩ (by simp), h ⟨0x0100, 176⟩ (by simp)⟩

theorem test_witness_NopChangesNothing :
    (State.reset.withFetchWord 32 0).pending = .write 0x0000#13 4 0x00000000#32 :: [] ∧
    (0x00000100#32).toNat % 256 = 0 ∧ (0x00000100#32 : Word) ≠ 0x00000000#32 := ⟨rfl, by decide, by decide⟩

theorem test_witness_ThreeMultiplyCommandsAgree : State.reset.cfg = Config.defaultBuild := rfl

/-- A byte that has an inverse. -/
theorem test_witness_ByteFieldLaws : (0x53#8 : Byte) ≠ 0x00#8 := by decide

/-- The ends of the two ranges of the round constants. -/
theorem test_witness_RconIsWalkedByDoubleAndHalve :
    rcon 2 = gfDouble (rcon 1) ∧ rcon 10 = gfDouble (rcon 9) ∧ rcon 1 = gfHalve (rcon 2) ∧
    rcon 9 = gfHalve (rcon 10) := by decide

end Sys2Proof.Tests
end

section
/-! The host's addresses of the window (R50). -/

namespace Sys2Proof.Proofs
open Sys2Proof Sys2Proof.Machine Sys2Proof.Claims

/-- Settles O14: the window's two bounds are those of a 13-bit offset, so no two offsets share an address. -/
theorem hostAddressesAreBasePlusOffset : Obligations.HostAddressesAreBasePlusOffset := by
  refine ⟨Nat.mul_mod_right _ _, fun off addr => ?_⟩
  have hoff : off.toNat < 0x2000 := off.isLt
  unfold Config.windowOffset
  generalize Config.aesminBase = base
  split
  case isTrue h =>
    rw [Option.some_inj, ← BitVec.toNat_inj, BitVec.toNat_ofNat, Nat.mod_eq_of_lt (by omega)]
    omega
  case isFalse h =>
    simp only [reduceCtorEq, false_iff]
    omega

end Sys2Proof.Proofs
end

section
/-! Commands as plans: the spans a command reads and the bytes it stores. Every command the decoder can give
performs its plan (`exec_eq_perform`); the frame, the mark and the data dependence of all commands are then
facts about plans (R14, R40, R243). -/

namespace Sys2Proof.Proofs

open Sys2Proof Sys2Proof.Machine Sys2Proof.Claims

/-! ### Plans -/

/-- What one command does: it reads these spans in order, then stores these byte strings at their offsets. -/
structure Plan where
  reads  : List Span
  stores : List (Nat × List Byte)

/-- Byte strings stored one after the other. -/
def storeAll (ws : List (Nat × List Byte)) (s : State) : State := ws.foldl (fun s w => s.storeAt w.1 w.2) s

/-- The state after a plan: the reads noted, the stores made. -/
def Plan.perform (p : Plan) (s : State) : State := storeAll p.stores (s.noteReads p.reads)

/-- The offsets a plan reads, in order. -/
def Plan.readOffsets (p : Plan) : List Nat := p.reads.flatMap fun sp => offsets sp.base sp.len

/-- The offsets of some stores. -/
def storeOffsets (ws : List (Nat × List Byte)) : List Nat := ws.flatMap fun w => offsets w.1 w.2.length

/-- `G[RD] <- f(G[RA])`. -/
def scalarUnaryPlan (f : Byte → Byte) (rd ra : GReg) (s : State) : Plan :=
  ⟨[⟨gOffset ra, 1⟩], [(gOffset rd, [f (s.g ra)])]⟩

/-- `BLK <- f(BLK)`. -/
def blockPlan (f : Block → Block) (s : State) : Plan := ⟨[regionSpan .blk], [(0x0010, (f s.blk).toList)]⟩

/-- `KEY <- f(KEY)`. -/
def keyPlan (f : Block → Block) (s : State) : Plan := ⟨[regionSpan .key], [(0x0020, (f s.key).toList)]⟩

/-- `BLK <- f(BLK, SCH)`. -/
def cipherPlan (f : Block → Schedule → Block) (s : State) : Plan :=
  ⟨[regionSpan .blk, regionSpan .sch], [(0x0010, (f s.blk s.sch).toList)]⟩

/-- `BLK, KEY <- f(BLK, KEY)`. -/
def onTheFlyPlan (f : Block → Block → OnTheFly) (s : State) : Plan :=
  ⟨[regionSpan .blk, regionSpan .key],
    [(0x0010, (f s.blk s.key).blk.toList), (0x0020, (f s.blk s.key).walk.key.toList)]⟩

/-- The plan of a command: its rule without the command errors. -/
def plan (i : Instr) (s : State) : Plan :=
  match i with
  | .nop => ⟨[], []⟩
  | .gdbl rd ra => scalarUnaryPlan gfDouble rd ra s
  | .ghlv rd ra => scalarUnaryPlan gfHalve rd ra s
  | .gmul rd ra rb => ⟨[⟨gOffset ra, 1⟩, ⟨gOffset rb, 1⟩], [(gOffset rd, [gfMul (s.g ra) (s.g rb)])]⟩
  | .ginv rd ra => scalarUnaryPlan gfInv rd ra s
  | .sbox rd ra => scalarUnaryPlan sbox rd ra s
  | .isbox rd ra => scalarUnaryPlan sboxInverse rd ra s
  | .subb => blockPlan subBytes s
  | .isubb => blockPlan subBytesInverse s
  | .ark src => ⟨[regionSpan .blk, srcSpan src], [(0x0010, (xorRoundKey s.blk (s.srcKey src)).toList)]⟩
  | .shr => blockPlan shiftRows s
  | .ishr => blockPlan shiftRowsInverse s
  | .mixc => blockPlan mixColumns s
  | .imixc => blockPlan mixColumnsInverse s
  | .kexp => ⟨[regionSpan .key], [(0x0100, (expand s.key).toList)]⟩
  | .kadv rc => keyPlan (fun k => advanceRound k rc) s
  | .kreg rc => keyPlan (fun k => regressRound k rc) s
  | .kdec => keyPlan deriveDecryptStartKey s
  | .enc => cipherPlan encrypt s
  | .dec => cipherPlan decrypt s
  | .encf => onTheFlyPlan encryptOnTheFly s
  | .decf => onTheFlyPlan decryptOnTheFly s
  | .hdbl => ⟨[regionSpan .gx], [(0x0030, (gf128Double s.gx).toList)]⟩
  | .hmulb => ⟨[regionSpan .gx, regionSpan .gh], [(0x0030, (multiplyBitByBit s.gx s.gh).toList)]⟩
  | .ht8b => ⟨[regionSpan .gh], [(0x1000, (buildTable8 s.gh).toList.flatMap fun e => e.toList)]⟩
  | .hmul8 => ⟨regionSpan .gx :: table8Reads s.gx, [(0x0030, (multiplyTable8 s.gx s.t8).toList)]⟩
  | .ht4b =>
    ⟨[regionSpan .gh], [(0x0200, (buildTable4 s.gh).toList.flatMap fun t => t.toList.flatMap fun e => e.toList)]⟩
  | .hmul4 => ⟨regionSpan .gx :: table4Reads s.gx, [(0x0030, (multiplyTable4 s.gx s.t4).toList)]⟩

/-- A command the decoder can give completes, and performs its plan (R243). -/
theorem exec_eq_perform {i : Instr} {s : State} (h : Executable i s) : exec i s = .next ((plan i s).perform s) := by
  obtain ⟨hw, ho⟩ := h
  cases i with
  | nop => exact congrArg Host.Outcome.next (noteReads_nil s).symm
  | ark src => exact if_pos hw
  | hmulb => unfold exec execHmulb; exact ifPresent_pos ho
  | ht8b => unfold exec execHt8b; exact ifPresent_pos ho
  | hmul8 => unfold exec execHmul8; exact ifPresent_pos ho
  | ht4b => unfold exec execHt4b; exact ifPresent_pos ho
  | hmul4 => unfold exec execHmul4; exact ifPresent_pos ho
  | _ => rfl

/-! ### The offsets of a plan are the listed ones -/

theorem mem_offsets {a base len : Nat} : a ∈ offsets base len ↔ base ≤ a ∧ a < base + len := by
  unfold offsets
  rw [List.mem_map]
  constructor
  · rintro ⟨k, hk, rfl⟩
    have := List.mem_range.1 hk
    omega
  · rintro ⟨h1, h2⟩
    exact ⟨a - base, List.mem_range.2 (by omega), by omega⟩

@[simp] theorem offsets_one (base : Nat) : offsets base 1 = [base] := rfl

@[simp] theorem offsets_srcSpan (src : BitVec 4) :
    offsets (srcSpan src).base (srcSpan src).len
      = if src = 15#4 then offsets 0x0020 16 else offsets (0x0100 + 16 * src.toNat) 16 := by
  unfold srcSpan
  split <;> rfl

theorem byte_high_nibble (b : Byte) : (b >>> 4).toNat = b.toNat / 16 := by
  rw [BitVec.toNat_ushiftRight, Nat.shiftRight_eq_div_pow]

theorem byte_low_nibble (b : Byte) : (b &&& 0x0F#8).toNat = b.toNat % 16 := by
  rw [BitVec.toNat_and]
  exact Nat.and_two_pow_sub_one_eq_mod b.toNat 4

/-- The entries of T8 that HMUL8 notes as read are the listed ones (R212). -/
theorem offsets_table8Reads (s : State) :
    ((table8Reads s.gx).flatMap fun sp => offsets sp.base sp.len) = hmul8TableReads s := by
  unfold table8Reads hmul8TableReads
  rw [List.filterMap_eq_flatMap_toList, List.flatMap_assoc]
  refine List.flatMap_congr fun k hk => ?_
  rw [s.byteOf_gx (by simpa using hk)]
  by_cases hv : (s.byteAt (0x0030 + k)).toNat = 0
  · simp [hv]
  · simp [hv, t8Offset]

/-- The entries of T4 that HMUL4 notes as read are the listed ones (R214). -/
theorem offsets_table4Reads (s : State) :
    ((table4Reads s.gx).flatMap fun sp => offsets sp.base sp.len) = hmul4TableReads s := by
  unfold table4Reads hmul4TableReads
  rw [List.flatMap_assoc]
  refine List.flatMap_congr fun k hk => ?_
  rw [s.byteOf_gx (by simpa using hk)]
  simp only [byte_high_nibble, byte_low_nibble, List.flatMap_append]
  congr 1
  · by_cases hv : (s.byteAt (0x0030 + k)).toNat / 16 = 0 <;> simp [hv, t4Offset]
  · by_cases hv : (s.byteAt (0x0030 + k)).toNat % 16 = 0 <;> simp [hv, t4Offset]

/-- A plan reads what its command lists, in the listed order (R14). -/
theorem plan_readOffsets (i : Instr) (s : State) : (plan i s).readOffsets = listedReads i s := by
  cases i with
  | ark src => exact congrArg (offsets 0x0010 16 ++ ·) ((List.append_nil _).trans (offsets_srcSpan src))
  | hmul8 => exact congrArg (offsets 0x0030 16 ++ ·) (offsets_table8Reads s)
  | hmul4 => exact congrArg (offsets 0x0030 16 ++ ·) (offsets_table4Reads s)
  | _ => rfl

/-- A byte string stored whole. -/
theorem storeOffsets_bytes {n : Nat} (base : Nat) (v : Bytes n) :
    storeOffsets [(base, v.toList)] = offsets base n := by
  rw [storeOffsets, List.flatMap_singleton, Vector.length_toList]

/-- A plan stores what its command lists (R14). -/
theorem plan_storeOffsets (i : Instr) (s : State) : storeOffsets (plan i s).stores = listedWrites i := by
  cases i with
  | nop | gdbl | ghlv | gmul | ginv | sbox | isbox => rfl
  | subb | isubb | ark | shr | ishr | mixc | imixc | enc | dec => exact storeOffsets_bytes 0x0010 _
  | kexp => exact storeOffsets_bytes 0x0100 _
  | kadv | kreg | kdec => exact storeOffsets_bytes 0x0020 _
  | encf | decf => simp [plan, onTheFlyPlan, storeOffsets, listedWrites]
  | hdbl | hmulb | hmul8 | hmul4 => exact storeOffsets_bytes 0x0030 _
  | ht8b => rw [plan, storeOffsets, List.flatMap_singleton, table8_bytes_length]; rfl
  | ht4b => rw [plan, storeOffsets, List.flatMap_singleton, table4_bytes_length]; rfl

/-! ### What a plan keeps, and the mark it leaves -/

theorem keptBut_storeAt (s : State) (base : Nat) (bs : List Byte) :
    KeptBut s (s.storeAt base bs) (offsets base bs.length) where
  cmd := rfl
  status := rfl
  cfg := rfl
  pending := rfl
  response := rfl
  byte _ h := storeAt_byteAt_of_not_mem s base bs (mt mem_offsets.2 h)
  written _ h := storeAt_written_of_not_mem s base bs (mt mem_offsets.2 h)
  stored _ h := storeAt_written_of_mem s base bs (mem_offsets.1 h).1 (mem_offsets.1 h).2

theorem keptBut_noteReads (s : State) (reads : List Span) : KeptBut s (s.noteReads reads) [] where
  cmd := noteReads_cmd s reads
  status := noteReads_status s reads
  cfg := noteReads_cfg s reads
  pending := noteReads_pending s reads
  response := noteReads_response s reads
  byte a _ := noteReads_byteAt s reads a
  written a _ := noteReads_written s reads a
  stored _ h := absurd h List.not_mem_nil

/-- Two changes one after the other store at the offsets of both. -/
theorem keptBut_trans {s t u : State} {as bs : List Nat} (h1 : KeptBut s t as) (h2 : KeptBut t u bs) :
    KeptBut s u (as ++ bs) where
  cmd := h2.cmd.trans h1.cmd
  status := h2.status.trans h1.status
  cfg := h2.cfg.trans h1.cfg
  pending := h2.pending.trans h1.pending
  response := h2.response.trans h1.response
  byte a h := by
    rw [List.mem_append, not_or] at h
    exact (h2.byte a h.2).trans (h1.byte a h.1)
  written a h := by
    rw [List.mem_append, not_or] at h
    exact (h2.written a h.2).trans (h1.written a h.1)
  stored a h := by
    by_cases hb : a ∈ bs
    · exact h2.stored a hb
    · rw [h2.written a hb]
      exact h1.stored a ((List.mem_append.1 h).resolve_right hb)

theorem keptBut_storeAll (ws : List (Nat × List Byte)) {s t : State} {as : List Nat} (h : KeptBut s t as) :
    KeptBut s (storeAll ws t) (as ++ storeOffsets ws) := by
  induction ws generalizing t as with
  | nil => simpa [storeAll, storeOffsets] using h
  | cons w ws ih =>
    have := ih (keptBut_trans h (keptBut_storeAt t w.1 w.2))
    rwa [List.append_assoc] at this

@[simp] theorem storeAll_modelFault (ws : List (Nat × List Byte)) (s : State) :
    (storeAll ws s).modelFault = s.modelFault := by
  induction ws generalizing s with
  | nil => rfl
  | cons w ws ih => exact ih (s.storeAt w.1 w.2)

/-- The mark after the reads of a plan is the one the statements write out (R40, log 3). -/
theorem noteReads_mark (p : Plan) (s : State) : (s.noteReads p.reads).modelFault = markAfter s p.readOffsets := by
  rw [noteReads_modelFault, firstUndefined_eq_find]
  unfold markAfter
  cases s.modelFault <;> rfl

/-- No mark stands exactly when none stood and every byte read was written (R40). -/
theorem markAfter_eq_none (s : State) (reads : List Nat) :
    markAfter s reads = none ↔ s.modelFault = none ∧ ∀ a ∈ reads, s.written a = true := by
  unfold markAfter
  cases s.modelFault <;> simp

/-- Every command the decoder can give runs: it changes its listed writes only, and leaves the mark of its
listed reads. -/
theorem runs_plan {i : Instr} {s : State} (h : Executable i s) : Runs i s ((plan i s).perform s) where
  next := exec_eq_perform h
  kept := by
    rw [← plan_storeOffsets i s]
    exact keptBut_storeAll (plan i s).stores (keptBut_noteReads s (plan i s).reads)
  mark := by
    rw [← plan_readOffsets, ← noteReads_mark]
    exact storeAll_modelFault (plan i s).stores _

/-- Settles O22: every such command performs its plan, whose stores are the listed writes. -/
theorem commandsWriteOnlyTheirListedWrites : Obligations.CommandsWriteOnlyTheirListedWrites :=
  fun _ _ h => ⟨_, (runs_plan h).next, (runs_plan h).kept⟩

/-- Settles O23: the reads a plan notes are the listed ones, in order. -/
theorem commandsMarkTheirUndefinedReads : Obligations.CommandsMarkTheirUndefinedReads := by
  intro i s h
  have hr := runs_plan h
  exact ⟨_, hr.next, hr.mark, by rw [hr.mark, markAfter_eq_none]⟩

/-! ### What a plan depends on -/

/-- Stores of the same bytes leave the same bytes at the stored offsets, whatever the states held. -/
theorem storeAll_byteAt_congr (ws : List (Nat × List Byte)) {s t : State} {a : Nat}
    (h : a ∈ storeOffsets ws ∨ s.byteAt a = t.byteAt a) :
    (storeAll ws s).byteAt a = (storeAll ws t).byteAt a := by
  induction ws generalizing s t with
  | nil => exact h.resolve_left List.not_mem_nil
  | cons w ws ih =>
    refine ih (or_iff_not_imp_left.2 fun hws => ?_)
    by_cases hw : w.1 ≤ a ∧ a < w.1 + w.2.length
    · rw [storeAt_byteAt_of_mem s _ _ hw.1 hw.2, storeAt_byteAt_of_mem t _ _ hw.1 hw.2]
    · rw [storeAt_byteAt_of_not_mem s _ _ hw, storeAt_byteAt_of_not_mem t _ _ hw]
      refine h.resolve_left fun ha => ?_
      rcases List.mem_append.1 ha with ha | ha
      · exact hw (mem_offsets.1 ha)
      · exact hws ha

/-- Two states hold the same bytes at some offsets. -/
def AgreeOn (s t : State) (as : List Nat) : Prop := ∀ a ∈ as, s.byteAt a = t.byteAt a

theorem agreeOn_append {s t : State} {as bs : List Nat} :
    AgreeOn s t (as ++ bs) ↔ AgreeOn s t as ∧ AgreeOn s t bs := List.forall_mem_append

section
variable {s t : State}

theorem AgreeOn.bytesAt_eq {base n : Nat} (h : AgreeOn s t (offsets base n)) : s.bytesAt base n = t.bytesAt base n :=
  State.bytesAt_congr fun a h1 h2 => h a (mem_offsets.2 ⟨h1, h2⟩)

theorem AgreeOn.blk_eq (h : AgreeOn s t (offsets 0x0010 16)) : s.blk = t.blk := h.bytesAt_eq
theorem AgreeOn.key_eq (h : AgreeOn s t (offsets 0x0020 16)) : s.key = t.key := h.bytesAt_eq
theorem AgreeOn.gx_eq (h : AgreeOn s t (offsets 0x0030 16)) : s.gx = t.gx := h.bytesAt_eq
theorem AgreeOn.gh_eq (h : AgreeOn s t (offsets 0x0040 16)) : s.gh = t.gh := h.bytesAt_eq
theorem AgreeOn.sch_eq (h : AgreeOn s t (offsets 0x0100 176)) : s.sch = t.sch := h.bytesAt_eq
theorem AgreeOn.g_eq {r : GReg} (h : AgreeOn s t [0x0008 + r.toNat]) : s.g r = t.g r := h _ (List.mem_singleton.2 rfl)

/-- Only the round key that SRC selects is read (R145). -/
theorem AgreeOn.srcKey_eq {src : BitVec 4} (hsrc : srcLegal src = true)
    (h : AgreeOn s t (if src = 15#4 then offsets 0x0020 16 else offsets (0x0100 + 16 * src.toNat) 16)) :
    s.srcKey src = t.srcKey src := by
  unfold State.srcKey
  by_cases hne : src = 15#4
  · rw [if_pos hne] at h
    rw [if_pos hne, if_pos hne, h.key_eq]
  · rw [if_neg hne] at h
    rw [if_neg hne, if_neg hne]
    have hle : src.toNat ≤ 10 := by simpa [srcLegal, hne] using hsrc
    refine bytes_ext fun i hi => ?_
    rw [byteOf_roundKeyOf _ _ hi, byteOf_roundKeyOf _ _ hi, s.byteOf_sch (by omega), t.byteOf_sch (by omega)]
    exact h _ (mem_offsets.2 (by omega))

/-- An entry of T8 read whole. -/
theorem AgreeOn.t8_entry_eq {e : Nat} (he : e < 255) (h : AgreeOn s t (offsets (0x1000 + 16 * e) 16)) :
    entryOf s.t8 e = entryOf t.t8 e := by
  rw [State.t8, State.t8, entryOf_vecOf _ he, entryOf_vecOf _ he]
  exact h.bytesAt_eq

/-- An entry of T4 read whole. -/
theorem AgreeOn.t4_entry_eq {k e : Nat} (hk : k < 2) (he : e < 15)
    (h : AgreeOn s t (offsets (0x0200 + 240 * k + 16 * e) 16)) : entry4Of s.t4 k e = entry4Of t.t4 k e := by
  refine bytes_ext fun j hj => ?_
  rw [entry4Of, entry4Of, s.byteOf_t4 hk he hj, t.byteOf_t4 hk he hj]
  exact h _ (mem_offsets.2 (by omega))

end

theorem forUp_congr {α : Type} {start n : Nat} {f g : Nat → α → α} (a : α)
    (h : ∀ k x, k < n → f (start + k) x = g (start + k) x) : forUp start n f a = forUp start n g a := by
  induction n with
  | zero => rfl
  | succ n ih => rw [forUp_succ, forUp_succ, ih fun k x hk => h k x (by omega), h n _ (by omega)]

theorem forDown_congr {α : Type} {n : Nat} {f g : Nat → α → α} (a : α)
    (h : ∀ k x, k < n → f k x = g k x) : forDown 0 n f a = forDown 0 n g a :=
  forUp_congr a fun k x hk => h _ x (by omega)

/-- The product by T8 uses only the entries that the non-zero bytes select (R205). -/
theorem multiplyTable8_congr {a : Block} {t u : Table8}
    (h : ∀ k, k < 16 → (byteOf a k).toNat ≠ 0 →
      entryOf t ((byteOf a k).toNat - 1) = entryOf u ((byteOf a k).toNat - 1)) :
    multiplyTable8 a t = multiplyTable8 a u := by
  refine forDown_congr _ fun k acc hk => ?_
  by_cases hv : (byteOf a k).toNat = 0
  · simp only [hv, ne_eq, not_true_eq_false, if_false]
  · simp only [hv, ne_eq, not_false_eq_true, if_true, h k hk hv]

/-- The product by T4 uses only the entries that the non-zero nibbles select (R207). -/
theorem multiplyTable4_congr {a : Block} {t u : Table4}
    (hhi : ∀ k, k < 16 → (byteOf a k).toNat / 16 ≠ 0 →
      entry4Of t 0 ((byteOf a k).toNat / 16 - 1) = entry4Of u 0 ((byteOf a k).toNat / 16 - 1))
    (hlo : ∀ k, k < 16 → (byteOf a k).toNat % 16 ≠ 0 →
      entry4Of t 1 ((byteOf a k).toNat % 16 - 1) = entry4Of u 1 ((byteOf a k).toNat % 16 - 1)) :
    multiplyTable4 a t = multiplyTable4 a u := by
  refine forDown_congr _ fun k acc hk => ?_
  simp only [byte_high_nibble, byte_low_nibble]
  have high : ∀ x : Block,
      (if (byteOf a k).toNat / 16 ≠ 0 then xorBytes x (entry4Of t 0 ((byteOf a k).toNat / 16 - 1)) else x)
        = if (byteOf a k).toNat / 16 ≠ 0 then xorBytes x (entry4Of u 0 ((byteOf a k).toNat / 16 - 1)) else x :=
    fun x => ite_congr rfl (fun hv => by rw [hhi k hk hv]) fun _ => rfl
  rw [high]
  exact ite_congr rfl (fun hv => by rw [hlo k hk hv]) fun _ => rfl

theorem AgreeOn.multiplyTable8_eq {s t : State} (h : AgreeOn s t (hmul8TableReads s)) :
    multiplyTable8 s.gx s.t8 = multiplyTable8 s.gx t.t8 := by
  refine multiplyTable8_congr fun k hk hv => ?_
  rw [s.byteOf_gx hk] at hv ⊢
  refine AgreeOn.t8_entry_eq (by have := (s.byteAt (0x0030 + k)).isLt; omega) fun a ha => h a ?_
  exact List.mem_flatMap.2 ⟨k, by simpa using hk, by simpa only [hv, if_false] using ha⟩

theorem AgreeOn.multiplyTable4_eq {s t : State} (h : AgreeOn s t (hmul4TableReads s)) :
    multiplyTable4 s.gx s.t4 = multiplyTable4 s.gx t.t4 := by
  refine multiplyTable4_congr (fun k hk hv => ?_) fun k hk hv => ?_ <;> rw [s.byteOf_gx hk] at hv ⊢ <;>
    have hlt := (s.byteAt (0x0030 + k)).isLt
  · refine AgreeOn.t4_entry_eq (by omega) (by omega) fun a ha => h a ?_
    exact List.mem_flatMap.2 ⟨k, by simpa using hk, List.mem_append_left _ (by simpa only [hv, if_false] using ha)⟩
  · refine AgreeOn.t4_entry_eq (by omega) (by omega) fun a ha => h a ?_
    exact List.mem_flatMap.2 ⟨k, by simpa using hk, List.mem_append_right _ (by simpa only [hv, if_false] using ha)⟩

/-- Where two states agree on what a command lists as its reads, its plan is the same in both (R14). -/
theorem plan_congr {i : Instr} {s t : State} (hw : i.wellFormed = true) (h : AgreeOn s t (listedReads i s)) :
    plan i s = plan i t := by
  cases i with
  | nop => rfl
  | gdbl | ghlv | ginv | sbox | isbox => simp only [plan, scalarUnaryPlan, AgreeOn.g_eq h]
  | gmul rd ra rb =>
    obtain ⟨ha, hb⟩ := agreeOn_append (as := [_]) (bs := [_]).1 h
    simp only [plan, ha.g_eq, hb.g_eq]
  | subb | isubb | shr | ishr | mixc | imixc => simp only [plan, blockPlan, AgreeOn.blk_eq h]
  | ark src =>
    obtain ⟨hb, hk⟩ := agreeOn_append.1 h
    simp only [plan, hb.blk_eq, hk.srcKey_eq hw]
  | kexp => simp only [plan, AgreeOn.key_eq h]
  | kadv | kreg | kdec => simp only [plan, keyPlan, AgreeOn.key_eq h]
  | enc | dec =>
    obtain ⟨hb, hs⟩ := agreeOn_append.1 h
    simp only [plan, cipherPlan, hb.blk_eq, hs.sch_eq]
  | encf | decf =>
    obtain ⟨hb, hk⟩ := agreeOn_append.1 h
    simp only [plan, onTheFlyPlan, hb.blk_eq, hk.key_eq]
  | hdbl => simp only [plan, AgreeOn.gx_eq h]
  | hmulb =>
    obtain ⟨hx, hh⟩ := agreeOn_append.1 h
    simp only [plan, hx.gx_eq, hh.gh_eq]
  | ht8b | ht4b => simp only [plan, AgreeOn.gh_eq h]
  | hmul8 =>
    obtain ⟨hx, ht⟩ := agreeOn_append.1 h
    have hm := ht.multiplyTable8_eq
    rw [hx.gx_eq] at hm
    simp only [plan, hx.gx_eq, hm]
  | hmul4 =>
    obtain ⟨hx, ht⟩ := agreeOn_append.1 h
    have hm := ht.multiplyTable4_eq
    rw [hx.gx_eq] at hm
    simp only [plan, hx.gx_eq, hm]

/-- Settles O24: agreement on the listed reads gives both states one plan. -/
theorem commandsDependOnTheirListedReadsOnly : Obligations.CommandsDependOnTheirListedReadsOnly := by
  rintro i s1 s2 t1 t2 hcfg hagree h1 h2 ⟨hw, ho⟩
  have hplan : plan i s1 = plan i s2 := plan_congr hw hagree
  rw [exec_eq_perform ⟨hw, ho⟩] at h1
  rw [exec_eq_perform ⟨hw, hcfg ▸ ho⟩] at h2
  cases h1
  cases h2
  refine ⟨by rw [← plan_readOffsets, ← plan_readOffsets, hplan], fun a ha => ?_⟩
  rw [← plan_storeOffsets i s1] at ha
  unfold Plan.perform
  rw [← hplan]
  exact storeAll_byteAt_congr _ (.inl ha)

end Sys2Proof.Proofs
end

section
/-! Polynomials over GF(2) given by their coefficient bits, and their residues modulo x^n + r(x), deg r < n:
bytes and elements, and both field doublings, are read through them (R11, R12, R100, R200). -/

namespace Sys2Proof.Proofs

open Polynomial

/-- The polynomial over GF(2) whose coefficient of x^i, i < n, is bit i of `f`. -/
noncomputable def polyOf (n : Nat) (f : Nat → Bool) : (ZMod 2)[X] :=
  ∑ i ∈ Finset.range n, if f i = true then X ^ i else 0

theorem polyOf_congr {n : Nat} {f g : Nat → Bool} (h : ∀ i, i < n → f i = g i) : polyOf n f = polyOf n g :=
  Finset.sum_congr rfl fun i hi => by rw [h i (Finset.mem_range.1 hi)]

theorem polyOf_eq_zero {n : Nat} {f : Nat → Bool} (h : ∀ i, i < n → f i = false) : polyOf n f = 0 :=
  Finset.sum_eq_zero fun i hi => by simp [h i (Finset.mem_range.1 hi)]

/-- The sum of polynomials adds coefficients, that is XORs bits (R13). -/
theorem polyOf_xor (n : Nat) (f g : Nat → Bool) : polyOf n (fun i => f i ^^ g i) = polyOf n f + polyOf n g := by
  unfold polyOf
  rw [← Finset.sum_add_distrib]
  refine Finset.sum_congr rfl fun i _ => ?_
  cases hf : f i <;> cases hg : g i <;> simp [hf, hg, CharTwo.add_self_eq_zero]

/-- A mask of equal bits keeps the polynomial or makes it 0. -/
theorem polyOf_and (n : Nat) (c : Bool) (f : Nat → Bool) :
    polyOf n (fun i => c && f i) = if c = true then polyOf n f else 0 := by
  cases c
  · exact polyOf_eq_zero fun _ _ => rfl
  · rfl

theorem polyOf_succ_last (n : Nat) (f : Nat → Bool) :
    polyOf (n + 1) f = polyOf n f + if f n = true then X ^ n else 0 := Finset.sum_range_succ _ n

/-- The low coefficients and the high ones. -/
theorem polyOf_add (m n : Nat) (f : Nat → Bool) :
    polyOf (m + n) f = polyOf m f + X ^ m * polyOf n fun j => f (m + j) := by
  unfold polyOf
  rw [Finset.sum_range_add, Finset.mul_sum]
  congr 1
  refine Finset.sum_congr rfl fun j _ => ?_
  cases hf : f (m + j) <;> simp [hf, pow_add]

/-- Horner's step: the constant coefficient and the rest. -/
theorem polyOf_succ_first (n : Nat) (f : Nat → Bool) :
    polyOf (n + 1) f = (if f 0 = true then 1 else 0) + X * polyOf n fun j => f (1 + j) := by
  rw [Nat.add_comm, polyOf_add, polyOf_succ_last, pow_one, pow_zero]
  congr 1
  exact zero_add _

/-- The coefficient bits of x·p. -/
def timesX (f : Nat → Bool) (i : Nat) : Bool := decide (i ≠ 0) && f (i - 1)

theorem X_mul_polyOf (n : Nat) (f : Nat → Bool) : X * polyOf n f = polyOf (n + 1) (timesX f) := by
  rw [polyOf_succ_first]
  simp [timesX]

theorem coeff_polyOf (n : Nat) (f : Nat → Bool) {i : Nat} (h : i < n) :
    (polyOf n f).coeff i = if f i = true then 1 else 0 := by
  unfold polyOf
  rw [Polynomial.finsetSum_coeff, Finset.sum_eq_single i]
  · cases f i <;> simp
  · intro j _ hji
    cases f j <;> simp [coeff_X_pow, hji.symm]
  · intro hi
    exact absurd (Finset.mem_range.2 h) hi

theorem degree_polyOf_lt (n : Nat) (f : Nat → Bool) : (polyOf n f).degree < n := by
  refine Polynomial.degree_lt_iff_coeff_zero _ _ |>.2 fun i hi => ?_
  unfold polyOf
  rw [Polynomial.finsetSum_coeff]
  refine Finset.sum_eq_zero fun j hj => ?_
  have hji : i ≠ j := by have := Finset.mem_range.1 hj; omega
  cases f j <;> simp [coeff_X_pow, hji]

theorem polyOf_injective {n : Nat} {f g : Nat → Bool} (h : polyOf n f = polyOf n g) {i : Nat} (hi : i < n) :
    f i = g i := by
  have hc := congrArg (fun p => Polynomial.coeff p i) h
  simp only [coeff_polyOf _ _ hi] at hc
  cases hf : f i <;> cases hg : g i <;> simp [hf, hg] at hc ⊢

/-- Residues are equal when the modulus divides the difference. (`AdjoinRoot.mk_eq_mk` for GF(2): stated again so
that subtraction is the one of the field GF(2), as the statements have it.) -/
theorem residue_eq_iff {m p q : (ZMod 2)[X]} : AdjoinRoot.mk m p = AdjoinRoot.mk m q ↔ m ∣ p - q :=
  AdjoinRoot.mk_eq_mk

/-- The residue of a single bit. -/
theorem mk_bit (m : (ZMod 2)[X]) (c : Bool) :
    AdjoinRoot.mk m (if c = true then 1 else 0) = if c = true then 1 else 0 := by
  cases c
  · exact map_zero _
  · exact map_one _

section
variable {n : Nat} {m : (ZMod 2)[X]} {r : Nat → Bool} (hm : m = X ^ n + polyOf n r)
include hm

/-- The shift of a field doubling: where the leading bit falls out, the modulus less its leading term is added. -/
theorem dvd_double_sub_X_mul (hn : n ≠ 0) {f g : Nat → Bool}
    (hg : ∀ i, i < n → g i = (timesX f i ^^ (f (n - 1) && r i))) : m ∣ polyOf n g - X * polyOf n f := by
  have hlast : timesX f n = f (n - 1) := by simp [timesX, hn]
  rw [polyOf_congr hg, polyOf_xor, polyOf_and, X_mul_polyOf, polyOf_succ_last, hlast, add_sub_add_left_eq_sub]
  cases f (n - 1)
  · simp
  · simp [hm, CharTwo.sub_eq_add, add_comm]

/-- Two polynomials below the modulus are congruent only when they are equal. -/
theorem eq_of_dvd_polyOf_sub {f g : Nat → Bool} (h : m ∣ polyOf n f - polyOf n g) {i : Nat} (hi : i < n) :
    f i = g i := by
  have hdeg : m.degree = n := by
    rw [hm, degree_add_eq_left_of_degree_lt (by rw [degree_X_pow]; exact degree_polyOf_lt n r), degree_X_pow]
  have hlt : (polyOf n f - polyOf n g).degree < m.degree := by
    rw [hdeg]
    exact (degree_sub_le _ _).trans_lt (max_lt (degree_polyOf_lt n f) (degree_polyOf_lt n g))
  exact polyOf_injective (sub_eq_zero.1 (eq_zero_of_dvd_of_degree_lt h hlt)) hi

end

end Sys2Proof.Proofs
end

section
/-! GF(2^8): the bits of the doubling and the halving, and the residues of bytes modulo 0x11B (R100 to R102). -/

namespace Sys2Proof.Proofs

open Sys2Proof Sys2Proof.Machine Sys2Proof.Claims Polynomial

/-- The mask of a bit: 0x00 less the bit (R100 to R102, R200, R203). -/
theorem zero_sub_bit (c : Bool) :
    0#8 - (BitVec.ofBool c).setWidth 8 = if c = true then 0xFF#8 else 0#8 := by cases c <;> rfl

theorem mask_low_bit (b : Byte) : 0#8 - (b &&& 1#8) = if b.getLsbD 0 = true then 0xFF#8 else 0#8 := by
  rw [BitVec.and_one_eq_setWidth_ofBool_getLsbD, zero_sub_bit]

theorem mask_high_bit (b : Byte) : 0#8 - (b >>> 7) = if b.getLsbD 7 = true then 0xFF#8 else 0#8 := by
  have h : b >>> 7 = b >>> 7 &&& 1#8 := by
    refine BitVec.eq_of_getLsbD_eq fun i hi => ?_
    cases i with
    | zero => simp
    | succ i => simp [BitVec.getLsbD_of_ge b (7 + (i + 1)) (by omega)]
  rw [h, mask_low_bit, BitVec.getLsbD_ushiftRight]

/-- A mask keeps a byte or makes it 0. -/
theorem and_mask (c : Bool) (b : Byte) : (b &&& if c = true then 0xFF#8 else 0#8) = if c = true then b else 0#8 := by
  cases c
  · exact BitVec.and_zero
  · exact BitVec.and_allOnes

theorem getLsbD_mask_and (c : Bool) (b : Byte) (i : Nat) :
    ((if c = true then 0xFF#8 else 0#8) &&& b).getLsbD i = (c && b.getLsbD i) := by
  rw [BitVec.and_comm, and_mask]
  cases c <;> simp

/-- The bits of `gf_double` (R100). -/
theorem gfDouble_getLsbD (a : Byte) {i : Nat} (h : i < 8) :
    (gfDouble a).getLsbD i = (timesX a.getLsbD i ^^ (a.getLsbD 7 && (0x1B#8).getLsbD i)) := by
  unfold gfDouble
  simp only [mask_high_bit, BitVec.getLsbD_xor, getLsbD_mask_and, BitVec.getLsbD_shiftLeft]
  cases i <;> simp [timesX, h]

/-- The bits of `gf_halve` (R101). -/
theorem gfHalve_getLsbD (a : Byte) (i : Nat) :
    (gfHalve a).getLsbD i = (a.getLsbD (1 + i) ^^ (a.getLsbD 0 && (0x8D#8).getLsbD i)) := by
  unfold gfHalve
  simp only [mask_low_bit, BitVec.getLsbD_xor, getLsbD_mask_and, BitVec.getLsbD_ushiftRight]

theorem gfHalve_gfDouble (a : Byte) : gfHalve (gfDouble a) = a := by
  refine BitVec.eq_of_getLsbD_eq fun i hi => ?_
  rw [gfHalve_getLsbD, gfDouble_getLsbD a (i := 0) (by omega)]
  rcases Nat.lt_or_ge i 7 with h | h
  · rw [gfDouble_getLsbD a (i := 1 + i) (by omega)]
    interval_cases i <;> simp [timesX]
  · obtain rfl : i = 7 := by omega
    simp [timesX]

theorem gfDouble_gfHalve (a : Byte) : gfDouble (gfHalve a) = a := by
  refine BitVec.eq_of_getLsbD_eq fun i hi => ?_
  rw [gfDouble_getLsbD _ hi, timesX, gfHalve_getLsbD, gfHalve_getLsbD]
  interval_cases i <;> simp

/-- 0x11B is x^8 and the bits of 0x1B (R11). -/
theorem modulus8_eq : modulus8 = X ^ 8 + polyOf 8 (0x1B#8).getLsbD := by
  simp [modulus8, polyOf, Finset.sum_range_succ]
  ring

/-- The residue of a byte modulo 0x11B: the field element it stands for (R11). -/
noncomputable def residue8 (a : Byte) : AdjoinRoot modulus8 := AdjoinRoot.mk modulus8 (poly8 a)

theorem poly8_eq (a : Byte) : poly8 a = polyOf 8 a.getLsbD := rfl

theorem poly8_gfDouble (a : Byte) : modulus8 ∣ poly8 (gfDouble a) - X * poly8 a :=
  dvd_double_sub_X_mul modulus8_eq (by decide) fun _ hi => gfDouble_getLsbD a hi

theorem residue8_gfDouble (a : Byte) : residue8 (gfDouble a) = AdjoinRoot.root modulus8 * residue8 a := by
  rw [residue8, residue8, ← AdjoinRoot.mk_X, ← map_mul, residue_eq_iff]
  exact poly8_gfDouble a

@[simp] theorem residue8_zero : residue8 0#8 = 0 := by
  rw [residue8, poly8_eq, polyOf_eq_zero fun i _ => BitVec.getLsbD_zero, map_zero]

theorem residue8_xor (a b : Byte) : residue8 (a ^^^ b) = residue8 a + residue8 b := by
  rw [residue8, poly8_eq, polyOf_congr fun i _ => BitVec.getLsbD_xor, polyOf_xor, map_add]
  rfl

/-- The loop of R102, n iterations: r and the product of a by the low n bits of b. -/
theorem residue8_gfMulLoop (n : Nat) (a b r : Byte) :
    residue8 (gfMulLoop n a b r) = residue8 r + residue8 a * AdjoinRoot.mk modulus8 (polyOf n b.getLsbD) := by
  induction n generalizing a b r with
  | zero => simp [gfMulLoop, polyOf]
  | succ n ih =>
    have hshift : polyOf n (b >>> 1).getLsbD = polyOf n fun j => b.getLsbD (1 + j) :=
      polyOf_congr fun j _ => BitVec.getLsbD_ushiftRight ..
    rw [gfMulLoop, ih, residue8_xor, mask_low_bit, and_mask, residue8_gfDouble, hshift, polyOf_succ_first, map_add,
      map_mul, mk_bit, AdjoinRoot.mk_X]
    cases b.getLsbD 0
    · simp only [Bool.false_eq_true, if_false, residue8_zero]
      ring
    · simp only [if_true]
      ring

theorem residue8_gfMul (a b : Byte) : residue8 (gfMul a b) = residue8 a * residue8 b := by
  rw [gfMul, residue8_gfMulLoop, residue8_zero, zero_add]
  rfl

/-- Settles O45: `gf_mul` is Horner's scheme for the product, and each step doubles modulo 0x11B. -/
theorem byteProductIsThePolynomialProduct : Obligations.ByteProductIsThePolynomialProduct := by
  refine ⟨fun a b => ?_, poly8_gfDouble, fun a => ⟨gfHalve_gfDouble a, gfDouble_gfHalve a⟩⟩
  rw [← residue_eq_iff, map_mul]
  exact residue8_gfMul a b

end Sys2Proof.Proofs
end

section
/-! GF(2^128): the coefficient bits of an element, its residue modulo x^128 + x^7 + x^2 + x + 1, and its
big-endian integer view (R12, R200, R203). -/

namespace Sys2Proof.Proofs

open Sys2Proof Sys2Proof.Machine Sys2Proof.Claims Polynomial

/-! ### The coefficient bits of an element -/

/-- The coefficient of x^i in an element: bit 7 - (i mod 8) of byte i div 8 (R12). -/
def coeffBit (a : Block) (i : Nat) : Bool := (byteOf a (i / 8)).getLsbD (7 - i % 8)

theorem poly128_eq (a : Block) : poly128 a = polyOf 128 (coeffBit a) := rfl

/-- Bit j of byte k is the coefficient of x^(8k + 7 - j). -/
theorem getLsbD_byteOf (a : Block) (k : Nat) {j : Nat} (hj : j < 8) :
    (byteOf a k).getLsbD j = coeffBit a (8 * k + (7 - j)) := by
  rw [coeffBit, (by omega : (8 * k + (7 - j)) / 8 = k), (by omega : 7 - (8 * k + (7 - j)) % 8 = j)]

/-- Two elements are equal when their coefficients are. -/
theorem block_ext {a b : Block} (h : ∀ i, i < 128 → coeffBit a i = coeffBit b i) : a = b :=
  bytes_ext fun k hk => BitVec.eq_of_getLsbD_eq fun j hj => by
    rw [getLsbD_byteOf a k hj, getLsbD_byteOf b k hj, h _ (by omega)]

theorem coeffBit_xorBytes (a b : Block) {i : Nat} (h : i < 128) :
    coeffBit (xorBytes a b) i = (coeffBit a i ^^ coeffBit b i) := by
  rw [coeffBit, byteOf_xorBytes a b (by omega), BitVec.getLsbD_xor, coeffBit, coeffBit]

theorem coeffBit_zeroBlock (i : Nat) : coeffBit zeroBlock i = false := by
  rw [coeffBit, zeroBlock, byteOf_bytesOf, ite_self, BitVec.getLsbD_zero]

/-- `elem(v)` has its eight coefficients in byte 0. -/
theorem coeffBit_elem (v : Nat) {i : Nat} (h : i < 128) :
    coeffBit (elem v) i = (decide (i < 8) && (BitVec.ofNat 8 v).getLsbD (7 - i)) := by
  rw [coeffBit, elem, block, blockOf, byteOf_bytesOf_lt _ (by omega)]
  by_cases hi : i < 8
  · rw [(by omega : i / 8 = 0), Nat.mod_eq_of_lt hi]
    simp [hi]
  · obtain ⟨k, hk⟩ : ∃ k, i / 8 = k + 1 := ⟨i / 8 - 1, by omega⟩
    simp [hi, hk]

/-- `gf128_double` moves every coefficient up, and adds x^7 + x^2 + x + 1 for the one that falls out (R200). -/
theorem coeffBit_gf128Double (p : Block) {i : Nat} (h : i < 128) :
    coeffBit (gf128Double p) i = (timesX (coeffBit p) i ^^ (coeffBit p 127 && (0x87#8).getLsbD i)) := by
  rw [coeffBit, gf128Double, byteOf_bytesOf_lt _ (by omega), mask_low_bit, getLsbD_byteOf p 15 (by omega)]
  rcases Nat.lt_or_ge i 8 with hi | hi
  · rw [if_pos (by omega), Nat.mod_eq_of_lt hi, BitVec.getLsbD_xor, getLsbD_mask_and, BitVec.getLsbD_ushiftRight]
    congr 1
    · cases i with
      | zero => simp [timesX]
      | succ i =>
        rw [getLsbD_byteOf p 0 (by omega), (by omega : 8 * 0 + (7 - (1 + (7 - (i + 1)))) = i)]
        rfl
    · interval_cases i <;> rfl
  · rw [if_neg (by omega), BitVec.getLsbD_or, BitVec.getLsbD_ushiftRight, BitVec.getLsbD_shiftLeft]
    have hhigh : (0x87#8).getLsbD i = false := BitVec.getLsbD_of_ge _ _ hi
    have hprev : timesX (coeffBit p) i = coeffBit p (i - 1) := by
      rw [timesX, decide_eq_true (by omega), Bool.true_and]
    rw [hhigh, Bool.and_false, Bool.xor_false, hprev]
    by_cases hr : i % 8 = 0
    · rw [hr, getLsbD_byteOf p (i / 8 - 1) (by omega), (by omega : 8 * (i / 8 - 1) + (7 - (7 - 0 - 7)) = i - 1)]
      simp
    · rw [getLsbD_byteOf p (i / 8) (by omega), (by omega : 8 * (i / 8) + (7 - (1 + (7 - i % 8))) = i - 1)]
      simp [(by omega : 7 - i % 8 < 7)]

/-! ### Residues -/

/-- x^128 + x^7 + x^2 + x + 1 is x^128 and the bits of 0x87 (R12). -/
theorem modulus128_eq : modulus128 = X ^ 128 + polyOf 128 (0x87#8).getLsbD := by
  have hhigh : polyOf 120 (fun j => (0x87#8).getLsbD (8 + j)) = 0 :=
    polyOf_eq_zero fun j _ => BitVec.getLsbD_of_ge _ _ (by omega)
  have hlow : polyOf 8 (0x87#8).getLsbD = X ^ 7 + X ^ 2 + X + 1 := by
    simp [polyOf, Finset.sum_range_succ]
    ring
  have hred : polyOf 128 (0x87#8).getLsbD = X ^ 7 + X ^ 2 + X + 1 := by
    rw [← hlow, ← add_zero (polyOf 8 _), ← mul_zero (X ^ 8), ← hhigh]
    exact polyOf_add 8 120 _
  rw [hred]
  unfold modulus128
  simp only [add_assoc]

/-- The residue of an element modulo R12's polynomial: the field element it stands for. -/
noncomputable def residue128 (a : Block) : AdjoinRoot modulus128 := AdjoinRoot.mk modulus128 (poly128 a)

/-- Different elements stand for different field elements. -/
theorem residue128_injective {a b : Block} (h : residue128 a = residue128 b) : a = b := by
  have hdvd := residue_eq_iff.1 h
  rw [poly128_eq, poly128_eq] at hdvd
  exact block_ext fun _ hi => eq_of_dvd_polyOf_sub modulus128_eq hdvd hi

theorem poly128_gf128Double (p : Block) : modulus128 ∣ poly128 (gf128Double p) - X * poly128 p := by
  rw [poly128_eq, poly128_eq]
  exact dvd_double_sub_X_mul modulus128_eq (by omega) fun _ hi => coeffBit_gf128Double p hi

theorem residue128_gf128Double (p : Block) :
    residue128 (gf128Double p) = AdjoinRoot.root modulus128 * residue128 p := by
  rw [residue128, residue128, ← AdjoinRoot.mk_X, ← map_mul, residue_eq_iff]
  exact poly128_gf128Double p

@[simp] theorem residue128_zeroBlock : residue128 zeroBlock = 0 := by
  rw [residue128, poly128_eq, polyOf_eq_zero fun i _ => coeffBit_zeroBlock i, map_zero]

theorem residue128_xorBytes (a b : Block) : residue128 (xorBytes a b) = residue128 a + residue128 b := by
  rw [residue128, poly128_eq, polyOf_congr fun i hi => coeffBit_xorBytes a b hi, polyOf_xor, map_add]
  rfl

/-- `elem(0x80)` is the polynomial 1. -/
theorem residue128_elem_one : residue128 (elem 0x80) = 1 := by
  have hhigh : polyOf 127 (fun j => coeffBit (elem 0x80) (1 + j)) = 0 :=
    polyOf_eq_zero fun j hj => by
      rw [coeffBit_elem _ (by omega)]
      rcases Nat.lt_or_ge j 7 with h | h
      · interval_cases j <;> rfl
      · rw [decide_eq_false (by omega), Bool.false_and]
  have hlow : coeffBit (elem 0x80) 0 = true := coeffBit_elem 0x80 (by omega)
  rw [residue128, poly128_eq, polyOf_succ_first, hhigh, hlow, mul_zero, add_zero, mk_bit]
  rfl

/-! ### The product -/

/-- One step of the product: double, then add B where the bit is set (R203). -/
theorem mulBitStep_eq (a b acc : Block) (i bit : Nat) :
    mulBitStep a b i bit acc
      = if (byteOf a i).getLsbD bit = true then xorBytes (gf128Double acc) b else gf128Double acc := by
  unfold mulBitStep
  simp only [mask_low_bit, BitVec.getLsbD_ushiftRight, Nat.add_zero, and_mask]
  cases (byteOf a i).getLsbD bit
  · simpa using bytesOf_byteOf (gf128Double acc)
  · rfl

/-- Horner's step of the product. -/
theorem residue128_mulBitStep (a b acc : Block) (k : Nat) {bit : Nat} (h : bit < 8) :
    residue128 (mulBitStep a b k bit acc) = AdjoinRoot.root modulus128 * residue128 acc
      + (if coeffBit a (8 * k + (7 - bit)) = true then 1 else 0) * residue128 b := by
  rw [mulBitStep_eq, getLsbD_byteOf a k h]
  split
  · rw [residue128_xorBytes, residue128_gf128Double, one_mul]
  · rw [residue128_gf128Double, zero_mul, add_zero]

/-- The inner loop of R203 after n bits of byte k: Horner's scheme for the coefficients 8k + 8 - n to 8k + 7. -/
theorem residue128_mulByte (a b acc : Block) (k : Nat) {n : Nat} (h : n ≤ 8) :
    residue128 (forUp 0 n (fun bit acc => mulBitStep a b k bit acc) acc)
      = AdjoinRoot.root modulus128 ^ n * residue128 acc
        + AdjoinRoot.mk modulus128 (polyOf n fun j => coeffBit a (8 * k + (8 - n) + j)) * residue128 b := by
  induction n with
  | zero => simp [polyOf]
  | succ n ih =>
    have hrest : polyOf n (fun j => coeffBit a (8 * k + (8 - (n + 1)) + (1 + j)))
        = polyOf n fun j => coeffBit a (8 * k + (8 - n) + j) :=
      polyOf_congr fun j _ => congrArg (coeffBit a) (by omega)
    rw [forUp_succ, residue128_mulBitStep a b _ k (by omega), ih (by omega), polyOf_succ_first, hrest, map_add, map_mul,
      mk_bit, AdjoinRoot.mk_X, (by omega : 8 * k + (8 - (n + 1)) + 0 = 8 * k + (7 - (0 + n)))]
    ring

/-- The outer loop of R203 after n bytes, byte 15 first: the product by the n last bytes of A, read as the
coefficients 128 - 8n to 127. -/
theorem residue128_mulBytes (a b : Block) {n : Nat} (h : n ≤ 16) :
    residue128 (forUp 0 n
        (fun k acc => forUp 0 8 (fun bit acc => mulBitStep a b (0 + 16 - 1 - k) bit acc) acc) zeroBlock)
      = AdjoinRoot.mk modulus128 (polyOf (8 * n) fun j => coeffBit a (8 * (16 - n) + j)) * residue128 b := by
  induction n with
  | zero => simp [polyOf]
  | succ n ih =>
    have hbyte : 0 + 16 - 1 - (0 + n) = 16 - (n + 1) := by omega
    have hrest : polyOf (8 * n) (fun j => coeffBit a (8 * (16 - (n + 1)) + (8 + j)))
        = polyOf (8 * n) fun j => coeffBit a (8 * (16 - n) + j) :=
      polyOf_congr fun j _ => congrArg (coeffBit a) (by omega)
    rw [forUp_succ, residue128_mulByte a b _ _ le_rfl, ih (by omega), (by omega : 8 * (n + 1) = 8 + 8 * n), polyOf_add,
      hrest, map_add, map_mul, map_pow, AdjoinRoot.mk_X, hbyte, add_mul, mul_assoc, add_comm,
      Nat.sub_self, Nat.add_zero]

/-- `multiply_bit_by_bit` is the field product (R201, R203). -/
theorem residue128_multiplyBitByBit (a b : Block) :
    residue128 (multiplyBitByBit a b) = residue128 a * residue128 b := by
  have h := residue128_mulBytes a b (n := 16) le_rfl
  simp only [Nat.sub_self, Nat.mul_zero, Nat.zero_add] at h
  exact h

/-- Settles O56: `multiply_bit_by_bit` is Horner's scheme for the product, and each step doubles modulo R12's
polynomial. -/
theorem elementProductIsThePolynomialProduct : Obligations.ElementProductIsThePolynomialProduct := by
  intro a b
  rw [← residue_eq_iff, map_mul]
  exact residue128_multiplyBitByBit a b

/-! The corner cases of R210, read off the field product. -/

theorem multiplyBitByBit_elem_one (a : Block) : multiplyBitByBit a (elem 0x80) = a :=
  residue128_injective (by rw [residue128_multiplyBitByBit, residue128_elem_one, mul_one])

theorem multiplyBitByBit_zeroBlock (a : Block) : multiplyBitByBit a zeroBlock = zeroBlock :=
  residue128_injective (by rw [residue128_multiplyBitByBit, residue128_zeroBlock, mul_zero])

theorem zeroBlock_multiplyBitByBit (a : Block) : multiplyBitByBit zeroBlock a = zeroBlock :=
  residue128_injective (by rw [residue128_multiplyBitByBit, residue128_zeroBlock, zero_mul])

theorem wordOf_hmulb : WordOf 0x00000061 .hmulb := by
  refine ⟨by decide, fun b hb => ?_⟩
  obtain ⟨mulb, t4, t8⟩ := b
  obtain rfl : mulb = true := hb
  rfl

theorem decode_hmulb_absent {b : Build} (h : b.mulb = false) : decode b 0x00000061#32 = .error .absentVariant := by
  obtain ⟨mulb, t4, t8⟩ := b
  obtain rfl : mulb = false := h
  rfl

/-- Settles O41: HMULB performs its plan, and the corner cases are laws of the field product. -/
theorem hmulbMultipliesGxByGh : Obligations.HmulbMultipliesGxByGh := by
  refine ⟨wordOf_hmulb, fun s hs => ?_, fun _ => decode_hmulb_absent, fun a =>
    ⟨multiplyBitByBit_elem_one a, multiplyBitByBit_zeroBlock a, zeroBlock_multiplyBitByBit a⟩⟩
  exact ⟨_, runs_plan (i := .hmulb) ⟨rfl, hs⟩, storeAt_bytesAt_same _ 0x0030 _⟩

/-! ### The integer view -/

/-- A sum of n digits below 2^8, digit k at weight 2^(8k), and its bits. -/
theorem digits_lt_and_testBit (d : Nat → Byte) (n : Nat) :
    ∑ k ∈ Finset.range n, (d k).toNat * 2 ^ (8 * k) < 2 ^ (8 * n) ∧
    ∀ j, (∑ k ∈ Finset.range n, (d k).toNat * 2 ^ (8 * k)).testBit j
      = (decide (j < 8 * n) && (d (j / 8)).getLsbD (j % 8)) := by
  induction n with
  | zero => simp
  | succ n ih =>
    obtain ⟨hlt, hbit⟩ := ih
    have hd : (d n).toNat < 2 ^ 8 := (d n).isLt
    rw [Finset.sum_range_succ, Nat.add_comm, Nat.mul_comm]
    refine ⟨?_, fun j => ?_⟩
    · calc 2 ^ (8 * n) * (d n).toNat + _ < 2 ^ (8 * n) * (d n).toNat + 2 ^ (8 * n) := Nat.add_lt_add_left hlt _
        _ = 2 ^ (8 * n) * ((d n).toNat + 1) := (Nat.mul_succ _ _).symm
        _ ≤ 2 ^ (8 * n) * 2 ^ 8 := Nat.mul_le_mul_left _ hd
        _ = 2 ^ (8 * (n + 1)) := (pow_add 2 (8 * n) 8).symm
    · rw [Nat.testBit_two_pow_mul_add _ hlt, hbit]
      split
      case isTrue h => rw [decide_eq_true h, decide_eq_true (by omega)]
      case isFalse h =>
        rcases Nat.lt_or_ge j (8 * (n + 1)) with hj | hj
        · rw [decide_eq_true hj, (by omega : j / 8 = n), (by omega : j % 8 = j - 8 * n)]
          rfl
        · rw [decide_eq_false (by omega), Bool.false_and]
          exact BitVec.getLsbD_of_ge (d n) _ (by omega)

/-- Bit j of `int128` is the coefficient of x^(127 - j) (R12). -/
theorem testBit_int128 (a : Block) (j : Nat) :
    (int128 a).testBit j = (decide (j < 128) && coeffBit a (127 - j)) := by
  have hrev : int128 a = ∑ k ∈ Finset.range 16, (byteOf a (15 - k)).toNat * 2 ^ (8 * k) := by
    refine (Finset.sum_range_reflect _ 16).symm.trans (Finset.sum_congr rfl fun k hk => ?_)
    have hk := Finset.mem_range.1 hk
    rw [(by omega : 15 - (16 - 1 - k) = k)]
  rw [hrev, (digits_lt_and_testBit (fun k => byteOf a (15 - k)) 16).2]
  rcases Nat.lt_or_ge j 128 with hj | hj
  · rw [getLsbD_byteOf a _ (by omega), (by omega : 8 * (15 - j / 8) + (7 - j % 8) = 127 - j)]
  · rw [decide_eq_false (by omega), Bool.false_and, Bool.false_and]

/-- 0xE1 in the top byte is x^7 + x^2 + x + 1 in the bit order of R12. -/
theorem testBit_top_byte (j : Nat) :
    (0xE1 * 2 ^ 120).testBit j = (decide (j < 128) && (0x87#8).getLsbD (127 - j)) := by
  rw [Nat.testBit_mul_two_pow]
  rcases Nat.lt_or_ge j 120 with hj | hj
  · rw [decide_eq_false (by omega), BitVec.getLsbD_of_ge _ _ (by omega), Bool.false_and, Bool.and_false]
  rcases Nat.lt_or_ge j 128 with hj' | hj'
  · interval_cases j <;> rfl
  · rw [decide_eq_false (p := j < 128) (by omega), Bool.false_and]
    have hlt : 0xE1 < 2 ^ (j - 120) :=
      (by omega : 0xE1 < 2 ^ 8).trans_le (Nat.pow_le_pow_right (by omega) (by omega))
    rw [Nat.testBit_lt_two_pow hlt, Bool.and_false]

theorem testBit_toNat_mul (c : Bool) (k j : Nat) : (c.toNat * k).testBit j = (c && k.testBit j) := by
  cases c <;> simp

/-- `gf128_double` as an integer: a shift right, and 0xE1 into the top byte for the bit that falls out (R200). -/
theorem int128_gf128Double (p : Block) :
    int128 (gf128Double p) = (int128 p / 2) ^^^ (int128 p % 2 * (0xE1 * 2 ^ 120)) := by
  have hlow : int128 p % 2 = (coeffBit p 127).toNat := by
    rw [← Nat.div_one (int128 p), ← pow_zero 2, ← Nat.toNat_testBit, testBit_int128]
    rfl
  refine Nat.eq_of_testBit_eq fun j => ?_
  rw [hlow, Nat.testBit_xor, testBit_toNat_mul, Nat.testBit_div_two, testBit_top_byte, testBit_int128, testBit_int128]
  rcases Nat.lt_or_ge j 128 with hj | hj
  · have hshift : decide (127 - j ≠ 0) = decide (j + 1 < 128) := decide_eq_decide.2 (by omega)
    rw [coeffBit_gf128Double p (by omega), timesX, hshift, decide_eq_true hj, Bool.true_and, Bool.true_and,
      Nat.sub_sub]
  · rw [decide_eq_false (p := j < 128) (by omega), decide_eq_false (p := j + 1 < 128) (by omega)]
    simp

/-- Settles O55: both readings follow from the coefficients after the doubling. -/
theorem elementDoubleIsTheProductByX : Obligations.ElementDoubleIsTheProductByX :=
  fun p => ⟨int128_gf128Double p, poly128_gf128Double p⟩

end Sys2Proof.Proofs
end

section
/-! The invariant: each shared operation keeps it, so every command's effect does, and every step's (R32, R51, R52,
R241). -/

namespace Sys2Proof.Proofs

open Sys2Proof Sys2Proof.Machine Sys2Proof.Claims

/-! ### STATUS -/

theorem legal_reset : Status.reset.legal := ⟨fun _ => ⟨rfl, rfl⟩, nofun⟩

/-- The first error's capture is legal: its CAUSE is the code of an error of R241. -/
theorem legal_captureError (e : CommandError) (op : Byte) {st : Status} (h : st.legal) :
    (captureError e.code op st).legal := by
  unfold captureError
  split
  · exact h
  · refine ⟨nofun, fun _ => ?_⟩
    cases e
    · exact .inl rfl
    · exact .inr (.inl rfl)
    · exact .inr (.inr rfl)

theorem legal_writeStatus (v : Word) {st : Status} (h : st.legal) : (writeStatus v st).legal := by
  unfold writeStatus
  split
  · exact legal_reset
  · exact h

/-! ### The shared operations -/

section
variable {s : State} (h : s.Inv)
include h

/-- A store into data offsets of the build keeps the list canonical and mapped. -/
theorem inv_storeAt {base : Nat} {bs : List Byte}
    (hd : ∀ a, base ≤ a → a < base + bs.length → dataOffset s.cfg a = true) : (s.storeAt base bs).Inv where
  canonical := Memory.store_wf s.mem base bs h.canonical
  onlyMapped c hc := (Memory.mem_store s.mem base bs c hc).elim (h.onlyMapped c) fun hb => hd c.1 hb.1 hb.2
  legalStatus := h.legalStatus

theorem inv_noteReads (reads : List Span) : (s.noteReads reads).Inv := by
  rw [noteReads_eq]
  exact ⟨h.canonical, h.onlyMapped, h.legalStatus⟩

theorem inv_takeCommandError (e : CommandError) (op : Byte) : (takeCommandError e op s).Inv :=
  ⟨h.canonical, h.onlyMapped, legal_captureError e op h.legalStatus⟩

theorem inv_clearCommandError (v : Word) : (clearCommandError v s).Inv :=
  ⟨h.canonical, h.onlyMapped, legal_writeStatus v h.legalStatus⟩

theorem inv_answer (r : Response) : (s.answer r).Inv := ⟨h.canonical, h.onlyMapped, h.legalStatus⟩

theorem inv_takeEvent (rest : List HostEvent) : State.Inv { s with pending := rest } :=
  ⟨h.canonical, h.onlyMapped, h.legalStatus⟩

theorem inv_takeWord (rest : List HostEvent) (w : Word) :
    State.Inv { s with pending := rest, cmd := w, response := .done } :=
  ⟨h.canonical, h.onlyMapped, h.legalStatus⟩

end

/-- Settles O2: nothing is stored yet, and STATUS is 0. -/
theorem resetMeetsInvariant : Obligations.ResetMeetsInvariant :=
  fun _ => ⟨List.Pairwise.nil, nofun, legal_reset⟩

theorem inv_resetInput (s : State) : (resetInput s).Inv :=
  have h := resetMeetsInvariant s.cfg
  ⟨h.canonical, h.onlyMapped, h.legalStatus⟩

/-! ### Commands and steps -/

/-- Every command's effect keeps the invariant. -/
theorem inv_effect {s t : State} (h : s.Inv) (he : Effect s t) : t.Inv := by
  cases he with
  | nothing => exact h
  | error e op => exact inv_takeCommandError h e op
  | store reads base bs hd => exact inv_storeAt (inv_noteReads h reads) (by simpa using hd)
  | storeTwo reads b1 b2 bs cs h1 h2 =>
    exact inv_storeAt (inv_storeAt (inv_noteReads h reads) (by simpa using h1)) (by simpa using h2)

/-- Every step's effect keeps the invariant. -/
theorem inv_stepEffect {s t : State} (h : s.Inv) (he : StepEffect s t) : t.Inv := by
  cases he with
  | idle => exact h
  | answered rest r reads => exact inv_answer (inv_noteReads (inv_takeEvent h rest) reads) r
  | command rest w _ _ he => exact inv_effect (inv_takeWord h rest w) he
  | statusWrite rest v => exact inv_answer (inv_clearCommandError (inv_takeEvent h rest) v) .done
  | stored rest base bs hd => exact inv_answer (inv_storeAt (inv_takeEvent h rest) hd) .done
  | reset rest => exact inv_resetInput _

/-- Settles O3: a step has one of the listed effects, and each keeps the invariant. -/
theorem everyStepKeepsInvariant : Obligations.EveryStepKeepsInvariant :=
  fun _ _ h hstep => inv_stepEffect h (step_cases hstep)

end Sys2Proof.Proofs
end

section
/-! Words and decoding: the fields of a command word, the word of every command as a number, and when a word
decodes (R71 to R78). -/

namespace Sys2Proof.Proofs

open Sys2Proof Sys2Proof.Machine Sys2Proof.Claims

/-! ### Words put together from fields -/

/-- Two fields side by side, as a number. -/
theorem toNat_append_eq {m n : Nat} (x : BitVec m) (y : BitVec n) : (x ++ y).toNat = x.toNat * 2 ^ n + y.toNat := by
  rw [BitVec.toNat_append, ← Nat.shiftLeft_add_eq_or_of_lt y.isLt, Nat.shiftLeft_eq]

/-- A word is given by its number. -/
theorem word_eq_ofNat {w : Word} {n : Nat} (h : w.toNat = n) : w = BitVec.ofNat 32 n := by
  rw [← h, BitVec.ofNat_toNat, BitVec.setWidth_eq]

theorem formatR1_eq_ofNat (op : Byte) (rd ra : GReg) :
    formatR1 op rd ra = BitVec.ofNat 32 (op.toNat + 256 * rd.toNat + 1024 * ra.toNat) := by
  refine word_eq_ofNat ?_
  simp only [formatR1, toNat_append_eq, BitVec.toNat_ofNat]
  omega

theorem formatR2_eq_ofNat (op : Byte) (rd ra rb : GReg) :
    formatR2 op rd ra rb = BitVec.ofNat 32 (op.toNat + 256 * rd.toNat + 1024 * ra.toNat + 4096 * rb.toNat) := by
  refine word_eq_ofNat ?_
  simp only [formatR2, toNat_append_eq, BitVec.toNat_ofNat]
  omega

/-! ### The fields of a command word (R71) -/

section
variable (op : Byte) (rd ra rb : GReg) (imm8 : Byte) (src : BitVec 4)

theorem rdField_formatR1 : rdField (formatR1 op rd ra) = rd :=
  (BitVec.extractLsb'_append_eq_of_le (by decide)).trans BitVec.extractLsb'_append_eq_right

theorem raField_formatR1 : raField (formatR1 op rd ra) = ra :=
  (BitVec.extractLsb'_append_eq_of_le (by decide)).trans <|
    (BitVec.extractLsb'_append_eq_of_le (by decide)).trans BitVec.extractLsb'_append_eq_right

theorem rdField_formatR2 : rdField (formatR2 op rd ra rb) = rd :=
  (BitVec.extractLsb'_append_eq_of_le (by decide)).trans BitVec.extractLsb'_append_eq_right

theorem raField_formatR2 : raField (formatR2 op rd ra rb) = ra :=
  (BitVec.extractLsb'_append_eq_of_le (by decide)).trans <|
    (BitVec.extractLsb'_append_eq_of_le (by decide)).trans BitVec.extractLsb'_append_eq_right

theorem rbField_formatR2 : rbField (formatR2 op rd ra rb) = rb :=
  (BitVec.extractLsb'_append_eq_of_le (by decide)).trans <|
    (BitVec.extractLsb'_append_eq_of_le (by decide)).trans <|
      (BitVec.extractLsb'_append_eq_of_le (by decide)).trans BitVec.extractLsb'_append_eq_right

theorem immField_formatI : immField (formatI op imm8) = imm8 :=
  (BitVec.extractLsb'_append_eq_of_le (by decide)).trans BitVec.extractLsb'_append_eq_right

theorem srcField_formatK : srcField (formatK op src) = src :=
  (BitVec.extractLsb'_append_eq_of_le (by decide)).trans BitVec.extractLsb'_append_eq_right

end

/-- Every format ends with OP. -/
theorem opField_encode (i : Instr) : opField (encode i) = i.op := by
  cases i <;> exact BitVec.extractLsb'_append_eq_right

/-- The fixed and reserved bits of every command's word are those of its row (R76). -/
theorem encode_mask (i : Instr) : Laws.MatchMask.Statement i := by
  open Laws.MatchMask in
  cases i
  exacts [nop, gdbl _ _, ghlv _ _, gmul _ _ _, ginv _ _, sbox _ _, isbox _ _, subb, isubb, ark _, shr, ishr, mixc,
    imixc, kexp, kadv _, kreg _, kdec, enc, dec, encf, decf, hdbl, hmulb, ht8b, hmul8, ht4b, hmul4]

/-! ### When a word decodes -/

/-- A word decodes by the row of its OP: the build has the option, the bits outside the fields are the row's, and
SRC is legal where there is one (R78). -/
theorem decode_eq_ok_iff {b : Build} {w : Word} {i : Instr} :
    decode b w = .ok i ↔ ∃ r, opMap.find? (fun r => r.op == opField w) = some r ∧
      optionPresent b r.option = true ∧ w &&& r.format.mask = r.op.setWidth 32 ∧
      (r.format = .k → srcLegal (srcField w) = true) ∧ r.make w = i := by
  unfold decode
  cases opMap.find? fun r => r.op == opField w with
  | none => simp
  | some r =>
    simp only [Option.some.injEq, exists_eq_left']
    split
    case isTrue ho => simp [ho]
    split
    case isTrue hm => simp [hm]
    split
    case isTrue hk => simp [hk]
    case isFalse ho hm hk =>
      simp only [Except.ok.injEq]
      refine ⟨fun h => ⟨by simpa using ho, not_not.1 hm, fun hf => ?_, h⟩, fun h => h.2.2.2⟩
      simpa [hf] using hk

/-- The row of a command: its option, its fields, and a legal SRC exactly for a well-formed command (R74, R75). -/
theorem exists_row (i : Instr) : ∃ r, opMap.find? (fun r => r.op == i.op) = some r ∧ r.option = i.option ∧
    (r.format = .k → srcLegal (srcField (encode i)) = i.wellFormed) ∧ r.make (encode i) = i := by
  cases i with
  | gdbl rd ra | ghlv rd ra | ginv rd ra | sbox rd ra | isbox rd ra =>
    exact ⟨_, rfl, rfl, nofun, by simp only [encode, rdField_formatR1, raField_formatR1]⟩
  | gmul rd ra rb =>
    exact ⟨_, rfl, rfl, nofun, by simp only [encode, rdField_formatR2, raField_formatR2, rbField_formatR2]⟩
  | kadv imm8 | kreg imm8 => exact ⟨_, rfl, rfl, nofun, by simp only [encode, immField_formatI]⟩
  | ark src =>
    exact ⟨_, rfl, rfl, fun _ => congrArg srcLegal (srcField_formatK _ src), by simp only [encode, srcField_formatK]⟩
  | _ => exact ⟨_, rfl, rfl, nofun, rfl⟩

/-- The word of a well-formed command decodes to it in every build that has it (R71 to R76). -/
theorem decode_encode {b : Build} {i : Instr} (hw : i.wellFormed = true) (ho : optionPresent b i.option = true) :
    decode b (encode i) = .ok i := by
  obtain ⟨r, hr, hopt, hsrc, hmake⟩ := exists_row i
  obtain ⟨f, hf, hmask⟩ := encode_mask i
  obtain rfl : r.format = f := by simpa [Laws.MatchMask.formatOf, hr] using hf
  refine decode_eq_ok_iff.2 ⟨r, by rw [opField_encode, hr], hopt ▸ ho, ?_, fun hk => (hsrc hk).trans hw, hmake⟩
  rw [hmask, (opMap_find_some hr).2]

/-- The word of a well-formed command, as a number, is a word of it. -/
theorem wordOf_of_encode {w : Nat} {i : Instr} (hw : i.wellFormed = true) (h : encode i = BitVec.ofNat 32 w) :
    WordOf w i :=
  ⟨h, fun _ ho => h ▸ decode_encode hw ho⟩

/-- What a row makes of a word needs the row's option, and is well formed unless its SRC is reserved (R74, R75). -/
theorem row_make {r : OpRow} (h : r ∈ opMap) (w : Word) : (r.make w).option = r.option ∧
    ((r.make w).wellFormed = true ∨ r.format = .k ∧ (r.make w).wellFormed = srcLegal (srcField w)) := by
  revert r
  simp [opMap, Instr.option, Instr.wellFormed]

/-- The decoder gives only well-formed commands of the build (R74, R77). -/
theorem executable_of_decode {s : State} {w : Word} {i : Instr} (h : decode s.cfg w = .ok i) : Executable i s := by
  obtain ⟨r, hr, ho, -, hsrc, rfl⟩ := decode_eq_ok_iff.1 h
  obtain ⟨hopt, hw⟩ := row_make (opMap_find_some hr).1 w
  exact ⟨hw.elim id fun hk => hk.2.trans (hsrc hk.1), hopt ▸ ho⟩

end Sys2Proof.Proofs
end

section
/-! One host access as one step: what each event makes of the registers and the data regions (R31 to R34, R55, R56,
R243). -/

namespace Sys2Proof.Proofs

open Sys2Proof Sys2Proof.Machine Sys2Proof.Claims

/-! ### The step of an event -/

section
variable {s : State} {rest : List HostEvent}

theorem step_idle (h : s.pending = []) : step s = .next s := by
  rw [step, performNext, h]

theorem step_event {e : HostEvent} (h : s.pending = e :: rest) :
    step s = performEvent e { s with pending := rest } := by
  rw [step, performNext, h]

theorem step_read {off : Offset} {n : Nat} (h : s.pending = .read off n :: rest) :
    step s = .next (hostRead off n { s with pending := rest }) := step_event h

theorem step_write {off : Offset} {n : Nat} {v : Word} (h : s.pending = .write off n v :: rest) :
    step s = hostWrite off n v { s with pending := rest } := step_event h

end

/-! ### The control registers -/

/-- A word access to a register passes the checks, and is an access to that register (R51, R54, R57). -/
theorem access_control (b : Build) (r : Region) {off : Offset} (hc : regionControl r = true)
    (ho : off.toNat = regionBase r) : checkAccess b off.toNat 4 = none ∧ regionAt b off.toNat = some r := by
  have hcheck := checkAccess_control b r hc
  rw [ho]
  refine ⟨hcheck, ?_⟩
  cases r with
  | cmd => exact regionAt_cmd b
  | status => exact regionAt_status b
  | cfg => exact regionAt_cfg b
  | _ => cases hc

theorem hostRead_cmd (s : State) : hostRead 0x0000#13 4 s = s.answer (.word s.cmd) := by
  obtain ⟨hcheck, hregion⟩ := access_control s.cfg .cmd (off := 0x0000#13) rfl rfl
  simp only [hostRead, hcheck, hregion]

theorem hostRead_status (s : State) : hostRead 0x0004#13 4 s = s.answer (.word (statusWord s.status)) := by
  obtain ⟨hcheck, hregion⟩ := access_control s.cfg .status (off := 0x0004#13) rfl rfl
  simp only [hostRead, hcheck, hregion]

theorem hostRead_cfg (s : State) : hostRead 0x000C#13 4 s = s.answer (.word (cfgWord s.cfg)) := by
  obtain ⟨hcheck, hregion⟩ := access_control s.cfg .cfg (off := 0x000C#13) rfl rfl
  simp only [hostRead, hcheck, hregion]

theorem hostWrite_status (v : Word) (s : State) :
    hostWrite 0x0004#13 4 v s = .next ((clearCommandError v s).answer .done) := by
  obtain ⟨hcheck, hregion⟩ := access_control s.cfg .status (off := 0x0004#13) rfl rfl
  simp only [hostWrite, hcheck, hregion]

theorem hostWrite_cfg (v : Word) (s : State) : hostWrite 0x000C#13 4 v s = .next (s.answer .done) := by
  obtain ⟨hcheck, hregion⟩ := access_control s.cfg .cfg (off := 0x000C#13) rfl rfl
  simp only [hostWrite, hcheck, hregion]

theorem statusWord_eq_ofNat (st : Status) :
    statusWord st = BitVec.ofNat 32 (st.err.toNat + 256 * st.cause.toNat + 65536 * st.eop.toNat) := by
  refine word_eq_ofNat ?_
  simp only [statusWord, toNat_append_eq, BitVec.toNat_ofNat, BitVec.toNat_ofBool]
  omega

theorem cfgWord_eq_ofNat (b : Build) :
    cfgWord b = BitVec.ofNat 32 (b.mulb.toNat + 2 * b.t4.toNat + 4 * b.t8.toNat) := by
  refine word_eq_ofNat ?_
  simp only [cfgWord, toNat_append_eq, BitVec.toNat_ofNat, BitVec.toNat_ofBool]
  omega

/-- Settles O10: a word read of each register answers it, and both register words are their fields' numbers. -/
theorem controlRegistersReadBack : Obligations.ControlRegistersReadBack := by
  intro s rest
  refine ⟨fun h => ?_, fun h => ?_, fun h => ?_⟩
  · rw [step_read h, hostRead_cmd]
    rfl
  · rw [step_read h, hostRead_status, statusWord_eq_ofNat]
    rfl
  · rw [step_read h, hostRead_cfg, cfgWord_eq_ofNat]
    rfl

/-- Settles O11: the write is `writeStatus`, whose two cases are those of the statement. -/
theorem statusWriteOneClears : Obligations.StatusWriteOneClears := by
  intro s rest v h
  rw [step_write h, hostWrite_status]
  refine ⟨fun hv => ?_, fun hv => ?_⟩
  · rw [clearCommandError, writeStatus, if_pos hv]
    rfl
  · rw [clearCommandError, writeStatus, if_neg (by rw [hv]; decide)]
    rfl

/-- Settles O12: a CFG write only answers. -/
theorem cfgWriteIsIgnored : Obligations.CfgWriteIsIgnored := by
  intro s rest v h
  rw [step_write h, hostWrite_cfg]
  rfl

/-! ### The CMD write -/

/-- A CMD write is `on_cmd_write` (R31, R243). -/
theorem step_cmdWrite {s : State} {rest : List HostEvent} {w : Word} (h : s.pending = .write 0x0000#13 4 w :: rest) :
    step s = onCmdWrite w { s with pending := rest } := by
  rw [step_write h, hostWrite_cmd]

theorem onCmdWrite_ok {s : State} {w : Word} {i : Instr} (h : decode s.cfg w = .ok i) :
    onCmdWrite w s = exec i { s with cmd := w, response := .done } := by
  simp only [onCmdWrite, h]

theorem onCmdWrite_error {s : State} {w : Word} {e : CommandError} (h : decode s.cfg w = .error e) :
    onCmdWrite w s = .next (takeCommandError e (opField w) { s with cmd := w, response := .done }) := by
  simp only [onCmdWrite, h]

/-- Settles O4: `on_cmd_write` of a word that decodes is `exec`. -/
theorem stepRunsTheDecodedCommand : Obligations.StepRunsTheDecodedCommand :=
  fun s rest _ _ h hd => (step_cmdWrite h).trans (onCmdWrite_ok (s := { s with pending := rest }) hd)

/-- No step changes CFG (R34). -/
theorem stepEffect_cfg {s t : State} (h : StepEffect s t) : t.cfg = s.cfg := by
  cases h with
  | command _ _ _ _ he => exact he.fields.2.1
  | answered rest r reads => exact noteReads_cfg _ reads
  | _ => rfl

/-- A step that takes no CMD write and no reset leaves CMD (R31). -/
theorem stepEffect_cmd {s t : State} (h : StepEffect s t)
    (hw : ¬∃ w rest, s.pending = .write 0x0000#13 4 w :: rest) (hr : ¬∃ rest, s.pending = .reset :: rest) :
    t.cmd = s.cmd := by
  cases h with
  | command rest w _ hp => exact absurd ⟨w, rest, hp⟩ hw
  | reset rest hp => exact absurd ⟨rest, hp⟩ hr
  | answered rest r reads => exact noteReads_cmd _ reads
  | _ => rfl

/-- Settles O17: a CMD write stores the word and its command keeps it; a reset and every other step are read off
their effect. -/
theorem cfgIsConstantAndCmdHoldsTheLastWord : Obligations.CfgIsConstantAndCmdHoldsTheLastWord := by
  intro s t h
  refine ⟨stepEffect_cfg (step_cases h), fun w rest hp => ?_, fun rest hp => ?_, stepEffect_cmd (step_cases h)⟩
  · obtain ⟨u, hu, he⟩ := onCmdWrite_effect w { s with pending := rest }
    rw [step_cmdWrite hp, hu] at h
    cases h
    exact he.fields.1
  · rw [step_event hp] at h
    cases h
    rfl

/-! ### The data regions -/

/-- CMD, STATUS and CFG are at no data offset (R51). -/
theorem dataOffset_control {b : Build} {a : Nat} {r : Region} (h : regionAt b a = some r)
    (hc : regionControl r = true) : dataOffset b a = false := by
  simp [dataOffset, h, hc]

theorem dataOffset_cmd (b : Build) : dataOffset b 0x0000 = false :=
  dataOffset_control (regionAt_cmd b) rfl
theorem dataOffset_status (b : Build) : dataOffset b 0x0004 = false :=
  dataOffset_control (regionAt_status b) rfl
theorem dataOffset_cfg (b : Build) : dataOffset b 0x000C = false :=
  dataOffset_control (regionAt_cfg b) rfl

section
variable {s : State} {off : Offset} {n : Nat} (hc : checkAccess s.cfg off.toNat n = none)
  (hd : dataOffset s.cfg off.toNat = true)
include hc hd

/-- A read that passes the checks at a data offset notes its bytes and answers them (R55). -/
theorem hostRead_data : hostRead off n s = (s.noteReads [⟨off.toNat, n⟩]).answer
    (if n = 1 then .byte (s.byteAt off.toNat) else .word (s.wordAt off.toNat)) := by
  rcases hostRead_cases off n s with ⟨e, he, -⟩ | ⟨-, rfl, -⟩ | ⟨-, rfl, -⟩ | ⟨-, rfl, -⟩ | ⟨-, -, h⟩
  · simp [hc] at he
  · simp [dataOffset_cmd] at hd
  · simp [dataOffset_status] at hd
  · simp [dataOffset_cfg] at hd
  · exact h

/-- A write that passes the checks at a data offset stores its bytes (R56). -/
theorem hostWrite_data (v : Word) : hostWrite off n v s
    = .next ((s.storeAt off.toNat ((List.range n).map (byteOfWord v))).answer .done) := by
  rcases hostWrite_cases off n v s with ⟨e, he, -⟩ | ⟨-, rfl, -⟩ | ⟨-, rfl, -⟩ | ⟨-, rfl, -⟩ | ⟨-, -, h⟩
  · simp [hc] at he
  · simp [dataOffset_cmd] at hd
  · simp [dataOffset_status] at hd
  · simp [dataOffset_cfg] at hd
  · exact h

end

theorem byteOfWord_eq_ofNat (v : Word) (k : Nat) : byteOfWord v k = BitVec.ofNat 8 (v.toNat / 256 ^ k) := by
  rw [byteOfWord, BitVec.extractLsb', Nat.shiftRight_eq_div_pow, pow_mul]
  rfl

theorem wordOfBytes_eq_ofNat (b0 b1 b2 b3 : Byte) : wordOfBytes b0 b1 b2 b3
    = BitVec.ofNat 32 (b0.toNat + 256 * b1.toNat + 65536 * b2.toNat + 16777216 * b3.toNat) := by
  refine word_eq_ofNat ?_
  simp only [wordOfBytes, toNat_append_eq]
  omega

/-- Settles O8: the write is one store at its offset, and a store keeps every other byte and register. -/
theorem hostWriteStoresItsBytesOnly : Obligations.HostWriteStoresItsBytesOnly := by
  intro s rest off n v h hc hd
  have hk := keptBut_storeAt { s with pending := rest } off.toNat ((List.range n).map (byteOfWord v))
  rw [List.length_map, List.length_range] at hk
  refine ⟨_, (step_write h).trans (hostWrite_data (s := { s with pending := rest }) hc hd v), fun k hlt => ?_,
    fun a h1 h2 => hk.stored a (mem_offsets.2 ⟨h1, h2⟩), fun a ha => ?_, hk.cmd, hk.status, hk.cfg, rfl, hk.pending,
    rfl⟩
  · rw [answer_byteAt, storeAt_byteAt_of_mem _ _ _ (by omega) (by simpa using hlt), Nat.add_sub_cancel_left,
      getD_map_range, if_pos hlt, byteOfWord_eq_ofNat]
  · have hout : a ∉ offsets off.toNat n := by rw [mem_offsets]; omega
    exact ⟨hk.byte a hout, hk.written a hout⟩

/-- Settles O9: the read notes its bytes, which changes the mark at most, and answers them. -/
theorem hostReadReturnsTheBytes : Obligations.HostReadReturnsTheBytes := by
  intro s rest off n h hc hd
  have hk := keptBut_noteReads { s with pending := rest } [⟨off.toNat, n⟩]
  have hread := hostRead_data (s := { s with pending := rest }) hc hd
  refine ⟨_, (step_read h).trans (congrArg _ hread), fun hn => ?_, fun hn => ?_, ?_, hk.cmd, hk.status, hk.cfg,
    noteReads_mem _ _, hk.pending⟩
  · subst hn
    rfl
  · subst hn
    exact congrArg Response.word (wordOfBytes_eq_ofNat _ _ _ _)
  · have hm := noteReads_mark ⟨[⟨off.toNat, n⟩], []⟩ { s with pending := rest }
    rw [Plan.readOffsets, List.flatMap_singleton] at hm
    exact hm

end Sys2Proof.Proofs
end

section
/-! Runs: they end with their events, the UNINIT_READ mark outlives them, and without the mark they do not depend on
what undefined bytes held (R40, R247, R286). -/

namespace Sys2Proof.Proofs

open Sys2Proof Sys2Proof.Machine Sys2Proof.Claims

/-! ### The end of a run, and the mark -/

/-- A run of as many steps as there are events to come takes them all. -/
theorem run_pending_ends (s : State) :
    ∃ t : State, Sys2Proof.core.run s.pending.length s = .next t ∧ t.pending = [] := by
  induction hn : s.pending.length generalizing s with
  | zero => exact ⟨s, rfl, List.eq_nil_of_length_eq_zero hn⟩
  | succ n ih =>
    obtain ⟨u, hu, -⟩ := step_effect s
    obtain ⟨t, ht, hend⟩ := ih u (by rw [step_pending hu, List.length_tail, hn]; rfl)
    exact ⟨t, (core_run_succ hu n).trans ht, hend⟩

/-- A recorded mark outlives every step (R247). -/
theorem stepEffect_sticky {s t : State} {f : Fault} (h : StepEffect s t) (hf : s.modelFault = some f) :
    t.modelFault = some f := by
  cases h with
  | command _ _ _ _ he => exact he.sticky hf
  | answered rest r reads => exact noteReads_sticky reads hf
  | _ => exact hf

/-- A recorded mark outlives every run. -/
theorem run_sticky {k : Nat} {s t : State} {f : Fault} (hf : s.modelFault = some f)
    (h : Sys2Proof.core.run k s = .next t) : t.modelFault = some f :=
  run_induction (core := Sys2Proof.core) (fun s : State => s.modelFault = some f)
    (fun _ _ hf hstep => stepEffect_sticky (step_cases hstep) hf) k s t hf h

theorem not_isFinal_of_mark {s : State} {f : Fault} (h : s.modelFault = some f) : ¬s.IsFinal :=
  fun hfinal => nomatch h.symm.trans hfinal.2

/-- Settles O59: each step takes an event, and the mark outlives every run. -/
theorem runsEndAndFaultedStatesAreNeverFinal : Obligations.RunsEndAndFaultedStatesAreNeverFinal := by
  refine ⟨fun s => ?_, fun s f hf => ⟨not_isFinal_of_mark hf, fun k t h => not_isFinal_of_mark (run_sticky hf h)⟩⟩
  obtain ⟨t, ht, hend⟩ := run_pending_ends s
  exact ⟨t, ht, hend, fun h => h.2, fun h => ⟨hend, h⟩⟩

/-! ### Filled states: what the shared operations keep -/

section
variable {s t : State} (h : Fills s t)
include h

theorem fills_answer (r : Response) : Fills (s.answer r) (t.answer r) := { h with response := rfl }

theorem fills_takeEvent (rest : List HostEvent) : Fills { s with pending := rest } { t with pending := rest } :=
  { h with pending := rfl }

theorem fills_takeWord (w : Word) :
    Fills { s with cmd := w, response := .done } { t with cmd := w, response := .done } :=
  { h with cmd := rfl, response := rfl }

theorem fills_takeCommandError (e : CommandError) (op : Byte) :
    Fills (takeCommandError e op s) (takeCommandError e op t) :=
  { h with status := congrArg (captureError e.code op) h.status }

theorem fills_clearCommandError (v : Word) : Fills (clearCommandError v s) (clearCommandError v t) :=
  { h with status := congrArg (writeStatus v) h.status }

theorem fills_resetInput : Fills (resetInput s) (resetInput t) where
  cmd := rfl
  status := rfl
  cfg := h.cfg
  modelFault := h.modelFault
  pending := h.pending
  response := rfl
  byte _ ha := nomatch ha

/-- The same bytes stored are defined in both, and the others are as before. -/
theorem fills_storeAt (base : Nat) (bs : List Byte) : Fills (s.storeAt base bs) (t.storeAt base bs) where
  cmd := h.cmd
  status := h.status
  cfg := h.cfg
  modelFault := h.modelFault
  pending := h.pending
  response := h.response
  byte a ha := by
    by_cases hin : base ≤ a ∧ a < base + bs.length
    · rw [storeAt_byteAt_of_mem s _ _ hin.1 hin.2, storeAt_byteAt_of_mem t _ _ hin.1 hin.2]
      exact ⟨storeAt_written_of_mem t _ _ hin.1 hin.2, rfl⟩
    · rw [storeAt_written_of_not_mem s _ _ hin] at ha
      rw [storeAt_written_of_not_mem t _ _ hin, storeAt_byteAt_of_not_mem s _ _ hin,
        storeAt_byteAt_of_not_mem t _ _ hin]
      exact h.byte a ha

theorem fills_storeAll (ws : List (Nat × List Byte)) : Fills (storeAll ws s) (storeAll ws t) := by
  induction ws generalizing s t with
  | nil => exact h
  | cons w ws ih => exact ih (fills_storeAt h w.1 w.2)

/-- Reads that leave no mark are of defined bytes, so they leave none in the filled state either. -/
theorem fills_noteReads {reads : List Span} (hm : (s.noteReads reads).modelFault = none) :
    Fills (s.noteReads reads) (t.noteReads reads) := by
  obtain ⟨hs, hw⟩ := (noteReads_none s reads).1 hm
  have ht : (t.noteReads reads).modelFault = none :=
    (noteReads_none t reads).2 ⟨h.modelFault.trans hs, fun sp hsp a h1 h2 => (h.byte a (hw sp hsp a h1 h2)).1⟩
  rw [noteReads_eq s, noteReads_eq t, hm, ht]
  exact { h with modelFault := rfl }

end

/-! ### Filled states: commands and events -/

/-- A command that leaves no mark does the same in a filled state: the bytes it reads are defined. -/
theorem fills_exec {i : Instr} {s t u : State} (h : Fills s t) (hi : Executable i s) (hu : exec i s = .next u)
    (hm : u.modelFault = none) : ∃ v, exec i t = .next v ∧ Fills u v := by
  rw [exec_eq_perform hi] at hu
  cases hu
  have hreads : ((s.noteReads (plan i s).reads)).modelFault = none := (storeAll_modelFault _ _).symm.trans hm
  have hagree : AgreeOn s t (listedReads i s) := by
    rw [noteReads_mark, markAfter_eq_none, plan_readOffsets] at hreads
    exact fun a ha => (h.byte a (hreads.2 a ha)).2.symm
  have hplan : plan i s = plan i t := plan_congr hi.1 hagree
  refine ⟨_, exec_eq_perform ⟨hi.1, h.cfg ▸ hi.2⟩, ?_⟩
  rw [← hplan]
  exact fills_storeAll (fills_noteReads h hreads) _

theorem fills_onCmdWrite {w : Word} {s t u : State} (h : Fills s t) (hu : onCmdWrite w s = .next u)
    (hm : u.modelFault = none) : ∃ v, onCmdWrite w t = .next v ∧ Fills u v := by
  have hw := fills_takeWord h w
  cases hd : decode s.cfg w with
  | error e =>
    rw [onCmdWrite_error hd] at hu
    cases hu
    exact ⟨_, onCmdWrite_error (h.cfg ▸ hd), fills_takeCommandError hw e _⟩
  | ok i =>
    rw [onCmdWrite_ok hd] at hu
    rw [onCmdWrite_ok (h.cfg ▸ hd)]
    exact fills_exec hw (executable_of_decode (s := { s with cmd := w, response := .done }) hd) hu hm

/-- A read that leaves no mark answers the same in a filled state. -/
theorem fills_hostRead {off : Offset} {n : Nat} {s t : State} (h : Fills s t)
    (hm : (hostRead off n s).modelFault = none) : Fills (hostRead off n s) (hostRead off n t) := by
  rcases hostRead_cases off n s with ⟨e, hc, hs⟩ | ⟨rfl, rfl, -⟩ | ⟨rfl, rfl, -⟩ | ⟨rfl, rfl, -⟩ | ⟨hc, hd, hs⟩
  · have ht : hostRead off n t = t.answer (.busError e off n) := by rw [hostRead, h.cfg, hc]
    rw [hs, ht]
    exact fills_answer h _
  · rw [hostRead_cmd, hostRead_cmd, h.cmd]
    exact fills_answer h _
  · rw [hostRead_status, hostRead_status, h.status]
    exact fills_answer h _
  · rw [hostRead_cfg, hostRead_cfg, h.cfg]
    exact fills_answer h _
  · rw [hs] at hm
    obtain ⟨-, hw⟩ := (noteReads_none s _).1 hm
    have hbyte : ∀ k, k < n → t.byteAt (off.toNat + k) = s.byteAt (off.toNat + k) := fun k hk =>
      (h.byte _ (hw _ (List.mem_singleton.2 rfl) _ (by simp) (by simpa using hk))).2
    have hanswer : (if n = 1 then Response.byte (t.byteAt off.toNat) else .word (t.wordAt off.toNat))
        = if n = 1 then .byte (s.byteAt off.toNat) else .word (s.wordAt off.toNat) := by
      rcases ((checkAccess_eq_none _ _ _).1 hc).1 with rfl | rfl
      · exact congrArg Response.byte (hbyte 0 (by omega))
      · exact congrArg Response.word (by
          rw [State.wordAt, State.wordAt, hbyte 1 (by omega), hbyte 2 (by omega), hbyte 3 (by omega),
            show t.byteAt off.toNat = s.byteAt off.toNat from hbyte 0 (by omega)])
    rw [hs, hostRead_data (s := t) (by rw [h.cfg, hc]) (by rw [h.cfg, hd]), hanswer]
    exact fills_answer (fills_noteReads h hm) _

theorem fills_hostWrite {off : Offset} {n : Nat} {v : Word} {s t u : State} (h : Fills s t)
    (hu : hostWrite off n v s = .next u) (hm : u.modelFault = none) :
    ∃ x, hostWrite off n v t = .next x ∧ Fills u x := by
  rcases hostWrite_cases off n v s with
    ⟨e, hc, hs⟩ | ⟨rfl, rfl, hs⟩ | ⟨rfl, rfl, hs⟩ | ⟨rfl, rfl, hs⟩ | ⟨hc, hd, hs⟩ <;> rw [hs] at hu
  · cases hu
    exact ⟨_, by rw [hostWrite, h.cfg, hc], fills_answer h _⟩
  · rw [hostWrite_cmd]
    exact fills_onCmdWrite h hu hm
  · cases hu
    exact ⟨_, hostWrite_status v t, fills_answer (fills_clearCommandError h v) _⟩
  · cases hu
    exact ⟨_, hostWrite_cfg v t, fills_answer h _⟩
  · cases hu
    have hn := ((checkAccess_eq_none _ _ _).1 hc).1
    refine ⟨_, hostWrite_data (s := t) (by rw [h.cfg, hc]) ?_ v, fills_answer (fills_storeAt h _ _) _⟩
    rw [h.cfg]
    exact hd _ le_rfl (by omega)

/-- A step that leaves no mark does the same in a filled state. -/
theorem fills_step {s t u : State} (h : Fills s t) (hu : step s = .next u) (hm : u.modelFault = none) :
    ∃ v, step t = .next v ∧ Fills u v := by
  cases hp : s.pending with
  | nil =>
    rw [step_idle hp] at hu
    cases hu
    exact ⟨t, step_idle (h.pending.trans hp), h⟩
  | cons e rest =>
    rw [step_event hp] at hu
    rw [step_event (h.pending.trans hp)]
    have hr := fills_takeEvent h rest
    cases e with
    | read off n =>
      cases hu
      exact ⟨_, rfl, fills_hostRead hr hm⟩
    | write off n v => exact fills_hostWrite hr hu hm
    | reset =>
      cases hu
      exact ⟨_, rfl, fills_resetInput hr⟩

/-- Settles O60: the mark is sticky, so no step of the run leaves it, and each step does the same in the filled
state. -/
theorem runsWithoutUninitReadIgnoreUndefinedBytes : Obligations.RunsWithoutUninitReadIgnoreUndefinedBytes := by
  intro k
  induction k with
  | zero =>
    intro s1 s2 t1 h ht _
    cases ht
    exact ⟨s2, rfl, h⟩
  | succ k ih =>
    intro s1 s2 t1 h ht hm
    obtain ⟨u1, hu1, -⟩ := step_effect s1
    rw [core_run_succ hu1] at ht
    have hnone : u1.modelFault = none := by
      cases hf : u1.modelFault with
      | none => rfl
      | some f => exact absurd ((run_sticky hf ht).symm.trans hm) nofun
    obtain ⟨u2, hu2, hu⟩ := fills_step h hu1 hnone
    rw [core_run_succ hu2]
    exact ih u1 u2 t1 hu ht hm

end Sys2Proof.Proofs
end

section
/-! The scalar field commands (R105 to R108). -/

namespace Sys2Proof.Proofs

open Sys2Proof Sys2Proof.Machine Sys2Proof.Claims

/-- A byte stored in G[r] reads back. -/
theorem storeAt_g_same (s : State) (r : GReg) (v : Byte) : (s.storeAt (gOffset r) [v]).g r = v := by
  rw [State.g, storeAt_byteAt_of_mem _ _ _ le_rfl (by simp), Nat.sub_self]
  rfl

/-- A command with the plan of a scalar function of one source runs, and G[RD] holds the function of G[RA]. -/
theorem runs_scalarUnary {i : Instr} {f : Byte → Byte} {rd ra : GReg} {s : State} (hi : Executable i s)
    (hp : plan i s = scalarUnaryPlan f rd ra s) : ∃ t, Runs i s t ∧ t.g rd = f (s.g ra) := by
  refine ⟨_, runs_plan hi, ?_⟩
  rw [hp]
  exact storeAt_g_same _ rd _

/-- Settles O27: each command performs its plan, one byte stored in G[RD], computed from the state before. -/
theorem scalarFieldCommandsComputeTheirFunction : Obligations.ScalarFieldCommandsComputeTheirFunction := by
  intro rd ra rb s
  refine ⟨⟨?_, ?_⟩, ⟨?_, ?_⟩, ⟨?_, ?_⟩, ?_, ?_⟩
  · exact wordOf_of_encode rfl (formatR1_eq_ofNat 0x10#8 rd ra)
  · exact runs_scalarUnary ⟨rfl, rfl⟩ rfl
  · exact wordOf_of_encode rfl (formatR1_eq_ofNat 0x11#8 rd ra)
  · exact runs_scalarUnary ⟨rfl, rfl⟩ rfl
  · exact wordOf_of_encode rfl (formatR2_eq_ofNat 0x12#8 rd ra rb)
  · exact ⟨_, runs_plan ⟨rfl, rfl⟩, storeAt_g_same _ rd _⟩
  · exact wordOf_of_encode rfl (formatR1_eq_ofNat 0x13#8 rd ra)
  · exact runs_scalarUnary ⟨rfl, rfl⟩ rfl

end Sys2Proof.Proofs
end

section
/-! The key schedule, word by word and byte by byte, and KEXP (R26, R160 to R162, R167). -/

namespace Sys2Proof.Proofs

open Sys2Proof Sys2Proof.Machine Sys2Proof.Claims

/-! ### The words of the schedule -/

/-- Word `i` of a schedule from the words before it, by the round constant of its round (R162). -/
def nextWord (ws : List Column) (i : Nat) : Column :=
  xorBytes (wordAt ws (i - 4))
    (if i % 4 = 0 then subRotRcon (wordAt ws (i - 1)) (rcon (i / 4)) else wordAt ws (i - 1))

/-- What the loop of `expand` holds after n iterations: 4 + n words, the key's four first, each later one from
those before it, and the round constant of the next round (R162). -/
structure ExpandInv (k : Block) (n : Nat) (e : ExpandState) : Prop where
  length : e.words.length = 4 + n
  rc     : e.rc = gfDouble^[(n + 3) / 4] 0x01#8
  first  : ∀ c, c < 4 → wordAt e.words c = columnOf k c
  later  : ∀ i, 4 ≤ i → i < 4 + n → wordAt e.words i = nextWord e.words i

theorem wordAt_append_lt {ws : List Column} (w : Column) {i : Nat} (h : i < ws.length) :
    wordAt (ws ++ [w]) i = wordAt ws i := by
  unfold wordAt
  simp [List.getD_eq_getElem?_getD, List.getElem?_append_left h]

theorem wordAt_append_length (ws : List Column) (w : Column) : wordAt (ws ++ [w]) ws.length = w := by
  simp [wordAt, List.getD_eq_getElem?_getD]

theorem nextWord_append {ws : List Column} (w : Column) {i : Nat} (h4 : 4 ≤ i) (h : i ≤ ws.length) :
    nextWord (ws ++ [w]) i = nextWord ws i := by
  rw [nextWord, nextWord, wordAt_append_lt w (by omega), wordAt_append_lt w (by omega)]

/-- RCON[r + 1] is 0x01 doubled r times (R160). -/
theorem rcon_succ {r : Nat} (h : r < 10) : rcon (r + 1) = gfDouble^[r] 0x01#8 := by
  revert r
  decide

/-- One iteration appends the next word. -/
theorem expandStep_words {e : ExpandState} {i : Nat} (h : i % 4 = 0 → e.rc = rcon (i / 4)) :
    (expandStep i e).words = e.words ++ [nextWord e.words i] := by
  unfold expandStep nextWord
  split
  case isTrue hi => rw [h hi]
  case isFalse => rfl

/-- One iteration doubles the round constant at the first word of a round. -/
theorem expandStep_rc (i : Nat) (e : ExpandState) :
    (expandStep i e).rc = if i % 4 = 0 then gfDouble e.rc else e.rc := by
  unfold expandStep
  split <;> rfl

theorem expandInv_step {k : Block} {n : Nat} {e : ExpandState} (hn : n < 40) (h : ExpandInv k n e) :
    ExpandInv k (n + 1) (expandStep (4 + n) e) := by
  obtain ⟨hlen, hrc, hfirst, hlater⟩ := h
  have hround : (4 + n) % 4 = 0 → e.rc = rcon ((4 + n) / 4) := fun h0 => by
    rw [hrc, (by omega : (4 + n) / 4 = n / 4 + 1), rcon_succ (by omega), (by omega : (n + 3) / 4 = n / 4)]
  have hwords := expandStep_words hround
  refine ⟨by rw [hwords, List.length_append, hlen]; rfl, ?_, fun c hc => ?_, fun i h4 hi => ?_⟩
  · rw [expandStep_rc, hrc]
    split
    case isTrue h0 => rw [(by omega : (n + 1 + 3) / 4 = (n + 3) / 4 + 1), Function.iterate_succ_apply']
    case isFalse h0 => rw [(by omega : (n + 1 + 3) / 4 = (n + 3) / 4)]
  · rw [hwords, wordAt_append_lt _ (by omega), hfirst c hc]
  · rw [hwords, nextWord_append _ h4 (by omega)]
    rcases Nat.lt_or_ge i (4 + n) with hlt | hge
    · rw [wordAt_append_lt _ (by omega), hlater i h4 hlt]
    · obtain rfl : i = 4 + n := by omega
      rw [← hlen, wordAt_append_length]

theorem expandInv_start (k : Block) :
    ExpandInv k 0 { words := [columnOf k 0, columnOf k 1, columnOf k 2, columnOf k 3], rc := 0x01#8 } where
  length := rfl
  rc := rfl
  first c hc := by interval_cases c <;> rfl
  later i h4 hi := absurd hi (by omega)

/-- The words that `expand` makes (R162). -/
theorem expandInv_expand (k : Block) : ∃ e : ExpandState, expandWords k = e.words ∧ ExpandInv k 40 e :=
  ⟨_, rfl, forUp_induction (ExpandInv k) 4 40 expandStep _ (expandInv_start k) fun _ _ hn h => expandInv_step hn h⟩

theorem expandWords_first (k : Block) {c : Nat} (h : c < 4) : wordAt (expandWords k) c = columnOf k c := by
  obtain ⟨e, he, hinv⟩ := expandInv_expand k
  rw [he, hinv.first c h]

theorem expandWords_later (k : Block) {i : Nat} (h4 : 4 ≤ i) (h : i < 44) :
    wordAt (expandWords k) i = nextWord (expandWords k) i := by
  obtain ⟨e, he, hinv⟩ := expandInv_expand k
  rw [he, hinv.later i h4 h]

/-! ### The bytes of the schedule -/

/-- Byte j of word i of a schedule. -/
theorem byteOf_expand (k : Block) {i j : Nat} (hi : i < 44) (hj : j < 4) :
    byteOf (expand k) (4 * i + j) = byteOf (wordAt (expandWords k) i) j := by
  rw [expand, byteOf_bytesOf_lt _ (by omega), (by omega : (4 * i + j) / 4 = i), (by omega : (4 * i + j) % 4 = j)]

/-- The transformed word, byte by byte (R161, R162). -/
theorem byteOf_subRotRcon (w : Column) (rc : Byte) {j : Nat} (h : j < 4) :
    byteOf (subRotRcon w rc) j = sbox (byteOf w ((j + 1) % 4)) ^^^ (if j = 0 then rc else 0#8) := by
  interval_cases j
  · rfl
  all_goals exact BitVec.xor_zero.symm

/-- The first 16 bytes of a schedule are the key (R162). -/
theorem byteOf_expand_first (k : Block) {j : Nat} (h : j < 16) : byteOf (expand k) j = byteOf k j := by
  have hj : j = 4 * (j / 4) + j % 4 := by omega
  rw [hj, byteOf_expand k (by omega) (by omega), expandWords_first k (by omega), byteOf_columnOf _ _ (by omega)]

/-- Every later byte of a schedule, from the word four before and the word before (R162). -/
theorem byteOf_expand_later (k : Block) {i j : Nat} (h4 : 4 ≤ i) (hi : i < 44) (hj : j < 4) :
    byteOf (expand k) (4 * i + j) = byteOf (expand k) (4 * (i - 4) + j) ^^^
      (if i % 4 = 0 then
        sbox (byteOf (expand k) (4 * (i - 1) + (j + 1) % 4)) ^^^ (if j = 0 then rcon (i / 4) else 0#8)
      else byteOf (expand k) (4 * (i - 1) + j)) := by
  rw [byteOf_expand k hi hj, byteOf_expand k (by omega) hj, byteOf_expand k (by omega) (by omega),
    byteOf_expand k (by omega) hj, expandWords_later k h4 hi, nextWord, byteOf_xorBytes _ _ hj]
  split
  · rw [byteOf_subRotRcon _ _ hj]
  · rfl

/-- Settles O34: KEXP stores `expand` of KEY, whose bytes are read off its words. -/
theorem kexpWritesTheScheduleOfKey : Obligations.KexpWritesTheScheduleOfKey := by
  refine ⟨wordOf_of_encode rfl rfl, fun s => ⟨_, runs_plan (i := .kexp) ⟨rfl, rfl⟩, ?_⟩⟩
  have hsch : ((plan .kexp s).perform s).sch = expand s.key := storeAt_bytesAt_same _ 0x0100 _
  rw [hsch]
  exact ⟨rfl, fun _ hj => byteOf_expand_first s.key hj, fun _ _ h4 hi hj => byteOf_expand_later s.key h4 hi hj⟩

end Sys2Proof.Proofs
end

section
/-! The tables and the table products as field products (R202, R204 to R208). -/

namespace Sys2Proof.Proofs

open Sys2Proof Sys2Proof.Machine Sys2Proof.Claims Polynomial

/-! ### Elements of one byte -/

/-- `elem(v)` stands for the polynomial of its eight bits, bit 7 the constant coefficient (R12). -/
theorem residue128_elem (v : Nat) :
    residue128 (elem v) = AdjoinRoot.mk modulus128 (polyOf 8 fun k => v.testBit (7 - k)) := by
  have hhigh : polyOf 120 (fun j => coeffBit (elem v) (8 + j)) = 0 := polyOf_eq_zero fun j _ => by
    rw [coeffBit_elem v (by omega), decide_eq_false (by omega), Bool.false_and]
  have hlow : polyOf 8 (coeffBit (elem v)) = polyOf 8 fun k => v.testBit (7 - k) := polyOf_congr fun k hk => by
    rw [coeffBit_elem v (by omega), decide_eq_true hk, Bool.true_and, BitVec.getLsbD_ofNat, decide_eq_true (by omega),
      Bool.true_and]
  have hsplit : polyOf 128 (coeffBit (elem v)) = _ := polyOf_add 8 120 _
  rw [residue128, poly128_eq, hsplit, hhigh, hlow, mul_zero, add_zero]

theorem residue128_elem_zero : residue128 (elem 0) = 0 := by
  rw [residue128_elem, polyOf_eq_zero fun _ _ => Nat.zero_testBit _, map_zero]

/-- Byte k of an element, as an element of its own: the coefficients 8k to 8k + 7. -/
theorem residue128_elem_byteOf (a : Block) (k : Nat) :
    residue128 (elem (byteOf a k).toNat) = AdjoinRoot.mk modulus128 (polyOf 8 fun j => coeffBit a (8 * k + j)) := by
  rw [residue128_elem]
  refine congrArg _ (polyOf_congr fun j hj => ?_)
  rw [BitVec.testBit_toNat, getLsbD_byteOf a k (by omega), (by omega : 7 - (7 - j) = j)]

/-- The bits of a byte's high nibble, in place. -/
theorem testBit_high_nibble (n : Nat) {k : Nat} (h : k < 8) :
    (16 * n).testBit (7 - k) = (decide (k / 4 = 0) && n.testBit (3 - k % 4)) := by
  rw [show 16 * n = 2 ^ 4 * n from rfl, Nat.testBit_two_pow_mul]
  rcases Nat.lt_or_ge k 4 with hk | hk
  · rw [decide_eq_true (by omega), decide_eq_true (by omega), (by omega : 7 - k - 4 = 3 - k % 4)]
  · rw [decide_eq_false (by omega), decide_eq_false (by omega), Bool.false_and, Bool.false_and]

/-- The bits of a byte whose high nibble is 0. -/
theorem testBit_low_nibble {n : Nat} (hn : n < 16) {k : Nat} (h : k < 8) :
    n.testBit (7 - k) = (decide (k / 4 = 1) && n.testBit (3 - k % 4)) := by
  rcases Nat.lt_or_ge k 4 with hk | hk
  · rw [decide_eq_false (by omega), Bool.false_and]
    exact Nat.testBit_lt_two_pow ((by omega : n < 2 ^ 4).trans_le (Nat.pow_le_pow_right (by omega) (by omega)))
  · rw [decide_eq_true (by omega), Bool.true_and, (by omega : 7 - k = 3 - k % 4)]

/-- A byte is the sum of its nibbles. -/
theorem residue128_elem_nibbles (v : Nat) :
    residue128 (elem (16 * (v / 16))) + residue128 (elem (v % 16)) = residue128 (elem v) := by
  rw [residue128_elem, residue128_elem, residue128_elem, ← map_add, ← polyOf_xor]
  refine congrArg _ (polyOf_congr fun k hk => ?_)
  rw [testBit_high_nibble _ hk, show v / 16 = v / 2 ^ 4 from rfl, show v % 16 = v % 2 ^ 4 from rfl,
    Nat.testBit_div_two_pow, Nat.testBit_mod_two_pow]
  rcases Nat.lt_or_ge k 4 with h | h
  · rw [decide_eq_true (by omega), decide_eq_false (by omega), (by omega : 3 - k % 4 + 4 = 7 - k)]
    simp
  · rw [decide_eq_false (by omega), decide_eq_true (by omega)]
    simp

/-! ### The tables -/

/-- The residue of an entry after one iteration of a table builder. -/
theorem residue128_addIf {c : Prop} [Decidable c] {b : Bool} (h : c ↔ b = true) (x v : Block) :
    residue128 (if c then xorBytes x v else x) = residue128 x + (if b = true then 1 else 0) * residue128 v := by
  by_cases hc : c
  · rw [if_pos hc, if_pos (h.1 hc), residue128_xorBytes, one_mul]
  · rw [if_neg hc, if_neg (mt h.2 hc), zero_mul, add_zero]

/-- An entry takes V = H·x^n as its next term where its bit is set. -/
theorem residue128_nextTerm {c : Prop} [Decidable c] {f : Nat → Bool} {n : Nat} (hc : c ↔ f n = true) {x v h : Block}
    (hx : residue128 x = AdjoinRoot.mk modulus128 (polyOf n f) * residue128 h)
    (hv : residue128 v = AdjoinRoot.root modulus128 ^ n * residue128 h) :
    residue128 (if c then xorBytes x v else x)
      = AdjoinRoot.mk modulus128 (polyOf (n + 1) f) * residue128 h := by
  rw [residue128_addIf hc, hx, hv, polyOf_succ_last, map_add]
  cases f n
  · simp
  · simp only [if_true, map_pow, AdjoinRoot.mk_X]
    ring

/-- The running multiple of both builders: V doubles to H·x^(n+1). -/
theorem residue128_double_pow {n : Nat} {v h : Block}
    (hv : residue128 v = AdjoinRoot.root modulus128 ^ n * residue128 h) :
    residue128 (gf128Double v) = AdjoinRoot.root modulus128 ^ (n + 1) * residue128 h := by
  rw [residue128_gf128Double, hv, ← mul_assoc, ← pow_succ']

/-- A mask of one bit tests it. -/
theorem and_two_pow_ne_zero (v i : Nat) : v &&& 2 ^ i ≠ 0 ↔ v.testBit i = true := by
  rw [Nat.and_two_pow]
  cases v.testBit i <;> simp

theorem byte_bit {k : Nat} (h : k < 8) : 0x80 >>> k = 2 ^ (7 - k) := by
  interval_cases k <;> rfl

theorem nibble_bit {k : Nat} (h : k < 4) : 0x8 >>> k = 2 ^ (3 - k) := by
  interval_cases k <;> rfl

/-- What `build_table8` holds after n iterations: V is H·x^n, and the entry of v the product by its n high bits
(R204). -/
structure Table8Inv (h : Block) (n : Nat) (st : BuildState Table8) : Prop where
  v     : residue128 st.v = AdjoinRoot.root modulus128 ^ n * residue128 h
  entry : ∀ e, e < 255 → residue128 (entryOf st.table e)
    = AdjoinRoot.mk modulus128 (polyOf n fun k => (e + 1).testBit (7 - k)) * residue128 h

theorem table8Inv_step {h : Block} {n : Nat} {st : BuildState Table8} (hn : n < 8) (hst : Table8Inv h n st) :
    Table8Inv h (n + 1) (buildTable8Step n st) where
  v := residue128_double_pow hst.v
  entry e he := by
    rw [buildTable8Step, entryOf_vecOf _ he, byte_bit hn]
    exact residue128_nextTerm (f := fun k => (e + 1).testBit (7 - k)) (and_two_pow_ne_zero (e + 1) (7 - n))
      (hst.entry e he) hst.v

theorem table8Inv_start (h : Block) : Table8Inv h 0 { table := vecOf 255 fun _ => zeroBlock, v := h } where
  v := by rw [pow_zero, one_mul]
  entry e he := by simp [entryOf_vecOf _ he, polyOf]

/-- Entry v - 1 of T8 is elem(v) ⊗ H (R204). -/
theorem entryOf_buildTable8 (h : Block) {v : Nat} (h1 : 1 ≤ v) (hv : v < 256) :
    entryOf (buildTable8 h) (v - 1) = multiplyBitByBit (elem v) h := by
  have hinv := forUp_induction (Table8Inv h) 0 8 buildTable8Step _ (table8Inv_start h)
    fun n st hn hst => by rw [Nat.zero_add]; exact table8Inv_step hn hst
  have hentry := hinv.entry (v - 1) (by omega)
  rw [Nat.sub_add_cancel h1] at hentry
  exact residue128_injective (hentry.trans (by rw [residue128_multiplyBitByBit, residue128_elem]))

theorem entry4Of_vecOf (f : Nat → Nat → Block) {t e : Nat} (ht : t < 2) (he : e < 15) :
    entry4Of (vecOf 2 fun t => vecOf 15 fun e => f t e) t e = f t e := by
  rw [entry4Of, vecOf_toList, getD_map_range, if_pos ht, entryOf_vecOf _ he]

/-- What `build_table4` holds after n iterations: V is H·x^n, and the entry of a nibble the product by those of its
bits, at its table's place in the byte, that are among the n high bits (R206). -/
structure Table4Inv (h : Block) (n : Nat) (st : BuildState Table4) : Prop where
  v     : residue128 st.v = AdjoinRoot.root modulus128 ^ n * residue128 h
  entry : ∀ t e, t < 2 → e < 15 → residue128 (entry4Of st.table t e)
    = AdjoinRoot.mk modulus128 (polyOf n fun k => decide (k / 4 = t) && (e + 1).testBit (3 - k % 4)) * residue128 h

theorem table4Inv_step {h : Block} {n : Nat} {st : BuildState Table4} (hst : Table4Inv h n st) :
    Table4Inv h (n + 1) (buildTable4Step n st) where
  v := residue128_double_pow hst.v
  entry t e ht he := by
    have hbit : t = n / 4 ∧ (e + 1) &&& (0x8 >>> (n % 4)) ≠ 0
        ↔ (decide (n / 4 = t) && (e + 1).testBit (3 - n % 4)) = true := by
      rw [nibble_bit (by omega), and_two_pow_ne_zero, Bool.and_eq_true, decide_eq_true_eq, eq_comm]
    rw [buildTable4Step, entry4Of_vecOf _ ht he]
    exact residue128_nextTerm (f := fun k => decide (k / 4 = t) && (e + 1).testBit (3 - k % 4)) hbit
      (hst.entry t e ht he) hst.v

theorem table4Inv_start (h : Block) :
    Table4Inv h 0 { table := vecOf 2 fun _ => vecOf 15 fun _ => zeroBlock, v := h } where
  v := by rw [pow_zero, one_mul]
  entry t e ht he := by simp [entry4Of_vecOf (fun _ _ => zeroBlock) ht he, polyOf]

/-- The residue of entry n - 1 of T4's table t. -/
theorem residue128_entry4Of_buildTable4 (h : Block) {t n : Nat} (ht : t < 2) (h1 : 1 ≤ n) (hn : n < 16) :
    residue128 (entry4Of (buildTable4 h) t (n - 1))
      = AdjoinRoot.mk modulus128 (polyOf 8 fun k => decide (k / 4 = t) && n.testBit (3 - k % 4)) * residue128 h := by
  have hinv := forUp_induction (Table4Inv h) 0 8 buildTable4Step _ (table4Inv_start h)
    fun n st _ hst => by rw [Nat.zero_add]; exact table4Inv_step hst
  have hentry := hinv.entry t (n - 1) ht (by omega)
  rw [Nat.sub_add_cancel h1] at hentry
  exact hentry

/-- Entry n - 1 of T4's table 0 is elem(16n) ⊗ H (R206). -/
theorem entry4Of_buildTable4_high (h : Block) {n : Nat} (h1 : 1 ≤ n) (hn : n < 16) :
    entry4Of (buildTable4 h) 0 (n - 1) = multiplyBitByBit (elem (16 * n)) h := by
  refine residue128_injective ?_
  rw [residue128_entry4Of_buildTable4 h (by omega) h1 hn, residue128_multiplyBitByBit, residue128_elem,
    polyOf_congr fun k hk => testBit_high_nibble n hk]

/-- Entry n - 1 of T4's table 1 is elem(n) ⊗ H (R206). -/
theorem entry4Of_buildTable4_low (h : Block) {n : Nat} (h1 : 1 ≤ n) (hn : n < 16) :
    entry4Of (buildTable4 h) 1 (n - 1) = multiplyBitByBit (elem n) h := by
  refine residue128_injective ?_
  rw [residue128_entry4Of_buildTable4 h (by omega) h1 hn, residue128_multiplyBitByBit, residue128_elem,
    polyOf_congr fun k hk => testBit_low_nibble hn hk]

theorem elem_one_multiplyBitByBit (a : Block) : multiplyBitByBit (elem 0x80) a = a :=
  residue128_injective (by rw [residue128_multiplyBitByBit, residue128_elem_one, one_mul])

/-! ### The table products -/

theorem residue128_doublings (start n : Nat) (p : Block) :
    residue128 (forUp start n (fun _ p => gf128Double p) p) = AdjoinRoot.root modulus128 ^ n * residue128 p := by
  induction n with
  | zero => rw [forUp_zero, pow_zero, one_mul]
  | succ n ih => rw [forUp_succ, residue128_double_pow ih]

/-- The product by x^8 before a byte; the first byte needs none, nothing being accumulated yet (R205, R207). -/
theorem residue128_mulX8_unless_first {k : Nat} {acc : Block} (h : k = 15 → residue128 acc = 0) :
    residue128 (if k ≠ 15 then gf128MulX8 acc else acc) = AdjoinRoot.root modulus128 ^ 8 * residue128 acc := by
  split
  case isTrue => exact residue128_doublings 1 8 acc
  case isFalse hk => rw [h (not_not.1 hk), mul_zero]

/-- A selected entry added: that of v ≠ 0 is elem(w) ⊗ H, and for v = 0, w = 0 there is none. -/
theorem residue128_addEntry {v w : Nat} (h0 : v = 0 → w = 0) {acc entry h : Block}
    (hentry : v ≠ 0 → entry = multiplyBitByBit (elem w) h) :
    residue128 (if v ≠ 0 then xorBytes acc entry else acc)
      = residue128 acc + residue128 (elem w) * residue128 h := by
  split
  case isTrue hv => rw [residue128_xorBytes, hentry hv, residue128_multiplyBitByBit]
  case isFalse hv => rw [h0 (not_not.1 hv), residue128_elem_zero, zero_mul, add_zero]

/-- Horner's scheme over the bytes, byte 15 first, after n bytes. -/
theorem residue128_hornerBytes {a h : Block} {f : Nat → Block → Block}
    (hf : ∀ k acc, k < 16 → (k = 15 → residue128 acc = 0) → residue128 (f k acc)
      = AdjoinRoot.root modulus128 ^ 8 * residue128 acc + residue128 (elem (byteOf a k).toNat) * residue128 h)
    {n : Nat} (hn : n ≤ 16) :
    residue128 (forUp 0 n (fun k => f (0 + 16 - 1 - k)) zeroBlock)
      = AdjoinRoot.mk modulus128 (polyOf (8 * n) fun j => coeffBit a (8 * (16 - n) + j)) * residue128 h := by
  induction n with
  | zero => simp [polyOf]
  | succ n ih =>
    have hbyte : 0 + 16 - 1 - (0 + n) = 16 - (n + 1) := by omega
    have hrest : polyOf (8 * n) (fun j => coeffBit a (8 * (16 - (n + 1)) + (8 + j)))
        = polyOf (8 * n) fun j => coeffBit a (8 * (16 - n) + j) :=
      polyOf_congr fun j _ => congrArg (coeffBit a) (by omega)
    have hfirst : 16 - (n + 1) = 15 → residue128 (forUp 0 n (fun k => f (0 + 16 - 1 - k)) zeroBlock) = 0 := fun h0 => by
      obtain rfl : n = 0 := by omega
      exact residue128_zeroBlock
    rw [forUp_succ, hbyte, hf _ _ (by omega) hfirst, ih (by omega), residue128_elem_byteOf,
      (by omega : 8 * (n + 1) = 8 + 8 * n), polyOf_add, hrest, map_add, map_mul, map_pow, AdjoinRoot.mk_X]
    ring

/-- A loop over the bytes that adds each byte's product by H is the product by H. -/
theorem forDown_eq_multiplyBitByBit {a h : Block} {f : Nat → Block → Block}
    (hf : ∀ k acc, k < 16 → (k = 15 → residue128 acc = 0) → residue128 (f k acc)
      = AdjoinRoot.root modulus128 ^ 8 * residue128 acc + residue128 (elem (byteOf a k).toNat) * residue128 h) :
    forDown 0 16 f zeroBlock = multiplyBitByBit a h := by
  have hloop := residue128_hornerBytes hf (n := 16) le_rfl
  simp only [Nat.sub_self, Nat.mul_zero, Nat.zero_add] at hloop
  exact residue128_injective (hloop.trans (residue128_multiplyBitByBit a h).symm)

/-- The product by T8 of H is the product by H (R208). -/
theorem multiplyTable8_buildTable8 (a h : Block) : multiplyTable8 a (buildTable8 h) = multiplyBitByBit a h := by
  refine forDown_eq_multiplyBitByBit fun k acc _ hfirst => ?_
  have hlt := (byteOf a k).isLt
  rw [← residue128_mulX8_unless_first hfirst]
  exact residue128_addEntry id fun hv => entryOf_buildTable8 h (by omega) hlt

/-- The product by T4 of H is the product by H (R208). -/
theorem multiplyTable4_buildTable4 (a h : Block) : multiplyTable4 a (buildTable4 h) = multiplyBitByBit a h := by
  refine forDown_eq_multiplyBitByBit fun k acc _ hfirst => ?_
  have hlt := (byteOf a k).isLt
  simp only [byte_high_nibble, byte_low_nibble]
  rw [residue128_addEntry id fun hv => entry4Of_buildTable4_low h (by omega) (by omega),
    residue128_addEntry (w := 16 * _) (by omega) fun hv => entry4Of_buildTable4_high h (by omega) (by omega),
    residue128_mulX8_unless_first hfirst, add_assoc, ← add_mul, residue128_elem_nibbles]

end Sys2Proof.Proofs
end

section
/-! HT8B, HT4B and the three multiplies on the machine (R208, R210 to R214). -/

namespace Sys2Proof.Proofs

open Sys2Proof Sys2Proof.Machine Sys2Proof.Claims

/-! ### A stored table reads back -/

/-- Item k·e + j of equal-length lists joined is item j of list e. -/
theorem getD_flatMap_const {α β : Type} {l : List α} {f : α → List β} {k : Nat} (hk : ∀ x ∈ l, (f x).length = k)
    (d : β) (x0 : α) {e j : Nat} (he : e < l.length) (hj : j < k) :
    (l.flatMap f).getD (k * e + j) d = (f (l.getD e x0)).getD j d := by
  induction l generalizing e with
  | nil => exact absurd he (Nat.not_lt_zero e)
  | cons x l ih =>
    have hx : (f x).length = k := hk x List.mem_cons_self
    rw [List.flatMap_cons]
    cases e with
    | zero => rw [Nat.mul_zero, Nat.zero_add, List.getD_append _ _ _ _ (by omega), List.getD_cons_zero]
    | succ e =>
      rw [List.getD_append_right _ _ _ _ (by rw [hx, Nat.mul_succ]; omega), hx,
        (by rw [Nat.mul_succ]; omega : k * (e + 1) + j - k = k * e + j), List.getD_cons_succ]
      exact ih (fun y hy => hk y (List.mem_cons_of_mem x hy)) (Nat.lt_of_succ_lt_succ he)

theorem getD_blocks_bytes {n : Nat} (t : Vector Block n) {e j : Nat} (he : e < n) (hj : j < 16) :
    (t.toList.flatMap fun b => b.toList).getD (16 * e + j) 0#8 = byteOf (entryOf t e) j :=
  getD_flatMap_const (fun _ _ => Vector.length_toList) _ zeroBlock (by rwa [Vector.length_toList]) hj

theorem getD_table4_bytes (t4 : Table4) {t e j : Nat} (ht : t < 2) (he : e < 15) (hj : j < 16) :
    (t4.toList.flatMap fun t => t.toList.flatMap fun b => b.toList).getD (240 * t + (16 * e + j)) 0#8
      = byteOf (entry4Of t4 t e) j :=
  (getD_flatMap_const (fun v _ => blocks_bytes_length v) _ (vecOf 15 fun _ => zeroBlock)
    (by rwa [Vector.length_toList]) (by omega)).trans (getD_blocks_bytes _ he hj)

/-- Two tables are equal when their entries are. -/
theorem table_ext {n : Nat} {t u : Vector Block n} (h : ∀ e, e < n → entryOf t e = entryOf u e) : t = u := by
  refine Vector.ext fun e he => ?_
  simpa [entryOf, List.getD_eq_getElem?_getD, he] using h e he

theorem table4_ext {t u : Table4} (h : ∀ k e, k < 2 → e < 15 → entry4Of t k e = entry4Of u k e) : t = u := by
  refine Vector.ext fun k hk => table_ext fun e he => ?_
  simpa [entry4Of, List.getD_eq_getElem?_getD, hk] using h k e hk he

/-- T8 stored whole reads back whole. -/
theorem storeAt_t8_same (s : State) (v : Table8) : (s.storeAt 0x1000 (v.toList.flatMap fun e => e.toList)).t8 = v :=
  table_ext fun e he => bytes_ext fun j hj => by
    rw [State.byteOf_t8 _ he hj, storeAt_byteAt_of_mem _ _ _ (by omega) (by rw [table8_bytes_length]; omega),
      (by omega : 0x1000 + 16 * e + j - 0x1000 = 16 * e + j)]
    exact getD_blocks_bytes v he hj

/-- T4 stored whole reads back whole. -/
theorem storeAt_t4_same (s : State) (v : Table4) :
    (s.storeAt 0x0200 (v.toList.flatMap fun t => t.toList.flatMap fun e => e.toList)).t4 = v :=
  table4_ext fun t e ht he => bytes_ext fun j hj => by
    refine (State.byteOf_t4 _ ht he hj).trans ?_
    rw [storeAt_byteAt_of_mem _ _ _ (by omega) (by rw [table4_bytes_length]; omega),
      (by omega : 0x0200 + 240 * t + 16 * e + j - 0x0200 = 240 * t + (16 * e + j))]
    exact getD_table4_bytes v ht he hj

/-! ### The table commands -/

/-- A word whose row needs an option that the build lacks (R77). -/
theorem decode_absent {b : Build} {w : Word} {r : OpRow} (hr : opMap.find? (fun r => r.op == opField w) = some r)
    (ho : optionPresent b r.option = false) : decode b w = .error .absentVariant := by
  simp only [decode, hr, ho, if_true]

theorem runs_ht8b {s : State} (h : s.cfg.t8 = true) : ∃ t, Runs .ht8b s t ∧ t.t8 = buildTable8 s.gh :=
  ⟨_, runs_plan (i := .ht8b) ⟨rfl, h⟩, storeAt_t8_same _ _⟩

theorem runs_ht4b {s : State} (h : s.cfg.t4 = true) : ∃ t, Runs .ht4b s t ∧ t.t4 = buildTable4 s.gh :=
  ⟨_, runs_plan (i := .ht4b) ⟨rfl, h⟩, storeAt_t4_same _ _⟩

/-- Settles O42: both commands store the table whole, and its entries are the field products. -/
theorem tableBuildsHoldTheProducts : Obligations.TableBuildsHoldTheProducts := by
  refine ⟨wordOf_of_encode rfl rfl, wordOf_of_encode rfl rfl, fun _ h => decode_absent rfl h,
    fun _ h => decode_absent rfl h, fun s => ⟨fun h => ?_, fun h => ?_⟩⟩
  · obtain ⟨t, hrun, ht⟩ := runs_ht8b h
    have hentry : ∀ v, 1 ≤ v → v < 256 → entryOf t.t8 (v - 1) = multiplyBitByBit (elem v) s.gh := fun v h1 hv => by
      rw [ht, entryOf_buildTable8 s.gh h1 hv]
    exact ⟨t, hrun, ht, hentry, (hentry 128 (by omega) (by omega)).trans (elem_one_multiplyBitByBit s.gh)⟩
  · obtain ⟨t, hrun, ht⟩ := runs_ht4b h
    have hhigh : ∀ n, 1 ≤ n → n < 16 → entry4Of t.t4 0 (n - 1) = multiplyBitByBit (elem (16 * n)) s.gh :=
      fun n h1 hn => by rw [ht, entry4Of_buildTable4_high s.gh h1 hn]
    have hlow : ∀ n, 1 ≤ n → n < 16 → entry4Of t.t4 1 (n - 1) = multiplyBitByBit (elem n) s.gh :=
      fun n h1 hn => by rw [ht, entry4Of_buildTable4_low s.gh h1 hn]
    exact ⟨t, hrun, ht, fun n h1 hn => ⟨hhigh n h1 hn, hlow n h1 hn⟩,
      (hhigh 8 (by omega) (by omega)).trans (elem_one_multiplyBitByBit s.gh)⟩

/-! ### The three multiplies -/

theorem runs_hmulb {s : State} (h : s.cfg.mulb = true) :
    ∃ t, Runs .hmulb s t ∧ t.gx = multiplyBitByBit s.gx s.gh :=
  ⟨_, runs_plan (i := .hmulb) ⟨rfl, h⟩, storeAt_bytesAt_same _ 0x0030 _⟩

theorem runs_hmul8 {s : State} (h : s.cfg.t8 = true) : ∃ t, Runs .hmul8 s t ∧ t.gx = multiplyTable8 s.gx s.t8 :=
  ⟨_, runs_plan (i := .hmul8) ⟨rfl, h⟩, storeAt_bytesAt_same _ 0x0030 _⟩

theorem runs_hmul4 {s : State} (h : s.cfg.t4 = true) : ∃ t, Runs .hmul4 s t ∧ t.gx = multiplyTable4 s.gx s.t4 :=
  ⟨_, runs_plan (i := .hmul4) ⟨rfl, h⟩, storeAt_bytesAt_same _ 0x0030 _⟩

/-- A buffer disjoint from what a command writes is as before. -/
theorem runs_bytesAt_disjoint {i : Instr} {s t : State} (h : Runs i s t) {b len base n : Nat}
    (hw : listedWrites i = offsets b len) (hd : base + n ≤ b ∨ b + len ≤ base) :
    t.bytesAt base n = s.bytesAt base n :=
  State.bytesAt_congr fun a h1 h2 => h.kept.byte a (by rw [hw, mem_offsets]; omega)

theorem runCommands_pair {i j : Instr} {s t u : State} (h1 : Runs i s t) (h2 : Runs j t u) :
    runCommands [i, j] s = .next u := by
  simp only [runCommands, h1.next, h2.next]

/-- HT8B leaves GX and GH, so HMUL8 after it multiplies by GH (R208, R212). -/
theorem run_ht8b_hmul8 {s : State} (h : s.cfg.t8 = true) : ∃ u, runCommands [.ht8b, .hmul8] s = .next u ∧
    u.gx = multiplyBitByBit s.gx s.gh ∧ u.gh = s.gh := by
  obtain ⟨t, ht, htable⟩ := runs_ht8b h
  obtain ⟨u, hu, hproduct⟩ := runs_hmul8 (s := t) (by rw [ht.kept.cfg, h])
  have hgx : t.gx = s.gx := runs_bytesAt_disjoint ht rfl (.inl (by omega))
  have hgh : t.gh = s.gh := runs_bytesAt_disjoint ht rfl (.inl (by omega))
  have hgh' : u.gh = t.gh := runs_bytesAt_disjoint hu rfl (.inr (by omega))
  exact ⟨u, runCommands_pair ht hu, by rw [hproduct, htable, hgx, multiplyTable8_buildTable8], hgh'.trans hgh⟩

/-- HT4B leaves GX and GH, so HMUL4 after it multiplies by GH (R208, R214). -/
theorem run_ht4b_hmul4 {s : State} (h : s.cfg.t4 = true) : ∃ u, runCommands [.ht4b, .hmul4] s = .next u ∧
    u.gx = multiplyBitByBit s.gx s.gh ∧ u.gh = s.gh := by
  obtain ⟨t, ht, htable⟩ := runs_ht4b h
  obtain ⟨u, hu, hproduct⟩ := runs_hmul4 (s := t) (by rw [ht.kept.cfg, h])
  have hgx : t.gx = s.gx := runs_bytesAt_disjoint ht rfl (.inl (by omega))
  have hgh : t.gh = s.gh := runs_bytesAt_disjoint ht rfl (.inl (by omega))
  have hgh' : u.gh = t.gh := runs_bytesAt_disjoint hu rfl (.inr (by omega))
  exact ⟨u, runCommands_pair ht hu, by rw [hproduct, htable, hgx, multiplyTable4_buildTable4], hgh'.trans hgh⟩

/-- Settles O58: both table paths end with the product by GH that HMULB makes. -/
theorem threeMultiplyCommandsAgree : Obligations.ThreeMultiplyCommandsAgree := by
  intro s hcfg
  obtain ⟨t, ht, hproduct⟩ := runs_hmulb (s := s) (by rw [hcfg]; rfl)
  obtain ⟨u, hu, hux, huh⟩ := run_ht8b_hmul8 (s := s) (by rw [hcfg]; rfl)
  obtain ⟨v, hv, hvx, hvh⟩ := run_ht4b_hmul4 (s := s) (by rw [hcfg]; rfl)
  have hth : t.gh = s.gh := runs_bytesAt_disjoint ht rfl (.inr (by omega))
  exact ⟨t, u, v, ht.next, hu, hv, hux.trans hproduct.symm, hvx.trans hproduct.symm, hth, huh, hvh⟩

end Sys2Proof.Proofs
end

section
/-! Accesses that fail the checks: which check fails first, and that the block is left as it was (R51, R52, R57,
R242, R245). -/

namespace Sys2Proof.Proofs

open Sys2Proof Sys2Proof.Machine Sys2Proof.Claims

/-! ### Bus errors -/

section
variable {s : State} {off : Offset} {n : Nat} {e : BusError} (h : checkAccess s.cfg off.toNat n = some e)
include h

theorem hostRead_busError : hostRead off n s = s.answer (.busError e off n) := by
  rw [hostRead, h]

theorem hostWrite_busError (v : Word) : hostWrite off n v s = .next (s.answer (.busError e off n)) := by
  rw [hostWrite, h]

end

/-- Settles O6: a read and a write that fail the checks only answer the error. -/
theorem busErrorChangesNoStateOfTheBlock : Obligations.BusErrorChangesNoStateOfTheBlock := by
  intro s rest off n v e hc hp
  rcases hp with hp | hp
  · rw [step_read hp, hostRead_busError (s := { s with pending := rest }) hc]
    rfl
  · rw [step_write hp, hostWrite_busError (s := { s with pending := rest }) hc]
    rfl

/-! ### The access checks in order -/

/-- An offset lies in no present region exactly when the map leaves it out (R51, R52): a comparison of bounds for
each choice of the two tables. -/
theorem regionAt_eq_none (b : Build) (a : Nat) : regionAt b a = none ↔ Unmapped b a := by
  simp only [regionAt, addressMap, List.find?_eq_none, List.forall_mem_cons, Bool.and_eq_true, inRegion_iff,
    regionPresent, regionBase, regionSize, Unmapped, List.not_mem_nil, false_imp_iff, implies_true]
  cases b.t4 <;> cases b.t8 <;> simp <;> omega

/-- The registers stand at 0x0000 to 0x0007 and 0x000C to 0x000F (R51, R54). -/
theorem regionAt_control_iff (b : Build) (a : Nat) :
    (regionAt b a).any regionControl = true ↔ a ≤ 0x0007 ∨ (0x000C ≤ a ∧ a ≤ 0x000F) := by
  have hregion : ∀ r : Region, regionPresent b r = true → regionBase r ≤ a → a < regionBase r + regionSize r →
      regionAt b a = some r := fun r hp h1 h2 => (regionAt_eq_some b a r).2 ⟨hp, (inRegion_iff r a).2 ⟨h1, h2⟩⟩
  rw [Option.any_eq_true]
  constructor
  · rintro ⟨r, hr, hc⟩
    have hin := (inRegion_iff r a).1 ((regionAt_eq_some b a r).1 hr).2
    cases r <;> simp only [regionControl, Bool.false_eq_true, regionBase, regionSize] at hc hin <;> omega
  · intro h
    rcases (by omega : a ≤ 0x0003 ∨ (0x0004 ≤ a ∧ a ≤ 0x0007) ∨ (0x000C ≤ a ∧ a ≤ 0x000F)) with h | h | h
    · exact ⟨.cmd, hregion .cmd rfl (Nat.zero_le a) (Nat.lt_succ_of_le h), rfl⟩
    · exact ⟨.status, hregion .status rfl h.1 (Nat.lt_succ_of_le h.2), rfl⟩
    · exact ⟨.cfg, hregion .cfg rfl h.1 (Nat.lt_succ_of_le h.2), rfl⟩

/-- An access of a legal width, a word of it aligned, reaches an unmapped offset exactly when its first is one: the
bounds of the map are multiples of 4 (R51, R57). -/
theorem any_unmapped_iff (b : Build) {a n : Nat} (hn : n = 1 ∨ n = 4) (ha : n = 4 → a % 4 = 0) :
    (List.range n).any (fun k => (regionAt b (a + k)).isNone) = true ↔ Unmapped b a := by
  simp only [List.any_eq_true, List.mem_range, Option.isNone_iff_eq_none]
  rw [← regionAt_eq_none]
  constructor
  · rintro ⟨k, hk, hnone⟩
    by_contra hsome
    obtain ⟨r, hr⟩ := Option.ne_none_iff_exists'.1 hsome
    rw [regionAt_add hn ha hr hk] at hnone
    cases hnone
  · exact fun h => ⟨0, by omega, h⟩

/-- The checks in order, over the offsets of the map (R57). -/
theorem checkAccess_eq (b : Build) (a n : Nat) [Decidable (Unmapped b a)] :
    checkAccess b a n =
      if n ≠ 1 ∧ n ≠ 4 then some .width
      else if n = 4 ∧ a % 4 ≠ 0 then some .misaligned
      else if Unmapped b a then some .unmapped
      else if (a ≤ 0x0007 ∨ (0x000C ≤ a ∧ a ≤ 0x000F)) ∧ n ≠ 4 then some .width
      else none :=
  ite_congr rfl (fun _ => rfl) fun hn => ite_congr rfl (fun _ => rfl) fun ha =>
    if_congr (any_unmapped_iff b (by omega) (by omega)) rfl
      (if_congr (and_congr_left' (regionAt_control_iff b a)) rfl rfl)

/-- The registers, and the buffers after them, are mapped in every build (R51). -/
theorem unmapped_ge {b : Build} {a : Nat} (h : Unmapped b a) : 0x0050 ≤ a := by
  unfold Unmapped at h
  omega

/-- Settles O7: the checks in order, one case for each; an unmapped offset is past the registers. -/
theorem accessChecksFollowTheMapInOrder : Obligations.AccessChecksFollowTheMapInOrder := by
  classical
  intro b off n a control word
  rw [checkAccess_eq]
  split
  case isTrue hn => simp [word, hn]
  split
  case isTrue ha => simp [word, ha]
  split
  case isTrue hu =>
    have := unmapped_ge hu
    simp [word, control, hu]
    omega
  split
  case isTrue hu hc =>
    simp [word, control, hu]
    omega
  case isFalse hu hc =>
    simp [word, control, hu]
    omega

end Sys2Proof.Proofs
end

section
/-! The table multiplies for any contents of the table: the product is the sum of the entries that the bytes select,
each multiplied by x to the power of its byte's place (R205, R207, R212, R214). -/

namespace Sys2Proof.Proofs

open Sys2Proof Sys2Proof.Machine Sys2Proof.Claims

/-! ### Doublings and sums, as field elements -/

theorem residue128_iterate_double (n : Nat) (p : Block) :
    residue128 (gf128Double^[n] p) = AdjoinRoot.root modulus128 ^ n * residue128 p := by
  induction n with
  | zero => rw [Function.iterate_zero_apply, pow_zero, one_mul]
  | succ n ih => rw [Function.iterate_succ_apply', residue128_double_pow ih]

theorem xorBytes_zeroBlock (a : Block) : xorBytes a zeroBlock = a :=
  residue128_injective (by rw [residue128_xorBytes, residue128_zeroBlock, add_zero])

theorem zeroBlock_xorBytes (a : Block) : xorBytes zeroBlock a = a :=
  residue128_injective (by rw [residue128_xorBytes, residue128_zeroBlock, zero_add])

theorem residue128_xorAll (bs : List Block) : residue128 (xorAll bs) = (bs.map residue128).sum := by
  induction bs with
  | nil => exact residue128_zeroBlock
  | cons b bs ih => rw [List.map_cons, List.sum_cons, ← ih]; exact residue128_xorBytes b _

theorem residue128_xorAll_range (n : Nat) (g : Nat → Block) :
    residue128 (xorAll ((List.range n).map g)) = ∑ k ∈ Finset.range n, residue128 (g k) := by
  rw [residue128_xorAll, List.map_map]
  rfl

/-- A sum of doubled elements of which one is not 0. -/
theorem xorAll_doubled_eq_single {n k : Nat} {e : Nat → Block} (hk : k < n)
    (h : ∀ j, j < n → j ≠ k → e j = zeroBlock) :
    xorAll ((List.range n).map fun j => gf128Double^[8 * j] (e j)) = gf128Double^[8 * k] (e k) := by
  refine residue128_injective ?_
  rw [residue128_xorAll_range]
  refine Finset.sum_eq_single_of_mem k (Finset.mem_range.2 hk) fun j hj hne => ?_
  rw [h j (Finset.mem_range.1 hj) hne, residue128_iterate_double, residue128_zeroBlock, mul_zero]

/-! ### The loop over the bytes -/

/-- Horner's scheme over any elements `e k`, byte 15 first, after n bytes. -/
theorem residue128_hornerElements {e : Nat → Block} {f : Nat → Block → Block}
    (hf : ∀ k acc, k < 16 → (k = 15 → residue128 acc = 0) →
      residue128 (f k acc) = AdjoinRoot.root modulus128 ^ 8 * residue128 acc + residue128 (e k))
    {n : Nat} (hn : n ≤ 16) :
    residue128 (forUp 0 n (fun k => f (0 + 16 - 1 - k)) zeroBlock)
      = ∑ j ∈ Finset.range n, AdjoinRoot.root modulus128 ^ (8 * j) * residue128 (e (16 - n + j)) := by
  induction n with
  | zero => exact residue128_zeroBlock
  | succ n ih =>
    have hbyte : 0 + 16 - 1 - (0 + n) = 16 - (n + 1) := by omega
    have hfirst : 16 - (n + 1) = 15 →
        residue128 (forUp 0 n (fun k => f (0 + 16 - 1 - k)) zeroBlock) = 0 := fun h0 => by
      obtain rfl : n = 0 := by omega
      exact residue128_zeroBlock
    have hshift : AdjoinRoot.root modulus128 ^ 8
          * ∑ j ∈ Finset.range n, AdjoinRoot.root modulus128 ^ (8 * j) * residue128 (e (16 - n + j))
        = ∑ j ∈ Finset.range n,
          AdjoinRoot.root modulus128 ^ (8 * (j + 1)) * residue128 (e (16 - (n + 1) + (j + 1))) := by
      rw [Finset.mul_sum]
      refine Finset.sum_congr rfl fun j _ => ?_
      rw [← mul_assoc, ← pow_add, Nat.mul_succ, Nat.add_comm 8, (by omega : 16 - (n + 1) + (j + 1) = 16 - n + j)]
    rw [forUp_succ, hbyte, hf _ _ (by omega) hfirst, ih (by omega), hshift, Finset.sum_range_succ', mul_zero, pow_zero,
      one_mul, Nat.add_zero (16 - (n + 1))]

/-- A loop over the bytes that multiplies by x^8 and adds the element of its byte is the sum of these elements, that of
byte k doubled 8k times. -/
theorem forDown_eq_xorAll {e : Nat → Block} {f : Nat → Block → Block}
    (hf : ∀ k acc, k < 16 → (k = 15 → residue128 acc = 0) →
      residue128 (f k acc) = AdjoinRoot.root modulus128 ^ 8 * residue128 acc + residue128 (e k)) :
    forDown 0 16 f zeroBlock = xorAll ((List.range 16).map fun k => gf128Double^[8 * k] (e k)) := by
  have hloop := residue128_hornerElements hf (n := 16) le_rfl
  simp only [Nat.sub_self, Nat.zero_add] at hloop
  refine residue128_injective (hloop.trans ?_)
  simp only [residue128_xorAll_range, residue128_iterate_double]

/-! ### The selected entries -/

/-- The entry that a byte or nibble `v` selects in a table whose entry for `v` is `entry (v - 1)`: 0 for v = 0 (R29,
R30). -/
def entryFor (entry : Nat → Block) (v : Nat) : Block := if v = 0 then zeroBlock else entry (v - 1)

@[simp] theorem entryFor_zero (entry : Nat → Block) : entryFor entry 0 = zeroBlock := rfl

theorem entryFor_of_pos (entry : Nat → Block) {v : Nat} (h : 1 ≤ v) : entryFor entry v = entry (v - 1) :=
  if_neg (by omega)

theorem residue128_addSelected (entry : Nat → Block) (v : Nat) (acc : Block) :
    residue128 (if v ≠ 0 then xorBytes acc (entry (v - 1)) else acc)
      = residue128 acc + residue128 (entryFor entry v) := by
  unfold entryFor
  by_cases hv : v = 0
  · simp [hv]
  · rw [if_pos hv, if_neg hv, residue128_xorBytes]

/-- The entry of T8 that byte k of A selects. -/
def term8 (a : Block) (t : Table8) (k : Nat) : Block := entryFor (entryOf t) (byteOf a k).toNat

/-- The sum of the two entries of T4 that the nibbles of byte k of A select. -/
def term4 (a : Block) (t : Table4) (k : Nat) : Block :=
  xorBytes (entryFor (entry4Of t 0) ((byteOf a k).toNat / 16)) (entryFor (entry4Of t 1) ((byteOf a k).toNat % 16))

/-- R205 without its loop. -/
theorem multiplyTable8_eq_xorAll (a : Block) (t : Table8) :
    multiplyTable8 a t = xorAll ((List.range 16).map fun k => gf128Double^[8 * k] (term8 a t k)) := by
  refine forDown_eq_xorAll fun k acc _ hfirst => ?_
  rw [← residue128_mulX8_unless_first hfirst]
  exact residue128_addSelected _ _ _

/-- R207 without its loop. -/
theorem multiplyTable4_eq_xorAll (a : Block) (t : Table4) :
    multiplyTable4 a t = xorAll ((List.range 16).map fun k => gf128Double^[8 * k] (term4 a t k)) := by
  refine forDown_eq_xorAll fun k acc _ hfirst => ?_
  simp only [byte_high_nibble, byte_low_nibble]
  rw [residue128_addSelected (entry4Of t 1), residue128_addSelected (entry4Of t 0),
    residue128_mulX8_unless_first hfirst, add_assoc, ← residue128_xorBytes, term4]

/-! ### The entries in the window -/

theorem byteOf_blockOf_range (g : Nat → Byte) {j : Nat} (hj : j < 16) :
    byteOf (blockOf ((List.range 16).map g)) j = g j := by
  rw [blockOf, byteOf_bytesOf_lt _ hj, getD_map_range, if_pos hj]

/-- The entries of T8 stand in the window (R51). -/
theorem entryFor_t8 (s : State) {v : Nat} (hv : v < 256) : entryFor (entryOf s.t8) v = selected8 s v :=
  ite_congr rfl (fun _ => rfl) fun h0 => bytes_ext fun j hj => by
    rw [s.byteOf_t8 (by omega) hj, byteOf_blockOf_range _ hj]

/-- The entries of T4 stand in the window (R51). -/
theorem entryFor_t4 (s : State) {t n : Nat} (ht : t < 2) (hn : n < 16) :
    entryFor (entry4Of s.t4 t) n = selected4 s t n :=
  ite_congr rfl (fun _ => rfl) fun h0 => bytes_ext fun j hj => by
    rw [entry4Of, s.byteOf_t4 ht (by omega) hj, byteOf_blockOf_range _ hj]

/-- The product by T8 as it stands in the window (R212). -/
theorem multiplyTable8_state (s : State) : multiplyTable8 s.gx s.t8 = xorAll ((List.range 16).map fun k =>
    gf128Double^[8 * k] (selected8 s (s.byteAt (0x0030 + k)).toNat)) := by
  rw [multiplyTable8_eq_xorAll]
  refine congrArg xorAll (List.map_congr_left fun k hk => ?_)
  rw [term8, s.byteOf_gx (List.mem_range.1 hk), entryFor_t8 s (BitVec.isLt _)]

/-- The product by T4 as it stands in the window (R214). -/
theorem multiplyTable4_state (s : State) : multiplyTable4 s.gx s.t4 = xorAll ((List.range 16).map fun k =>
    gf128Double^[8 * k] (xorBytes (selected4 s 0 ((s.byteAt (0x0030 + k)).toNat / 16))
      (selected4 s 1 ((s.byteAt (0x0030 + k)).toNat % 16)))) := by
  rw [multiplyTable4_eq_xorAll]
  refine congrArg xorAll (List.map_congr_left fun k hk => ?_)
  have hlt := (s.byteAt (0x0030 + k)).isLt
  rw [term4, s.byteOf_gx (List.mem_range.1 hk), entryFor_t4 s (by omega) (by omega),
    entryFor_t4 s (by omega) (by omega)]

/-! ### Elements with one byte -/

/-- Byte k of the element is v, and its other bytes are 0. -/
def IsByteAt (a : Block) (k : Nat) (v : Byte) : Prop := ∀ j, j < 16 → byteOf a j = if j = k then v else 0#8

theorem isByteAt_zeroBlock : IsByteAt zeroBlock 0 0#8 := fun j hj => by
  rw [zeroBlock, byteOf_bytesOf_lt _ hj, ite_self]

theorem byteOf_block (bs : List Nat) {j : Nat} (hj : j < 16) :
    byteOf (block bs) j = (bs.map (BitVec.ofNat 8)).getD j 0#8 := byteOf_bytesOf_lt _ hj

theorem isByteAt_elem (v : Nat) : IsByteAt (elem v) 0 (BitVec.ofNat 8 v) := fun j hj => by
  rw [elem, byteOf_block _ hj]
  cases j <;> rfl

theorem isByteAt_last (v : Nat) :
    IsByteAt (block [0, 0, 0, 0, 0, 0, 0, 0, 0, 0, 0, 0, 0, 0, 0, v]) 15 (BitVec.ofNat 8 v) := fun j hj => by
  rw [byteOf_block _ hj]
  interval_cases j <;> rfl

section
variable {a : Block} {k : Nat} {v : Byte} (h : IsByteAt a k v) (hk : k < 16)
include h hk

/-- Only byte k selects an entry of T8. -/
theorem multiplyTable8_byteAt (t : Table8) :
    multiplyTable8 a t = gf128Double^[8 * k] (entryFor (entryOf t) v.toNat) := by
  have hk' : term8 a t k = entryFor (entryOf t) v.toNat := by rw [term8, h k hk, if_pos rfl]
  rw [multiplyTable8_eq_xorAll, ← hk']
  refine xorAll_doubled_eq_single hk fun j hj hne => ?_
  rw [term8, h j hj, if_neg hne]
  exact entryFor_zero _

/-- Only byte k selects entries of T4. -/
theorem multiplyTable4_byteAt (t : Table4) :
    multiplyTable4 a t = gf128Double^[8 * k]
      (xorBytes (entryFor (entry4Of t 0) (v.toNat / 16)) (entryFor (entry4Of t 1) (v.toNat % 16))) := by
  have hk' : term4 a t k
      = xorBytes (entryFor (entry4Of t 0) (v.toNat / 16)) (entryFor (entry4Of t 1) (v.toNat % 16)) := by
    rw [term4, h k hk, if_pos rfl]
  rw [multiplyTable4_eq_xorAll, ← hk']
  refine xorAll_doubled_eq_single hk fun j hj hne => ?_
  rw [term4, h j hj, if_neg hne]
  exact xorBytes_zeroBlock zeroBlock

end

/-- The corner cases of R212. -/
theorem multiplyTable8_corners (t : Table8) :
    multiplyTable8 zeroBlock t = zeroBlock ∧ multiplyTable8 (elem 0x80) t = entryOf t 127 ∧
    ∀ v, 1 ≤ v → v < 256 → multiplyTable8 (block [0, 0, 0, 0, 0, 0, 0, 0, 0, 0, 0, 0, 0, 0, 0, v]) t
      = gf128Double^[120] (entryOf t (v - 1)) := by
  refine ⟨multiplyTable8_byteAt isByteAt_zeroBlock (by omega) t,
    multiplyTable8_byteAt (isByteAt_elem 0x80) (by omega) t, fun v h1 hv => ?_⟩
  rw [multiplyTable8_byteAt (isByteAt_last v) (by omega), BitVec.toNat_ofNat, Nat.mod_eq_of_lt hv, entryFor_of_pos _ h1]

/-- The corner cases of R214. -/
theorem multiplyTable4_corners (t : Table4) :
    multiplyTable4 zeroBlock t = zeroBlock ∧ multiplyTable4 (elem 0x80) t = entry4Of t 0 7 ∧
    multiplyTable4 (elem 0x08) t = entry4Of t 1 7 :=
  ⟨(multiplyTable4_byteAt isByteAt_zeroBlock (by omega) t).trans (xorBytes_zeroBlock _),
    (multiplyTable4_byteAt (isByteAt_elem 0x80) (by omega) t).trans (xorBytes_zeroBlock _),
    (multiplyTable4_byteAt (isByteAt_elem 0x08) (by omega) t).trans (zeroBlock_xorBytes _)⟩

/-- Settles O43: both commands perform their plan, and the loops of both products are sums over the bytes. -/
theorem tableMultipliesUseTheTableAsItStands : Obligations.TableMultipliesUseTheTableAsItStands := by
  refine ⟨wordOf_of_encode rfl rfl, wordOf_of_encode rfl rfl, fun _ h => decode_absent rfl h,
    fun _ h => decode_absent rfl h, fun s => ⟨fun h => ?_, fun h => ?_⟩, multiplyTable8_corners,
    multiplyTable4_corners⟩
  · obtain ⟨t, hrun, hgx⟩ := runs_hmul8 h
    exact ⟨t, hrun, hgx, hgx.trans (multiplyTable8_state s)⟩
  · obtain ⟨t, hrun, hgx⟩ := runs_hmul4 h
    exact ⟨t, hrun, hgx, hgx.trans (multiplyTable4_state s)⟩

end Sys2Proof.Proofs
end

section
/-! The decoder and the encoder undo each other, and which words fail to decode, by the highest bit a format uses
(R70 to R78). -/

namespace Sys2Proof.Proofs

open Sys2Proof Sys2Proof.Machine Sys2Proof.Claims

/-! ### Decoding the word of a command -/

/-- Settles O18: the row of a command accepts the command's word and reads its fields back. -/
theorem decodeOfEncodeIsTheCommand : Obligations.DecodeOfEncodeIsTheCommand :=
  fun _ _ hw ho => decode_encode hw ho

/-- Settles O21: each is the word of a well-formed command. -/
theorem manualWordsDecode : Obligations.ManualWordsDecode := by
  refine ⟨?_, ?_, ?_, ?_, ?_, ?_, ?_, ?_, ?_⟩ <;> exact wordOf_of_encode rfl rfl

/-! ### The fields and the reserved bits of a word, as numbers (R71, R76) -/

theorem opField_toNat (w : Word) : (opField w).toNat = w.toNat % 256 := rfl

/-- A field of a word, as a number. -/
theorem toNat_field (w : Word) (start len : Nat) :
    (w.extractLsb' start len).toNat = w.toNat / 2 ^ start % 2 ^ len := by
  rw [BitVec.extractLsb'_toNat, Nat.shiftRight_eq_div_pow]

theorem formatI_eq_ofNat (op imm8 : Byte) : formatI op imm8 = BitVec.ofNat 32 (op.toNat + 256 * imm8.toNat) := by
  refine word_eq_ofNat ?_
  simp only [formatI, toNat_append_eq, BitVec.toNat_ofNat]
  omega

theorem formatK_eq_ofNat (op : Byte) (src : BitVec 4) :
    formatK op src = BitVec.ofNat 32 (op.toNat + 256 * src.toNat) := by
  refine word_eq_ofNat ?_
  simp only [formatK, toNat_append_eq, BitVec.toNat_ofNat]
  omega

theorem formatN_eq_ofNat (op : Byte) : formatN op = BitVec.ofNat 32 op.toNat := by
  refine word_eq_ofNat ?_
  simp only [formatN, toNat_append_eq, BitVec.toNat_ofNat]
  omega

/-- How many bits a format uses, OP and the fields together; the bits above are reserved (R71). -/
def usedBits : Format → Nat
  | .n => 8
  | .r1 => 12
  | .r2 => 14
  | .i => 16
  | .k => 12

/-- A format's mask holds the bits of OP and the reserved bits (R76). -/
theorem mask_getLsbD (f : Format) {i : Nat} (h : i < 32) :
    f.mask.getLsbD i = (decide (i < 8) || decide (usedBits f ≤ i)) := by
  revert i
  cases f <;> decide

theorem usedBits_ge (f : Format) : 8 ≤ usedBits f := by
  cases f <;> decide

/-- The masked word is OP exactly when no reserved bit is 1. -/
theorem mask_eq_op_iff (f : Format) (w : Word) :
    w &&& f.mask = (opField w).setWidth 32 ↔ w.toNat < 2 ^ usedBits f := by
  have hop : ∀ i, ((opField w).setWidth 32).getLsbD i = (decide (i < 8) && w.getLsbD i) := fun i => by
    rw [BitVec.getLsbD_setWidth, opField, BitVec.getLsbD_extractLsb', Nat.zero_add]
    by_cases hi : i < 8
    · simp [hi, (by omega : i < 32)]
    · simp [hi]
  constructor
  · intro h
    refine Nat.lt_pow_two_of_testBit _ fun i hi => ?_
    by_cases h32 : i < 32
    · have h8 : ¬i < 8 := not_lt.2 ((usedBits_ge f).trans hi)
      have hbit : (w &&& f.mask).getLsbD i = ((opField w).setWidth 32).getLsbD i := by rw [h]
      rwa [BitVec.getLsbD_and, mask_getLsbD f h32, hop, decide_eq_true hi, decide_eq_false h8, Bool.or_true,
        Bool.and_true, Bool.false_and] at hbit
    · exact BitVec.getLsbD_of_ge w i (by omega)
  · intro h
    refine BitVec.eq_of_getLsbD_eq fun i hi => ?_
    rw [BitVec.getLsbD_and, mask_getLsbD f hi, hop]
    by_cases hu : usedBits f ≤ i
    · have hz : w.getLsbD i = false := Nat.testBit_lt_two_pow (lt_of_lt_of_le h (Nat.pow_le_pow_right (by omega) hu))
      simp [hz]
    · simp [hu, Bool.and_comm]

/-! ### The word of a decoded command -/

/-- OP and the fields of a word, put together again (R71). -/
def reassemble (f : Format) (w : Word) : Word :=
  match f with
  | .n => formatN (opField w)
  | .r1 => formatR1 (opField w) (rdField w) (raField w)
  | .r2 => formatR2 (opField w) (rdField w) (raField w) (rbField w)
  | .i => formatI (opField w) (immField w)
  | .k => formatK (opField w) (srcField w)

/-- OP and the fields are the whole word when no reserved bit is 1. -/
theorem reassemble_eq {f : Format} {w : Word} (h : w.toNat < 2 ^ usedBits f) : reassemble f w = w := by
  refine BitVec.eq_of_toNat_eq ?_
  cases f <;>
    simp only [reassemble, formatN_eq_ofNat, formatR1_eq_ofNat, formatR2_eq_ofNat, formatI_eq_ofNat,
      formatK_eq_ofNat, BitVec.toNat_ofNat, opField, rdField, raField, rbField, immField, srcField, toNat_field,
      usedBits] at h ⊢ <;>
    omega

/-- The word of the command a row makes of `w` has the OP and the fields of `w` (R71, R75). -/
theorem encode_make {r : OpRow} (h : r ∈ opMap) {w : Word} (hop : r.op = opField w) :
    encode (r.make w) = reassemble r.format w := by
  unfold reassemble
  rw [← hop]
  revert r
  simp [opMap, encode, Instr.op]

/-- Settles O19: a word that decodes has no reserved bit set, so OP and the fields of its row are the whole word. -/
theorem encodeOfDecodeIsTheWord : Obligations.EncodeOfDecodeIsTheWord := by
  intro b w i h
  obtain ⟨r, hr, -, hmask, -, rfl⟩ := decode_eq_ok_iff.1 h
  obtain ⟨hmem, hop⟩ := opMap_find_some hr
  rw [hop, mask_eq_op_iff] at hmask
  exact ⟨(encode_make hmem hop).trans (reassemble_eq hmask), executable_of_decode (s := State.resetOf b) h⟩

/-! ### The words that fail to decode -/

/-- ILLEGAL_OPCODE: no row has the word's OP (R78). -/
theorem decode_illegalOpcode_iff {b : Build} {w : Word} :
    decode b w = .error .illegalOpcode ↔ opMap.find? (fun r => r.op == opField w) = none := by
  unfold decode
  cases opMap.find? fun r => r.op == opField w with
  | none => simp
  | some r => simp only [reduceCtorEq, iff_false]; split_ifs <;> simp

section
variable {b : Build} {w : Word} {r : OpRow} (hr : opMap.find? (fun r => r.op == opField w) = some r)
include hr

/-- A word whose row the build has is RESERVED_FIELD or decodes (R78). -/
theorem decode_present (ho : optionPresent b r.option = true) :
    decode b w = if 2 ^ usedBits r.format ≤ w.toNat ∨ r.format = .k ∧ srcLegal (srcField w) = false
      then .error .reservedField else .ok (r.make w) := by
  have hmask : w &&& r.format.mask = r.op.setWidth 32 ↔ ¬2 ^ usedBits r.format ≤ w.toNat := by
    rw [not_le, ← mask_eq_op_iff, (opMap_find_some hr).2]
  by_cases hu : 2 ^ usedBits r.format ≤ w.toNat
  · simp [decode, hr, ho, hmask, hu]
  · simp [decode, hr, ho, hmask, hu]

/-- ABSENT_VARIANT: the build lacks the option of the word's row (R78). -/
theorem decode_absentVariant_iff : decode b w = .error .absentVariant ↔ optionPresent b r.option = false := by
  cases ho : optionPresent b r.option with
  | false => simp [decode_absent hr ho]
  | true =>
    rw [decode_present hr ho]
    split <;> simp

/-- RESERVED_FIELD: the row is present, and a reserved bit is 1 or SRC is reserved (R78). -/
theorem decode_reservedField_iff : decode b w = .error .reservedField ↔ optionPresent b r.option = true ∧
    (2 ^ usedBits r.format ≤ w.toNat ∨ r.format = .k ∧ srcLegal (srcField w) = false) := by
  cases ho : optionPresent b r.option with
  | false => simp [decode_absent hr ho]
  | true =>
    rw [decode_present hr ho]
    split
    case isTrue h => simp [h]
    case isFalse h => simp [h]

end

/-- The statements' list of OP values is that of the map (R75). -/
theorem opMap_find_none_iff (op : Byte) : opMap.find? (fun r => r.op == op) = none ↔ op.toNat ∉ mapOps := by
  have hops : mapOps = opMap.map fun r => r.op.toNat := rfl
  rw [hops, List.find?_eq_none, List.mem_map]
  simp [BitVec.toNat_inj]

/-- The option of a row is absent when the statements say so of its OP (R75). -/
theorem absentOp_iff {r : OpRow} (h : r ∈ opMap) (b : Build) :
    AbsentOp b r.op.toNat ↔ optionPresent b r.option = false := by
  revert r
  simp [opMap, AbsentOp, optionPresent, Build.has]

/-- An OP whose command can be absent is in the map. -/
theorem absentOp_mem_mapOps {b : Build} {op : Nat} (h : AbsentOp b op) : op ∈ mapOps := by
  rcases h with ⟨rfl, -⟩ | ⟨rfl | rfl, -⟩ | ⟨rfl | rfl, -⟩ <;> decide

/-- The reserved SRC values are 11 to 14 (R74). -/
theorem srcLegal_eq_false_iff (src : BitVec 4) : srcLegal src = false ↔ 11 ≤ src.toNat ∧ src.toNat ≤ 14 := by
  revert src
  decide

/-- What the statements call reserved, by the bits the row's format uses (R71, R74). -/
theorem reservedSet_number {r : OpRow} (h : r ∈ opMap) {n : Nat} (hop : n % 256 = r.op.toNat) :
    ReservedSet n ↔ 2 ^ usedBits r.format ≤ n ∨ r.format = .k ∧ 11 ≤ n / 256 ∧ n / 256 ≤ 14 := by
  unfold ReservedSet
  rw [hop]
  revert r
  simp [opMap, usedBits]

/-- A word of a row is reserved when a bit above its format is 1, or its SRC is not legal (R71, R74, R77). -/
theorem reservedSet_iff {r : OpRow} {w : Word} (h : r ∈ opMap) (hop : r.op = opField w) :
    ReservedSet w.toNat ↔ 2 ^ usedBits r.format ≤ w.toNat ∨ r.format = .k ∧ srcLegal (srcField w) = false := by
  refine (reservedSet_number h (by rw [hop, opField_toNat])).trans
    (or_congr_right' fun hlt => and_congr_right fun hk => ?_)
  rw [hk, usedBits] at hlt
  rw [srcLegal_eq_false_iff, srcField, toNat_field]
  omega

/-- Settles O20: a word fails by its row, whose OP, option and reserved bits are those the statement writes out. -/
theorem decodeErrorsInPriorityOrder : Obligations.DecodeErrorsInPriorityOrder := by
  refine ⟨rfl, rfl, rfl, fun b w => ?_⟩
  dsimp only
  rw [← opField_toNat]
  refine ⟨decode_illegalOpcode_iff.trans (opMap_find_none_iff _), ?_⟩
  cases hr : opMap.find? (fun r => r.op == opField w) with
  | none =>
    have hop := (opMap_find_none_iff _).1 hr
    have hdec : decode b w = .error .illegalOpcode := decode_illegalOpcode_iff.2 hr
    have habs : ¬AbsentOp b (opField w).toNat := fun h => hop (absentOp_mem_mapOps h)
    simp [hdec, hop, habs]
  | some r =>
    obtain ⟨hmem, hop⟩ := opMap_find_some hr
    have hin : (opField w).toNat ∈ mapOps := not_not.1 (mt (opMap_find_none_iff _).2 (by simp [hr]))
    have habs := hop ▸ absentOp_iff hmem b
    refine ⟨(decode_absentVariant_iff hr).trans habs.symm, ?_⟩
    rw [decode_reservedField_iff hr, reservedSet_iff hmem hop, habs, Bool.not_eq_false, and_iff_right hin]

end Sys2Proof.Proofs
end

section
/-! Commands the decoder cannot give, the scalar S-box commands, and ARK (R74, R125, R126, R140, R145, R241). -/

namespace Sys2Proof.Proofs

open Sys2Proof Sys2Proof.Machine Sys2Proof.Claims

/-! ### Outside the decoder's reach -/

/-- Settles O25: a reserved SRC and an absent option, the only two ways out of the decoder's reach, each take their
error. -/
theorem unreachableCommandsTakeTheirError : Obligations.UnreachableCommandsTakeTheirError := by
  intro i s h
  cases i with
  | ark src =>
    have hsrc : ¬srcLegal src = true := fun hl => h ⟨hl, rfl⟩
    have hw : ¬(Instr.ark src).wellFormed = true := hsrc
    rw [if_neg hw]
    exact if_neg hsrc
  | hmulb | ht8b | hmul8 | ht4b | hmul4 => exact if_neg fun ho => h ⟨rfl, ho⟩
  | _ => exact absurd ⟨rfl, rfl⟩ h

/-! ### The scalar S-box commands -/

/-- Settles O29: each command performs its plan, one byte stored in G[RD], the S-box image of G[RA] before. -/
theorem scalarSboxCommandsSubstitute : Obligations.ScalarSboxCommandsSubstitute := by
  intro rd ra s
  refine ⟨⟨?_, ?_⟩, ?_, ?_⟩
  · exact wordOf_of_encode rfl (formatR1_eq_ofNat 0x20#8 rd ra)
  · exact runs_scalarUnary ⟨rfl, rfl⟩ rfl
  · exact wordOf_of_encode rfl (formatR1_eq_ofNat 0x21#8 rd ra)
  · exact runs_scalarUnary ⟨rfl, rfl⟩ rfl

/-! ### ARK -/

/-- ARK with a legal SRC runs, and BLK holds its XOR with the selected round key (R140, R145). -/
theorem runs_ark {src : BitVec 4} (h : srcLegal src = true) (s : State) :
    ∃ t, Runs (.ark src) s t ∧ t.blk = xorRoundKey s.blk (s.srcKey src) :=
  ⟨_, runs_plan ⟨h, rfl⟩, storeAt_bytesAt_same _ 0x0010 _⟩

/-- SRC 0 to 10 is a schedule round's, 15 KEY's (R74). -/
theorem srcLegal_iff (src : BitVec 4) : srcLegal src = true ↔ src.toNat ≤ 10 ∨ src = 15#4 := by
  simp [srcLegal]

/-- The word of ARK with a reserved SRC is RESERVED_FIELD in every build (R74, R78). -/
theorem decode_ark_reserved (b : Build) {src : BitVec 4} (h : srcLegal src = false) :
    decode b (encode (.ark src)) = .error .reservedField := by
  have hr : opMap.find? (fun r => r.op == opField (encode (.ark src)))
      = some ⟨0x30#8, .k, none, fun w => .ark (srcField w)⟩ := by
    rw [opField_encode]
    rfl
  exact (decode_reservedField_iff hr).2 ⟨rfl, .inr ⟨rfl, (congrArg srcLegal (srcField_formatK _ src)).trans h⟩⟩

/-- Settles O31: a legal SRC selects the key of the plan, a reserved one is the reserved field of ARK's word. -/
theorem arkXorsTheSelectedRoundKey : Obligations.ArkXorsTheSelectedRoundKey := by
  refine ⟨fun src h => ?_, fun b src h11 h14 => ?_, fun src s h => ?_, fun s => ?_⟩
  · exact wordOf_of_encode ((srcLegal_iff src).2 h) (formatK_eq_ofNat 0x30#8 src)
  · have hword : encode (.ark src) = BitVec.ofNat 32 (0x30 + 256 * src.toNat) := formatK_eq_ofNat 0x30#8 src
    rw [← hword]
    exact decode_ark_reserved b ((srcLegal_eq_false_iff src).2 ⟨h11, h14⟩)
  · obtain ⟨t, hrun, hblk⟩ := runs_ark ((srcLegal_iff src).2 (.inl h)) s
    have hkey : s.srcKey src = roundKeyOf s.sch src.toNat := if_neg fun h15 => by simp [h15] at h
    refine ⟨t, hrun, fun i hi => ?_⟩
    rw [hblk, hkey, xorRoundKey, byteOf_xorBytes _ _ hi, byteOf_roundKeyOf _ _ hi]
  · obtain ⟨t, hrun, hblk⟩ := runs_ark (src := 15#4) rfl s
    refine ⟨t, hrun, fun i hi => ?_⟩
    rw [hblk, xorRoundKey, byteOf_xorBytes _ _ hi]
    rfl

end Sys2Proof.Proofs
end

section
/-! One round of the key, byte by byte: KADV and KREG (R163, R164, R168, R169). -/

namespace Sys2Proof.Proofs

open Sys2Proof Sys2Proof.Machine Sys2Proof.Claims

/-! ### Columns of a key and of a block -/

/-- A byte of a key word XORed with another word, at its place in the key. -/
theorem byteOf_xorBytes_columnOf (k : Block) (w : Column) {i c : Nat} (h : i / 4 = c) :
    byteOf (xorBytes (columnOf k c) w) (i % 4) = byteOf k i ^^^ byteOf w (i % 4) := by
  rw [byteOf_xorBytes _ _ (by omega), byteOf_columnOf _ _ (by omega), (by omega : 4 * c + i % 4 = i)]

/-- A byte of word 0 of a key XORed with the transformed word `w`. -/
theorem byteOf_xorBytes_subRotRcon (k : Block) (w : Column) (rc : Byte) {j : Nat} (h : j < 4) :
    byteOf (xorBytes (columnOf k 0) (subRotRcon w rc)) j
      = byteOf k j ^^^ (sbox (byteOf w ((j + 1) % 4)) ^^^ (if j = 0 then rc else 0#8)) := by
  rw [byteOf_xorBytes _ _ h, byteOf_columnOf _ _ h, byteOf_subRotRcon _ _ h, Nat.mul_zero, Nat.zero_add]

section
variable (c0 c1 c2 c3 : Column)

/-- Word 0 of a block of four columns. -/
theorem byteOf_ofColumns_first {j : Nat} (h : j < 4) : byteOf (ofColumns c0 c1 c2 c3) j = byteOf c0 j := by
  rw [byteOf_ofColumns _ _ _ _ (by omega), Nat.div_eq_of_lt h, Nat.mod_eq_of_lt h]
  rfl

/-- Word 3 of a block of four columns. -/
theorem byteOf_ofColumns_last {j : Nat} (h : j < 4) : byteOf (ofColumns c0 c1 c2 c3) (12 + j) = byteOf c3 j := by
  rw [byteOf_ofColumns _ _ _ _ (by omega), (by omega : (12 + j) / 4 = 3), (by omega : (12 + j) % 4 = j)]
  rfl

end

/-! ### The two round steps -/

/-- Word 0 of an advanced key takes the transformed old last word. -/
theorem byteOf_advanceRound_first (k : Block) (rc : Byte) {j : Nat} (h : j < 4) :
    byteOf (advanceRound k rc) j = byteOf k j ^^^
      (sbox (byteOf k (12 + (j + 1) % 4)) ^^^ (if j = 0 then rc else 0#8)) := by
  rw [advanceRound, byteOf_ofColumns_first _ _ _ _ h, byteOf_xorBytes_subRotRcon _ _ _ h,
    byteOf_columnOf _ _ (by omega)]

/-- Each later word of an advanced key is XORed with the new word before it. -/
theorem byteOf_advanceRound_later (k : Block) (rc : Byte) {i : Nat} (h4 : 4 ≤ i) (h : i < 16) :
    byteOf (advanceRound k rc) i = byteOf k i ^^^ byteOf (advanceRound k rc) (i - 4) := by
  rw [advanceRound, byteOf_ofColumns _ _ _ _ h, byteOf_ofColumns _ _ _ _ (by omega : i - 4 < 16),
    (by omega : (i - 4) / 4 = i / 4 - 1), (by omega : (i - 4) % 4 = i % 4)]
  rcases (by omega : i / 4 = 1 ∨ i / 4 = 2 ∨ i / 4 = 3) with hc | hc | hc <;> rw [hc] <;>
    exact byteOf_xorBytes_columnOf k _ hc

/-- Each later word of a regressed key is XORed with the old word before it. -/
theorem byteOf_regressRound_later (k : Block) (rc : Byte) {i : Nat} (h4 : 4 ≤ i) (h : i < 16) :
    byteOf (regressRound k rc) i = byteOf k i ^^^ byteOf k (i - 4) := by
  have hword : ∀ c, i / 4 = c + 1 →
      byteOf (xorBytes (columnOf k (c + 1)) (columnOf k c)) (i % 4) = byteOf k i ^^^ byteOf k (i - 4) := fun c hc => by
    rw [byteOf_xorBytes_columnOf k _ hc, byteOf_columnOf _ _ (by omega), (by omega : 4 * c + i % 4 = i - 4)]
  rw [regressRound, byteOf_ofColumns _ _ _ _ h]
  rcases (by omega : i / 4 = 1 ∨ i / 4 = 2 ∨ i / 4 = 3) with hc | hc | hc <;> rw [hc] <;> exact hword _ hc

/-- Word 0 of a regressed key is undone by the restored last word. -/
theorem byteOf_regressRound_first (k : Block) (rc : Byte) {j : Nat} (h : j < 4) :
    byteOf (regressRound k rc) j = byteOf k j ^^^
      (sbox (byteOf (regressRound k rc) (12 + (j + 1) % 4)) ^^^ (if j = 0 then rc else 0#8)) := by
  rw [regressRound, byteOf_ofColumns_first _ _ _ _ h, byteOf_ofColumns_last _ _ _ _ (by omega),
    byteOf_xorBytes_subRotRcon _ _ _ h]

/-! ### KADV and KREG -/

/-- A command with the plan of a function of KEY runs, and KEY holds the function of KEY before. -/
theorem runs_keyUnary {i : Instr} {f : Block → Block} {s : State} (hi : Executable i s) (hp : plan i s = keyPlan f s) :
    ∃ t, Runs i s t ∧ t.key = f s.key := by
  refine ⟨_, runs_plan hi, ?_⟩
  rw [hp]
  exact storeAt_bytesAt_same _ 0x0020 _

/-- Settles O35: both commands perform their plan, whose one round is read off byte by byte. -/
theorem keyRoundStepsByTheirRules : Obligations.KeyRoundStepsByTheirRules := by
  intro rc s
  obtain ⟨t, hadv, htkey⟩ := runs_keyUnary (i := .kadv rc) (f := (advanceRound · rc)) (s := s) ⟨rfl, rfl⟩ rfl
  obtain ⟨u, hreg, hukey⟩ := runs_keyUnary (i := .kreg rc) (f := (regressRound · rc)) (s := s) ⟨rfl, rfl⟩ rfl
  refine ⟨⟨wordOf_of_encode rfl (formatI_eq_ofNat 0x41#8 rc), t, hadv, ?_⟩,
    wordOf_of_encode rfl (formatI_eq_ofNat 0x42#8 rc), u, hreg, ?_⟩
  · rw [htkey]
    exact ⟨fun _ hj => byteOf_advanceRound_first s.key rc hj,
      fun _ h4 hi => byteOf_advanceRound_later s.key rc h4 hi⟩
  · rw [hukey]
    exact ⟨fun _ h4 hi => byteOf_regressRound_later s.key rc h4 hi,
      fun _ hj => byteOf_regressRound_first s.key rc hj⟩

end Sys2Proof.Proofs
end

section
/-! The field laws of GF(2^8), read off the residues modulo 0x11B (R102 to R104), and the corner cases of the scalar
field commands (R105 to R108). -/

namespace Sys2Proof.Proofs

open Sys2Proof Sys2Proof.Machine Sys2Proof.Claims Polynomial

/-! ### The ring laws of the product -/

/-- Different bytes stand for different field elements. -/
theorem residue8_injective {a b : Byte} (h : residue8 a = residue8 b) : a = b :=
  BitVec.eq_of_getLsbD_eq fun _ hi => eq_of_dvd_polyOf_sub modulus8_eq (residue_eq_iff.1 h) hi

@[simp] theorem residue8_one : residue8 0x01#8 = 1 := by
  rw [residue8, poly8_eq]
  simp [polyOf]

@[simp] theorem residue8_two : residue8 0x02#8 = AdjoinRoot.root modulus8 := by
  rw [(by decide : 0x02#8 = gfDouble 0x01#8), residue8_gfDouble, residue8_one, mul_one]

theorem gfMul_comm (a b : Byte) : gfMul a b = gfMul b a :=
  residue8_injective (by rw [residue8_gfMul, residue8_gfMul, mul_comm])

theorem gfMul_assoc (a b c : Byte) : gfMul (gfMul a b) c = gfMul a (gfMul b c) :=
  residue8_injective (by simp only [residue8_gfMul, mul_assoc])

@[simp] theorem zero_gfMul (a : Byte) : gfMul 0x00#8 a = 0x00#8 :=
  residue8_injective (by rw [residue8_gfMul, residue8_zero, zero_mul])

@[simp] theorem gfMul_zero (a : Byte) : gfMul a 0x00#8 = 0x00#8 := by rw [gfMul_comm, zero_gfMul]

@[simp] theorem one_gfMul (a : Byte) : gfMul 0x01#8 a = a :=
  residue8_injective (by rw [residue8_gfMul, residue8_one, one_mul])

@[simp] theorem gfMul_one (a : Byte) : gfMul a 0x01#8 = a := by rw [gfMul_comm, one_gfMul]

theorem xor_gfMul (a b c : Byte) : gfMul (a ^^^ b) c = gfMul a c ^^^ gfMul b c :=
  residue8_injective (by simp only [residue8_gfMul, residue8_xor, add_mul])

theorem gfDouble_gfMul (a b : Byte) : gfMul (gfDouble a) b = gfDouble (gfMul a b) :=
  residue8_injective (by simp only [residue8_gfMul, residue8_gfDouble, mul_assoc])

theorem two_gfMul (a : Byte) : gfMul 0x02#8 a = gfDouble a := by
  rw [(by decide : 0x02#8 = gfDouble 0x01#8), gfDouble_gfMul, one_gfMul]

/-! ### The inverse

A power of the Frobenius map fixes every residue, so a^255 is idempotent; the only idempotent bytes are 0 and 1. -/

/-- The addition chain written out, every product named by its power of a (R103). -/
theorem gfInv_eq (a : Byte) : gfInv a =
    let p2 := gfMul a a
    let p4 := gfMul p2 p2
    let p6 := gfMul p4 p2
    let p12 := gfMul p6 p6
    let p24 := gfMul p12 p12
    let p30 := gfMul p24 p6
    let p60 := gfMul p30 p30
    let p120 := gfMul p60 p60
    let p126 := gfMul p120 p6
    let p252 := gfMul p126 p126
    gfMul p252 p2 := by simp [gfInv, forUp, invChain]

/-- The addition chain computes a^254 (R103). -/
theorem residue8_gfInv (a : Byte) : residue8 (gfInv a) = residue8 a ^ 254 := by
  simp only [gfInv_eq, residue8_gfMul]
  ring

/-- The residues modulo 0x11B have characteristic 2. -/
theorem charP_residues8 : CharP (AdjoinRoot modulus8) 2 := by
  have : Nontrivial (AdjoinRoot modulus8) := ⟨residue8 0x00#8, residue8 0x01#8, mt residue8_injective (by decide)⟩
  exact charP_of_injective_algebraMap (algebraMap (ZMod 2) (AdjoinRoot modulus8)).injective 2

theorem root_pow_256 : AdjoinRoot.root modulus8 ^ 256 = AdjoinRoot.root modulus8 := by
  have h : gfMul 0x02#8 (gfMul 0x02#8 (gfInv 0x02#8)) = 0x02#8 := by decide +kernel
  have hr := congrArg residue8 h
  simpa only [residue8_gfMul, residue8_gfInv, residue8_two, ← pow_succ'] using hr

/-- The eighth power of the Frobenius map fixes the residue of x, hence all of them. -/
theorem residues8_pow_256 (x : AdjoinRoot modulus8) : x ^ 256 = x := by
  have := charP_residues8
  have hid : iterateFrobenius (AdjoinRoot modulus8) 2 8 = RingHom.id _ :=
    AdjoinRoot.ringHom_ext (Subsingleton.elim _ _) root_pow_256
  exact RingHom.congr_fun hid x

/-- 0x11B is no product of two coprime factors: the only idempotent bytes are 0 and 1. -/
theorem eq_zero_or_one_of_gfMul_self : ∀ e : Byte, gfMul e e = e → e = 0x00#8 ∨ e = 0x01#8 := by decide +kernel

theorem gfMul_gfMul_gfInv (a : Byte) : gfMul a (gfMul a (gfInv a)) = a :=
  residue8_injective (by
    rw [residue8_gfMul, residue8_gfMul, residue8_gfInv, ← pow_succ', ← pow_succ', residues8_pow_256])

theorem gfMul_gfInv {a : Byte} (h : a ≠ 0x00#8) : gfMul a (gfInv a) = 0x01#8 := by
  have hidem : gfMul (gfMul a (gfInv a)) (gfMul a (gfInv a)) = gfMul a (gfInv a) := by
    rw [gfMul_comm a (gfInv a), gfMul_assoc, gfMul_comm (gfInv a) a, gfMul_gfMul_gfInv, gfMul_comm]
  refine (eq_zero_or_one_of_gfMul_self _ hidem).resolve_left fun h0 => h ?_
  rw [← gfMul_gfMul_gfInv a, h0, gfMul_zero]

theorem gfInv_zero : gfInv 0x00#8 = 0x00#8 := residue8_injective (by simp [residue8_gfInv])

/-- Inverses are unique: a and the inverse of its inverse are both inverses of `gf_inv(a)`. -/
theorem gfInv_gfInv (a : Byte) : gfInv (gfInv a) = a := by
  by_cases ha : a = 0x00#8
  · rw [ha, gfInv_zero, gfInv_zero]
  · have hinv := gfMul_gfInv ha
    have hne : gfInv a ≠ 0x00#8 := fun h0 => by simp [h0] at hinv
    calc gfInv (gfInv a)
        = gfMul (gfMul a (gfInv a)) (gfInv (gfInv a)) := by rw [hinv, one_gfMul]
      _ = gfMul a (gfMul (gfInv a) (gfInv (gfInv a))) := gfMul_assoc _ _ _
      _ = a := by rw [gfMul_gfInv hne, gfMul_one]

/-! ### The laws, and the values at the corners -/

/-- Settles O44: each law is one of the residues modulo 0x11B, the inverse's from a^256 = a. -/
theorem byteFieldLaws : Obligations.ByteFieldLaws :=
  ⟨gfMul_comm, fun a => ⟨gfMul_zero a, gfMul_one a, (gfMul_comm a _).trans (two_gfMul a)⟩, fun _ => gfMul_gfInv,
    gfInv_zero, gfInv_gfInv, by decide, by decide, by decide, by decide, fun _ => BitVec.xor_self⟩

/-- Settles O28: the products by 0 and 1 are laws of the field, the rest are single values of the functions. -/
theorem scalarFieldCornerCases : Obligations.ScalarFieldCornerCases := by
  refine ⟨?_, ?_, ?_, ?_, ?_, ?_, ?_, ?_, ?_, fun a => ⟨gfMul_zero a, zero_gfMul a, gfMul_one a, one_gfMul a⟩,
    gfInv_zero, ?_, ?_, ?_, ?_⟩ <;> decide +kernel

end Sys2Proof.Proofs
end

section
/-! MIXC and IMIXC: every column of BLK times a fixed matrix over the field product (R143, R144, R148, R149). -/

namespace Sys2Proof.Proofs

open Sys2Proof Sys2Proof.Machine Sys2Proof.Claims

/-! ### The multiples of a byte, by doublings -/

theorem three_gfMul (a : Byte) : gfMul 0x03#8 a = gfDouble a ^^^ a := by
  rw [(by decide : 0x03#8 = 0x02#8 ^^^ 0x01#8), xor_gfMul, two_gfMul, one_gfMul]

theorem four_gfMul (a : Byte) : gfMul 0x04#8 a = gfDouble (gfDouble a) := by
  rw [(by decide : 0x04#8 = gfDouble 0x02#8), gfDouble_gfMul, two_gfMul]

theorem eight_gfMul (a : Byte) : gfMul 0x08#8 a = gfDouble (gfDouble (gfDouble a)) := by
  rw [(by decide : 0x08#8 = gfDouble 0x04#8), gfDouble_gfMul, four_gfMul]

/-- The doublings of R144 are the products by 9, 11, 13 and 14: sums of the powers 8, 4, 2 and 1. -/
theorem invMultiples_eq (a : Byte) :
    invMultiples a = ⟨gfMul 0x09#8 a, gfMul 0x0B#8 a, gfMul 0x0D#8 a, gfMul 0x0E#8 a⟩ := by
  rw [(by decide : 0x09#8 = 0x08#8 ^^^ 0x01#8), (by decide : 0x0B#8 = 0x08#8 ^^^ 0x02#8 ^^^ 0x01#8),
    (by decide : 0x0D#8 = 0x08#8 ^^^ 0x04#8 ^^^ 0x01#8), (by decide : 0x0E#8 = 0x08#8 ^^^ 0x04#8 ^^^ 0x02#8)]
  simp only [xor_gfMul, eight_gfMul, four_gfMul, two_gfMul, one_gfMul]
  rfl

/-! ### The columns -/

/-- Byte r of column c after a column function (R143, R144). -/
theorem byteOf_mapColumns (f : Column → Column) (b : Block) {c r : Nat} (hc : c < 4) (hr : r < 4) :
    byteOf (mapColumns f b) (4 * c + r) = byteOf (f (columnOf b c)) r := by
  rw [mapColumns, byteOf_ofColumns _ _ _ _ (by omega), (by omega : (4 * c + r) / 4 = c),
    (by omega : (4 * c + r) % 4 = r)]
  interval_cases c <;> rfl

/-- A row of coefficients times a column, by the bytes of the column. -/
theorem rowTimesColumn_eq (m0 m1 m2 m3 : Nat) (b : Block) (c : Nat) :
    rowTimesColumn [m0, m1, m2, m3] b c =
      gfMul (BitVec.ofNat 8 m0) (byteOf (columnOf b c) 0) ^^^ gfMul (BitVec.ofNat 8 m1) (byteOf (columnOf b c) 1) ^^^
      gfMul (BitVec.ofNat 8 m2) (byteOf (columnOf b c) 2) ^^^ gfMul (BitVec.ofNat 8 m3) (byteOf (columnOf b c) 3) := rfl

theorem mixColumn_columnOf (b : Block) (c : Nat) :
    mixColumn (columnOf b c) = #v[rowTimesColumn [2, 3, 1, 1] b c, rowTimesColumn [1, 2, 3, 1] b c,
      rowTimesColumn [1, 1, 2, 3] b c, rowTimesColumn [3, 1, 1, 2] b c] := by
  simp only [rowTimesColumn_eq, one_gfMul, two_gfMul, three_gfMul]
  rfl

theorem mixColumnInverse_columnOf (b : Block) (c : Nat) :
    mixColumnInverse (columnOf b c) = #v[rowTimesColumn [14, 11, 13, 9] b c, rowTimesColumn [9, 14, 11, 13] b c,
      rowTimesColumn [13, 9, 14, 11] b c, rowTimesColumn [11, 13, 9, 14] b c] := by
  simp only [mixColumnInverse, invMultiples_eq, rowTimesColumn_eq]

/-! ### MIXC and IMIXC -/

/-- A command with the plan of a function of BLK runs, and BLK holds the function of BLK before. -/
theorem runs_blockUnary {i : Instr} {f : Block → Block} {s : State} (hi : Executable i s)
    (hp : plan i s = blockPlan f s) : ∃ t, Runs i s t ∧ t.blk = f s.blk := by
  refine ⟨_, runs_plan hi, ?_⟩
  rw [hp]
  exact storeAt_bytesAt_same _ 0x0010 _

/-- A command that maps the columns of BLK, by a column function whose four bytes are known, leaves those bytes. -/
theorem runs_mapColumns {i : Instr} {f : Column → Column} {s : State} {b0 b1 b2 b3 : Nat → Byte}
    (hi : Executable i s) (hp : plan i s = blockPlan (mapColumns f) s)
    (hf : ∀ c, f (columnOf s.blk c) = #v[b0 c, b1 c, b2 c, b3 c]) :
    ∃ t, Runs i s t ∧ ∀ c, c < 4 → byteOf t.blk (4 * c) = b0 c ∧ byteOf t.blk (4 * c + 1) = b1 c ∧
      byteOf t.blk (4 * c + 2) = b2 c ∧ byteOf t.blk (4 * c + 3) = b3 c := by
  obtain ⟨t, hrun, hblk⟩ := runs_blockUnary hi hp
  have hbyte : ∀ c r, c < 4 → r < 4 → byteOf t.blk (4 * c + r) = [b0 c, b1 c, b2 c, b3 c].getD r 0#8 :=
    fun c r hc hr => by rw [hblk, byteOf_mapColumns f _ hc hr, hf, byteOf_vec4]
  exact ⟨t, hrun, fun c hc => ⟨hbyte c 0 hc (by omega), hbyte c 1 hc (by omega), hbyte c 2 hc (by omega),
    hbyte c 3 hc (by omega)⟩⟩

/-- Settles O33: the doublings of the column functions are the products by the entries of the matrices. -/
theorem mixColumnsAreTheMatrixProducts : Obligations.MixColumnsAreTheMatrixProducts :=
  ⟨wordOf_of_encode rfl (formatN_eq_ofNat 0x33#8), wordOf_of_encode rfl (formatN_eq_ofNat 0x34#8), fun s =>
    ⟨runs_mapColumns ⟨rfl, rfl⟩ rfl (mixColumn_columnOf s.blk),
      runs_mapColumns ⟨rfl, rfl⟩ rfl (mixColumnInverse_columnOf s.blk)⟩⟩

end Sys2Proof.Proofs
end

section
/-! SUBB and ISUBB, and the S-box as an affine map after the inverse (R9, R120, R121, R124, R127, R128). -/

namespace Sys2Proof.Proofs

open Sys2Proof Sys2Proof.Machine Sys2Proof.Claims

/-! ### SUBB and ISUBB -/

/-- A command that maps the bytes of BLK leaves the image of each byte. -/
theorem runs_mapBytes {i : Instr} {f : Byte → Byte} {s : State} (hi : Executable i s)
    (hp : plan i s = blockPlan (fun b => bytesOf 16 fun j => f (byteOf b j)) s) :
    ∃ t, Runs i s t ∧ ∀ j, j < 16 → byteOf t.blk j = f (byteOf s.blk j) := by
  obtain ⟨t, hrun, hblk⟩ := runs_blockUnary hi hp
  exact ⟨t, hrun, fun j hj => by rw [hblk, byteOf_bytesOf_lt _ hj]⟩

/-- Settles O30: both commands perform their plan, which stores the image of every byte of BLK. -/
theorem blockSubstitutionIsPerByte : Obligations.BlockSubstitutionIsPerByte :=
  ⟨wordOf_of_encode rfl (formatN_eq_ofNat 0x22#8), wordOf_of_encode rfl (formatN_eq_ofNat 0x23#8), fun _ =>
    ⟨runs_mapBytes ⟨rfl, rfl⟩ rfl, runs_mapBytes ⟨rfl, rfl⟩ rfl⟩⟩

/-! ### The affine maps, bit by bit -/

/-- A left rotation by `k` moves bit `i + (8 - k)` (mod 8) to bit `i` (R9). -/
theorem getLsbD_rotl8 (v : Byte) {k j i : Nat} (hkj : k + j = 8) (hi : i < 8) :
    (rotl8 v k).getLsbD i = v.getLsbD ((i + j) % 8) := by
  rw [rotl8, (by omega : 8 - k = j), BitVec.getLsbD_or, BitVec.getLsbD_shiftLeft, BitVec.getLsbD_ushiftRight]
  by_cases hik : i < k
  · simp [hik, Nat.mod_eq_of_lt (by omega : i + j < 8), Nat.add_comm j i]
  · simp [hi, hik, BitVec.getLsbD_of_ge v (j + i) (by omega), (by omega : (i + j) % 8 = i - k)]

/-- The rotations 1 to 4 read the bits 7, 6, 5 and 4 places up (R120). -/
theorem getLsbD_sboxAffine (b : Byte) {i : Nat} (hi : i < 8) : (sboxAffine b).getLsbD i =
    (b.getLsbD i ^^ b.getLsbD ((i + 4) % 8) ^^ b.getLsbD ((i + 5) % 8) ^^ b.getLsbD ((i + 6) % 8) ^^
      b.getLsbD ((i + 7) % 8) ^^ (0x63#8).getLsbD i) := by
  simp only [sboxAffine, BitVec.getLsbD_xor]
  rw [getLsbD_rotl8 b (rfl : 1 + 7 = 8) hi, getLsbD_rotl8 b (rfl : 2 + 6 = 8) hi,
    getLsbD_rotl8 b (rfl : 3 + 5 = 8) hi, getLsbD_rotl8 b (rfl : 4 + 4 = 8) hi]
  simp only [Bool.xor_assoc, Bool.xor_comm, Bool.xor_left_comm]

/-- The rotations 1, 3 and 6 read the bits 7, 5 and 2 places up (R121). -/
theorem getLsbD_sboxAffineInv (s : Byte) {i : Nat} (hi : i < 8) : (sboxAffineInv s).getLsbD i =
    (s.getLsbD ((i + 2) % 8) ^^ s.getLsbD ((i + 5) % 8) ^^ s.getLsbD ((i + 7) % 8) ^^ (0x05#8).getLsbD i) := by
  simp only [sboxAffineInv, BitVec.getLsbD_xor]
  rw [getLsbD_rotl8 s (rfl : 1 + 7 = 8) hi, getLsbD_rotl8 s (rfl : 3 + 5 = 8) hi,
    getLsbD_rotl8 s (rfl : 6 + 2 = 8) hi]
  simp only [Bool.xor_assoc, Bool.xor_comm]

/-! ### The two substitutions undo each other -/

theorem sboxAffineInv_sboxAffine : ∀ b : Byte, sboxAffineInv (sboxAffine b) = b := by decide +kernel

theorem sboxAffine_sboxAffineInv : ∀ s : Byte, sboxAffine (sboxAffineInv s) = s := by decide +kernel

@[simp] theorem sboxInverse_sbox (a : Byte) : sboxInverse (sbox a) = a := by
  rw [sboxInverse, sbox, sboxAffineInv_sboxAffine, gfInv_gfInv]

@[simp] theorem sbox_sboxInverse (a : Byte) : sbox (sboxInverse a) = a := by
  rw [sbox, sboxInverse, gfInv_gfInv, sboxAffine_sboxAffineInv]

/-! ### No fixed point and no complement point -/

theorem sbox_zero : sbox 0x00#8 = 0x63#8 := by
  rw [sbox, gfInv_zero]
  decide

/-- Undoing the affine map leaves `gf_inv(a)`, the inverse of a nonzero byte in the field. -/
theorem gfMul_sboxAffineInv_sbox {a : Byte} (h : a ≠ 0x00#8) : gfMul a (sboxAffineInv (sbox a)) = 0x01#8 := by
  rw [sbox, sboxAffineInv_sboxAffine, gfMul_gfInv h]

theorem gfMul_sboxAffineInv_ne_one : ∀ a : Byte, gfMul a (sboxAffineInv a) ≠ 0x01#8 := by decide +kernel

theorem gfMul_sboxAffineInv_complement_ne_one : ∀ a : Byte, gfMul a (sboxAffineInv (a ^^^ 0xFF#8)) ≠ 0x01#8 := by
  decide +kernel

/-- A byte whose product with the inverse affine image of `c` is not 1 does not have the S-box value `c`. -/
theorem sbox_ne {a c : Byte} (hzero : a = 0x00#8 → c ≠ 0x63#8) (h : gfMul a (sboxAffineInv c) ≠ 0x01#8) :
    sbox a ≠ c := by
  rintro rfl
  by_cases ha : a = 0x00#8
  · exact hzero ha (ha ▸ sbox_zero)
  · exact h (gfMul_sboxAffineInv_sbox ha)

/-- No byte is its own S-box value (R124). -/
theorem sbox_ne_self (a : Byte) : sbox a ≠ a :=
  sbox_ne (by rintro rfl; decide) (gfMul_sboxAffineInv_ne_one a)

/-- The S-box value of no byte is its complement (R124). -/
theorem sbox_ne_complement (a : Byte) : sbox a ≠ a ^^^ 0xFF#8 :=
  sbox_ne (by rintro rfl; decide) (gfMul_sboxAffineInv_complement_ne_one a)

/-- Settles O46: the bits are those of the affine maps, `gf_inv` and each affine map are undone, and a fixed or
complement point would be a root of a field equation that no byte solves. -/
theorem sboxIsABijectionWithoutFixedPoints : Obligations.SboxIsABijectionWithoutFixedPoints := fun a =>
  ⟨fun _ hi => getLsbD_sboxAffine (gfInv a) hi,
    ⟨sboxAffineInv a, rfl, fun _ hi => getLsbD_sboxAffineInv a hi⟩,
    sboxInverse_sbox a, sbox_sboxInverse a, sbox_ne_self a, sbox_ne_complement a, sbox_zero⟩

end Sys2Proof.Proofs
end

section
/-! SHR and ISHR move the rows of BLK, and every block transform is undone by its inverse (R124, R140 to R147). -/

namespace Sys2Proof.Proofs

open Sys2Proof Sys2Proof.Machine Sys2Proof.Claims

/-! ### SHR and ISHR -/

theorem byteOf_shiftRows (b : Block) {c r : Nat} (hc : c < 4) (hr : r < 4) :
    byteOf (shiftRows b) (4 * c + r) = byteOf b (4 * ((c + r) % 4) + r) := by
  rw [shiftRows, byteOf_bytesOf_lt _ (by omega), (by omega : (4 * c + r) / 4 = c), (by omega : (4 * c + r) % 4 = r)]

theorem byteOf_shiftRowsInverse (b : Block) {c r : Nat} (hc : c < 4) (hr : r < 4) :
    byteOf (shiftRowsInverse b) (4 * c + r) = byteOf b (4 * ((c + 4 - r) % 4) + r) := by
  rw [shiftRowsInverse, byteOf_bytesOf_lt _ (by omega), (by omega : (4 * c + r) / 4 = c),
    (by omega : (4 * c + r) % 4 = r)]

/-- A command with the plan of a function of BLK, whose bytes are known by column and row, leaves those bytes. -/
theorem runs_blockUnary_bytes {i : Instr} {f : Block → Block} {s : State} {v : Nat → Nat → Byte}
    (hi : Executable i s) (hp : plan i s = blockPlan f s)
    (hf : ∀ c r, c < 4 → r < 4 → byteOf (f s.blk) (4 * c + r) = v c r) :
    ∃ t, Runs i s t ∧ ∀ c r, c < 4 → r < 4 → byteOf t.blk (4 * c + r) = v c r := by
  obtain ⟨t, hrun, hblk⟩ := runs_blockUnary hi hp
  exact ⟨t, hrun, fun c r hc hr => by rw [hblk, hf c r hc hr]⟩

/-- Settles O32: both commands perform their plan, which stores the function that moves the bytes of every row. -/
theorem shiftRowsMoveRowsByTheirNumber : Obligations.ShiftRowsMoveRowsByTheirNumber :=
  ⟨wordOf_of_encode rfl (formatN_eq_ofNat 0x31#8), wordOf_of_encode rfl (formatN_eq_ofNat 0x32#8), fun s =>
    ⟨runs_blockUnary_bytes ⟨rfl, rfl⟩ rfl fun _ _ => byteOf_shiftRows s.blk,
      runs_blockUnary_bytes ⟨rfl, rfl⟩ rfl fun _ _ => byteOf_shiftRowsInverse s.blk⟩⟩

/-! ### Rows shifted and shifted back -/

/-- Two blocks are equal when their bytes are, by column and row. -/
theorem block_ext_columns {a b : Block} (h : ∀ c r, c < 4 → r < 4 → byteOf a (4 * c + r) = byteOf b (4 * c + r)) :
    a = b :=
  bytes_ext fun i hi => by
    have hbyte := h (i / 4) (i % 4) (by omega) (by omega)
    rwa [Nat.div_add_mod] at hbyte

@[simp] theorem shiftRowsInverse_shiftRows (b : Block) : shiftRowsInverse (shiftRows b) = b :=
  block_ext_columns fun c r hc hr => by
    rw [byteOf_shiftRowsInverse _ hc hr, byteOf_shiftRows _ (by omega) hr, (by omega : ((c + 4 - r) % 4 + r) % 4 = c)]

@[simp] theorem shiftRows_shiftRowsInverse (b : Block) : shiftRows (shiftRowsInverse b) = b :=
  block_ext_columns fun c r hc hr => by
    rw [byteOf_shiftRows _ hc hr, byteOf_shiftRowsInverse _ (by omega) hr, (by omega : ((c + r) % 4 + 4 - r) % 4 = c)]

/-- Two shifts move row r by 2r columns. -/
theorem byteOf_shiftRows_shiftRows (b : Block) {c r : Nat} (hc : c < 4) (hr : r < 4) :
    byteOf (shiftRows (shiftRows b)) (4 * c + r) = byteOf b (4 * ((c + 2 * r) % 4) + r) := by
  rw [byteOf_shiftRows _ hc hr, byteOf_shiftRows _ (by omega) hr, (by omega : ((c + r) % 4 + r) % 4 = (c + 2 * r) % 4)]

/-- Four shifts move row r by 4r columns, whole turns (R146). -/
theorem shiftRows_four (b : Block) : shiftRows (shiftRows (shiftRows (shiftRows b))) = b :=
  block_ext_columns fun c r hc hr => by
    rw [byteOf_shiftRows_shiftRows _ hc hr, byteOf_shiftRows_shiftRows _ (by omega) hr,
      (by omega : ((c + 2 * r) % 4 + 2 * r) % 4 = c)]

/-! ### Columns mixed and mixed back

A column is a polynomial over GF(2^8), byte r the coefficient of x^r. Both matrices multiply by a fixed polynomial
modulo x^4 + 1, and the two polynomials are inverse to each other. -/

/-- The product modulo x^4 + 1 of two columns as polynomials: the circulant matrix of `p` times `w`. -/
def columnProduct (p w : Column) : Column :=
  bytesOf 4 fun r =>
    gfMul (byteOf p r) (byteOf w 0) ^^^ gfMul (byteOf p ((r + 3) % 4)) (byteOf w 1) ^^^
    gfMul (byteOf p ((r + 2) % 4)) (byteOf w 2) ^^^ gfMul (byteOf p ((r + 1) % 4)) (byteOf w 3)

/-- The first column of the matrix of R143. -/
def mixPolynomial : Column := #v[0x02#8, 0x01#8, 0x01#8, 0x03#8]

/-- The first column of the matrix of R144. -/
def mixPolynomialInverse : Column := #v[0x0E#8, 0x09#8, 0x0D#8, 0x0B#8]

/-- The polynomial 1. -/
def oneColumn : Column := #v[0x01#8, 0x00#8, 0x00#8, 0x00#8]

theorem residue8_columnProduct (p w : Column) {r : Nat} (h : r < 4) :
    residue8 (byteOf (columnProduct p w) r) =
      residue8 (byteOf p r) * residue8 (byteOf w 0) + residue8 (byteOf p ((r + 3) % 4)) * residue8 (byteOf w 1) +
      residue8 (byteOf p ((r + 2) % 4)) * residue8 (byteOf w 2) +
      residue8 (byteOf p ((r + 1) % 4)) * residue8 (byteOf w 3) := by
  rw [columnProduct, byteOf_bytesOf_lt _ h]
  simp only [residue8_xor, residue8_gfMul]

theorem columnProduct_assoc (p q w : Column) :
    columnProduct p (columnProduct q w) = columnProduct (columnProduct p q) w :=
  bytes_ext fun r hr => residue8_injective (by
    rw [residue8_columnProduct _ _ hr, residue8_columnProduct _ _ hr]
    interval_cases r <;> simp [residue8_columnProduct] <;> ring)

theorem one_columnProduct (w : Column) : columnProduct oneColumn w = w :=
  bytes_ext fun r hr => residue8_injective (by
    rw [residue8_columnProduct _ _ hr]
    interval_cases r <;> simp [oneColumn, byteOf_vec4])

theorem mixPolynomialInverse_mixPolynomial : columnProduct mixPolynomialInverse mixPolynomial = oneColumn := by
  decide +kernel

theorem mixPolynomial_mixPolynomialInverse : columnProduct mixPolynomial mixPolynomialInverse = oneColumn := by
  decide +kernel

/-- The rows of R143 are the rotations of its first column. -/
theorem mixColumns_eq (b : Block) : mixColumns b = mapColumns (columnProduct mixPolynomial) b := by
  have h (c : Nat) : mixColumn (columnOf b c) = columnProduct mixPolynomial (columnOf b c) := mixColumn_columnOf b c
  simp only [mixColumns, mapColumns, h]

/-- The rows of R144 are the rotations of its first column. -/
theorem mixColumnsInverse_eq (b : Block) : mixColumnsInverse b = mapColumns (columnProduct mixPolynomialInverse) b := by
  have h (c : Nat) : mixColumnInverse (columnOf b c) = columnProduct mixPolynomialInverse (columnOf b c) :=
    mixColumnInverse_columnOf b c
  simp only [mixColumnsInverse, mapColumns, h]

theorem columnOf_mapColumns (f : Column → Column) (b : Block) {c : Nat} (hc : c < 4) :
    columnOf (mapColumns f b) c = f (columnOf b c) :=
  bytes_ext fun _ hr => by rw [byteOf_columnOf _ _ hr, byteOf_mapColumns f b hc hr]

/-- Multiplying every column by a polynomial is undone by multiplying by its inverse. -/
theorem mapColumns_columnProduct_inverse {p q : Column} (h : columnProduct p q = oneColumn) (b : Block) :
    mapColumns (columnProduct p) (mapColumns (columnProduct q) b) = b :=
  block_ext_columns fun c r hc hr => by
    rw [byteOf_mapColumns _ _ hc hr, columnOf_mapColumns _ _ hc, columnProduct_assoc, h, one_columnProduct,
      byteOf_columnOf _ _ hr]

@[simp] theorem mixColumnsInverse_mixColumns (b : Block) : mixColumnsInverse (mixColumns b) = b := by
  rw [mixColumns_eq, mixColumnsInverse_eq, mapColumns_columnProduct_inverse mixPolynomialInverse_mixPolynomial]

@[simp] theorem mixColumns_mixColumnsInverse (b : Block) : mixColumns (mixColumnsInverse b) = b := by
  rw [mixColumns_eq, mixColumnsInverse_eq, mapColumns_columnProduct_inverse mixPolynomial_mixPolynomialInverse]

/-! ### Bytes substituted and substituted back, and the round key -/

@[simp] theorem subBytesInverse_subBytes (b : Block) : subBytesInverse (subBytes b) = b :=
  bytes_ext fun i hi => by
    rw [subBytesInverse, byteOf_bytesOf_lt _ hi, subBytes, byteOf_bytesOf_lt _ hi, sboxInverse_sbox]

@[simp] theorem subBytes_subBytesInverse (b : Block) : subBytes (subBytesInverse b) = b :=
  bytes_ext fun i hi => by
    rw [subBytes, byteOf_bytesOf_lt _ hi, subBytesInverse, byteOf_bytesOf_lt _ hi, sbox_sboxInverse]

@[simp] theorem xorRoundKey_xorRoundKey (b k : Block) : xorRoundKey (xorRoundKey b k) k = b :=
  bytes_ext fun i hi => by
    rw [xorRoundKey, xorRoundKey, byteOf_xorBytes _ _ hi, byteOf_xorBytes _ _ hi, BitVec.xor_assoc, BitVec.xor_self,
      BitVec.xor_zero]

/-- Settles O47: rows move back, the column polynomials and the S-boxes are inverse to each other, and XOR cancels. -/
theorem blockTransformsAreInverted : Obligations.BlockTransformsAreInverted := fun b k =>
  ⟨shiftRowsInverse_shiftRows b, shiftRows_shiftRowsInverse b, mixColumnsInverse_mixColumns b,
    mixColumns_mixColumnsInverse b, subBytesInverse_subBytes b, subBytes_subBytesInverse b,
    xorRoundKey_xorRoundKey b k, shiftRows_four b⟩

end Sys2Proof.Proofs
end

section
/-! The laws of the key schedule: the round constants, the two round steps as inverses, the start key as ten advances,
and the round keys of a schedule (R160, R162 to R166). -/

namespace Sys2Proof.Proofs

open Sys2Proof Sys2Proof.Machine Sys2Proof.Claims

/-! ### The round constants -/

/-- Each round constant is the double of the one before (R160). -/
theorem rcon_succ_eq_gfDouble {r : Nat} (h1 : 1 ≤ r) (h : r < 10) : rcon (r + 1) = gfDouble (rcon r) := by
  obtain ⟨n, rfl⟩ := Nat.exists_eq_add_of_le' h1
  rw [rcon_succ h, rcon_succ (by omega), Function.iterate_succ_apply']

/-- Settles O36: 0x01 is doubled from one round constant to the next, and halving undoes doubling. -/
theorem rconIsWalkedByDoubleAndHalve : Obligations.RconIsWalkedByDoubleAndHalve := by
  refine ⟨by decide, rfl, fun _ h1 h => rcon_succ_eq_gfDouble h1 h, fun r h2 h => ?_⟩
  obtain ⟨n, rfl⟩ := Nat.exists_eq_add_of_le' (by omega : 1 ≤ r)
  rw [Nat.add_sub_cancel, rcon_succ_eq_gfDouble (by omega) (by omega), gfHalve_gfDouble]

/-! ### The two round steps undo each other -/

/-- The equations of R163 on the bytes of `a` make it the advance of `k`. -/
theorem eq_advanceRound {a k : Block} {rc : Byte}
    (hfirst : ∀ j, j < 4 → byteOf a j = byteOf k j ^^^
      (sbox (byteOf k (12 + (j + 1) % 4)) ^^^ (if j = 0 then rc else 0#8)))
    (hlater : ∀ i, 4 ≤ i → i < 16 → byteOf a i = byteOf k i ^^^ byteOf a (i - 4)) : a = advanceRound k rc :=
  bytes_ext fun i => by
    induction i using Nat.strong_induction_on with
    | h i ih =>
      intro hi
      rcases Nat.lt_or_ge i 4 with h4 | h4
      · rw [hfirst i h4, byteOf_advanceRound_first k rc h4]
      · rw [hlater i h4 hi, byteOf_advanceRound_later k rc h4 hi, ih (i - 4) (by omega) (by omega)]

/-- The equations of R164 on the bytes of `a` make it the regress of `k`. -/
theorem eq_regressRound {a k : Block} {rc : Byte}
    (hlater : ∀ i, 4 ≤ i → i < 16 → byteOf a i = byteOf k i ^^^ byteOf k (i - 4))
    (hfirst : ∀ j, j < 4 → byteOf a j = byteOf k j ^^^
      (sbox (byteOf a (12 + (j + 1) % 4)) ^^^ (if j = 0 then rc else 0#8))) : a = regressRound k rc := by
  have hword : ∀ i, 4 ≤ i → i < 16 → byteOf a i = byteOf (regressRound k rc) i := fun i h4 hi => by
    rw [hlater i h4 hi, byteOf_regressRound_later k rc h4 hi]
  refine bytes_ext fun i hi => ?_
  rcases Nat.lt_or_ge i 4 with h4 | h4
  · rw [hfirst i h4, byteOf_regressRound_first k rc h4, hword _ (by omega) (by omega)]
  · exact hword i h4 hi

/-- XOR with the same byte undoes an XOR (R104). -/
theorem eq_xor_of_eq_xor {a b c : Byte} (h : a = b ^^^ c) : b = a ^^^ c := by
  rw [h, BitVec.xor_assoc, BitVec.xor_self, BitVec.xor_zero]

@[simp] theorem regressRound_advanceRound (k : Block) (rc : Byte) : regressRound (advanceRound k rc) rc = k :=
  (eq_regressRound (fun _ h4 hi => eq_xor_of_eq_xor (byteOf_advanceRound_later k rc h4 hi))
    (fun _ hj => eq_xor_of_eq_xor (byteOf_advanceRound_first k rc hj))).symm

@[simp] theorem advanceRound_regressRound (k : Block) (rc : Byte) : advanceRound (regressRound k rc) rc = k :=
  (eq_advanceRound (fun _ hj => eq_xor_of_eq_xor (byteOf_regressRound_first k rc hj))
    (fun _ h4 hi => eq_xor_of_eq_xor (byteOf_regressRound_later k rc h4 hi))).symm

/-! ### Loops undone by the loop the other way -/

section
variable {α : Type} {f g : Nat → α → α}

theorem forUp_start_succ (start n : Nat) (f : Nat → α → α) (a : α) :
    forUp (start + 1) n f a = forUp start n (fun k => f (k + 1)) a := by
  induction n with
  | zero => rfl
  | succ n ih => rw [forUp_succ, forUp_succ, ih, Nat.add_right_comm]

/-- The first iteration of a loop downwards. -/
theorem forDown_succ (start n : Nat) (f : Nat → α → α) (a : α) :
    forDown start (n + 1) f a = forDown start n f (f (start + n) a) := by
  rw [forDown, forUp_first, forUp_start_succ]
  exact forUp_congr _ fun k _ _ => by rw [(by omega : start + (n + 1) - 1 - (0 + k + 1) = start + n - 1 - (0 + k))]

theorem forDown_forUp (h : ∀ r x, g r (f r x) = x) (start n : Nat) (a : α) :
    forDown start n g (forUp start n f a) = a := by
  induction n with
  | zero => rfl
  | succ n ih => rw [forDown_succ, forUp_succ, h, ih]

theorem forUp_forDown (h : ∀ r x, f r (g r x) = x) (start n : Nat) (a : α) :
    forUp start n f (forDown start n g a) = a := by
  induction n generalizing a with
  | zero => rfl
  | succ n ih => rw [forDown_succ, forUp_succ, ih, h]

end

/-! ### The start key -/

/-- A key advanced by RCON[1] to RCON[n] (R163). -/
def advanceRounds (n : Nat) (k : Block) : Block := forUp 1 n (fun r x => advanceRound x (rcon r)) k

theorem advanceRounds_succ (n : Nat) (k : Block) :
    advanceRounds (n + 1) k = advanceRound (advanceRounds n k) (rcon (n + 1)) := by
  rw [advanceRounds, forUp_succ, Nat.add_comm 1 n]
  rfl

/-- The walk of the key by doubling its round constant advances by the round constants in order (R165). -/
theorem forUp_advance_eq (k : Block) {n : Nat} (h : n ≤ 10) :
    forUp 1 n (fun _ w => w.advance) (KeyWalk.mk k 0x01#8) = ⟨advanceRounds n k, gfDouble^[n] 0x01#8⟩ := by
  induction n with
  | zero => rfl
  | succ n ih =>
    rw [forUp_succ, ih (by omega), KeyWalk.advance, advanceRounds_succ, rcon_succ (by omega),
      Function.iterate_succ_apply']

/-- The start key is the key advanced by all ten round constants (R165). -/
theorem deriveDecryptStartKey_eq (k : Block) : deriveDecryptStartKey k = advanceRounds 10 k := by
  rw [deriveDecryptStartKey, forUp_advance_eq k le_rfl]

/-- A key regressed by RCON[n] down to RCON[1] (R164). -/
def regressRounds (n : Nat) (k : Block) : Block := forDown 1 n (fun r x => regressRound x (rcon r)) k

@[simp] theorem regressRounds_advanceRounds (n : Nat) (k : Block) : regressRounds n (advanceRounds n k) = k :=
  forDown_forUp (fun r x => regressRound_advanceRound x (rcon r)) 1 n k

@[simp] theorem advanceRounds_regressRounds (n : Nat) (k : Block) : advanceRounds n (regressRounds n k) = k :=
  forUp_forDown (fun r x => advanceRound_regressRound x (rcon r)) 1 n k

theorem deriveDecryptStartKey_bijective : Function.Bijective deriveDecryptStartKey :=
  Function.bijective_iff_has_inverse.2 ⟨regressRounds 10,
    fun k => by rw [deriveDecryptStartKey_eq, regressRounds_advanceRounds],
    fun k => by rw [deriveDecryptStartKey_eq, advanceRounds_regressRounds]⟩

/-- Settles O48: the two round steps undo each other byte by byte, so ten advances and ten regresses do. -/
theorem keyScheduleLaws : Obligations.KeyScheduleLaws := by
  refine ⟨fun k rc => ⟨regressRound_advanceRound k rc, advanceRound_regressRound k rc⟩, fun rc => ?_,
    deriveDecryptStartKey_bijective.existsUnique, fun k => ?_⟩
  · exact Function.bijective_iff_has_inverse.2 ⟨(regressRound · rc), (regressRound_advanceRound · rc),
      (advanceRound_regressRound · rc)⟩
  · rw [deriveDecryptStartKey_eq]
    exact regressRounds_advanceRounds 10 k

/-! ### The round keys of a schedule -/

theorem roundKeyOf_expand_zero (k : Block) : roundKeyOf (expand k) 0 = k :=
  bytes_ext fun i hi => by rw [byteOf_roundKeyOf _ _ hi, Nat.mul_zero, Nat.zero_add, byteOf_expand_first k hi]

/-- Each round key is the advance of the one before it: the four words of a round satisfy the equations of R163. -/
theorem roundKeyOf_expand_succ (k : Block) {r : Nat} (h : r < 10) :
    roundKeyOf (expand k) (r + 1) = advanceRound (roundKeyOf (expand k) r) (rcon (r + 1)) := by
  refine eq_advanceRound (fun j hj => ?_) (fun i h4 hi => ?_)
  · have hword := byteOf_expand_later k (i := 4 * (r + 1)) (by omega) (by omega) hj
    rw [if_pos (by omega), (by omega : 4 * (4 * (r + 1)) + j = 16 * (r + 1) + j),
      (by omega : 4 * (4 * (r + 1) - 4) + j = 16 * r + j),
      (by omega : 4 * (4 * (r + 1) - 1) + (j + 1) % 4 = 16 * r + (12 + (j + 1) % 4)),
      (by omega : 4 * (r + 1) / 4 = r + 1)] at hword
    rw [byteOf_roundKeyOf _ _ (by omega), byteOf_roundKeyOf _ _ (by omega), byteOf_roundKeyOf _ _ (by omega), hword]
  · have hword := byteOf_expand_later k (i := 4 * (r + 1) + i / 4) (j := i % 4) (by omega) (by omega) (by omega)
    rw [if_neg (by omega), (by omega : 4 * (4 * (r + 1) + i / 4) + i % 4 = 16 * (r + 1) + i),
      (by omega : 4 * (4 * (r + 1) + i / 4 - 4) + i % 4 = 16 * r + i),
      (by omega : 4 * (4 * (r + 1) + i / 4 - 1) + i % 4 = 16 * (r + 1) + (i - 4))] at hword
    rw [byteOf_roundKeyOf _ _ hi, byteOf_roundKeyOf _ _ hi, byteOf_roundKeyOf _ _ (by omega), hword]

/-- Round key r of a schedule is the key advanced r times (R162, R163). -/
theorem roundKeyOf_expand (k : Block) {r : Nat} (h : r ≤ 10) : roundKeyOf (expand k) r = advanceRounds r k := by
  induction r with
  | zero => exact roundKeyOf_expand_zero k
  | succ r ih => rw [roundKeyOf_expand_succ k h, ih (by omega), advanceRounds_succ]

theorem roundKeyOf_expand_last (k : Block) : roundKeyOf (expand k) 10 = deriveDecryptStartKey k := by
  rw [roundKeyOf_expand k le_rfl, deriveDecryptStartKey_eq]

/-- Settles O49: the round keys walk from the key by the advances that make the start key. -/
theorem roundKeysAreAdvancesOfEachOther : Obligations.RoundKeysAreAdvancesOfEachOther := fun k =>
  ⟨roundKeyOf_expand_zero k, fun _ hr => roundKeyOf_expand_succ k hr, roundKeyOf_expand_last k⟩

end Sys2Proof.Proofs
end

section
/-! KDEC, and commands one after the other: KADV with the round constants in order does what KDEC does (R40, R168,
R170). -/

namespace Sys2Proof.Proofs

open Sys2Proof Sys2Proof.Machine Sys2Proof.Claims

/-! ### Commands one after the other -/

theorem runCommands_append {is : List Instr} {s t : State} (js : List Instr) (h : runCommands is s = .next t) :
    runCommands (is ++ js) s = runCommands js t := by
  induction is generalizing s with
  | nil =>
    cases h
    rfl
  | cons i is ih =>
    rw [List.cons_append, runCommands]
    rw [runCommands] at h
    cases hi : exec i s with
    | next u => rw [hi] at h; exact ih h
    | fault f => rw [hi] at h; cases h
    | refused r => rw [hi] at h; cases h

theorem runCommands_singleton (i : Instr) (s : State) : runCommands [i] s = exec i s := by
  rw [runCommands]
  cases exec i s <;> rfl

/-! ### Functions of KEY one after the other -/

/-- Reading written bytes records nothing (R40). -/
theorem noteReads_eq_self {s : State} {reads : List Span}
    (h : ∀ sp ∈ reads, ∀ a, sp.base ≤ a → a < sp.base + sp.len → s.written a = true) : s.noteReads reads = s := by
  rw [State.noteReads, (firstUndefined_eq_none s reads).2 h]
  cases s.modelFault <;> rfl

/-- Two functions of KEY, one command after the other, do what their composition does: the first leaves KEY written,
so the second records nothing, and its store covers the first's. -/
theorem keyUnary_keyUnary {f : Block → Block} {s t : State} (h : keyUnary f s = .next t) (g : Block → Block) :
    keyUnary g t = keyUnary (g ∘ f) s := by
  rw [keyUnary_eq] at h
  cases h
  have hwritten := noteReads_eq_self (s := (s.noteReads [⟨0x0020, 16⟩]).storeAt 0x0020 (f s.key).toList)
    (reads := [⟨0x0020, 16⟩]) fun sp hsp a h1 h2 => by
      obtain rfl := List.mem_singleton.1 hsp
      exact storeAt_written_of_mem _ _ _ h1 (by simpa using h2)
  have hkey : ((s.noteReads [⟨0x0020, 16⟩]).storeAt 0x0020 (f s.key).toList).key = f s.key :=
    storeAt_bytesAt_same _ 0x0020 _
  rw [keyUnary_eq, hwritten, hkey, storeAt_storeAt_same _ _ _ _ (by simp), keyUnary_eq]
  rfl

/-- KADV with RCON[1] to RCON[n + 1], one after the other, advance KEY by these round constants (R168). -/
theorem runCommands_kadv (n : Nat) (s : State) :
    runCommands ((List.range (n + 1)).map fun k => .kadv (rcon (k + 1))) s = keyUnary (advanceRounds (n + 1)) s := by
  induction n with
  | zero => exact runCommands_singleton _ s
  | succ n ih =>
    have hcomp : advanceRounds (n + 2) = (advanceRound · (rcon (n + 2))) ∘ advanceRounds (n + 1) :=
      funext fun k => advanceRounds_succ (n + 1) k
    rw [keyUnary_eq] at ih
    rw [List.range_succ, List.map_append, runCommands_append _ ih, hcomp, ← keyUnary_keyUnary (keyUnary_eq _ s)]
    exact runCommands_singleton _ _

/-- Settles O37: KDEC stores the start key, and the start key is that of ten advances, as is round key 10. -/
theorem kdecLeavesRoundKeyTen : Obligations.KdecLeavesRoundKeyTen := by
  refine ⟨wordOf_of_encode rfl (formatN_eq_ofNat 0x43#8), fun s => ⟨?_, ?_⟩⟩
  · obtain ⟨t, hrun, hkey⟩ := runs_keyUnary (i := .kdec) (s := s) ⟨rfl, rfl⟩ rfl
    exact ⟨t, hrun, hkey, hkey.trans (roundKeyOf_expand_last s.key).symm⟩
  · rw [runCommands_kadv 9 s, ← funext deriveDecryptStartKey_eq]
    rfl

end Sys2Proof.Proofs
end

section
/-! The cipher as functions: encryption and decryption undo each other under any schedule, and the on-the-fly forms
walk the round keys of a schedule (R180 to R184). -/

namespace Sys2Proof.Proofs

open Sys2Proof Sys2Proof.Machine Sys2Proof.Claims

/-! ### Loops undone by the loop the other way, seen through a map -/

section
variable {α : Type} {f g : Nat → α → α} {φ : α → α}

theorem forDown_map_forUp (h : ∀ r x, g r (φ (f r x)) = φ x) (start n : Nat) (a : α) :
    forDown start n g (φ (forUp start n f a)) = φ a := by
  induction n with
  | zero => rfl
  | succ n ih => rw [forDown_succ, forUp_succ, h, ih]

theorem forUp_map_forDown (h : ∀ r x, f r (φ (g r x)) = φ x) (start n : Nat) (a : α) :
    forUp start n f (φ (forDown start n g a)) = φ a := by
  induction n generalizing a with
  | zero => rfl
  | succ n ih => rw [forDown_succ, forUp_succ, ih, h]

end

/-! ### Encryption and decryption undo each other -/

/-- Round r (1 to 9) of `encrypt` (R180). -/
def encryptRound (sch : Schedule) (r : Nat) (b : Block) : Block :=
  xorRoundKey (mixColumns (shiftRows (subBytes b))) (roundKeyOf sch r)

/-- Round r (9 down to 1) of `decrypt` (R181). -/
def decryptRound (sch : Schedule) (r : Nat) (b : Block) : Block :=
  mixColumnsInverse (xorRoundKey (subBytesInverse (shiftRowsInverse b)) (roundKeyOf sch r))

theorem encrypt_eq (b : Block) (sch : Schedule) :
    encrypt b sch = xorRoundKey (shiftRows (subBytes
      (forUp 1 9 (encryptRound sch) (xorRoundKey b (roundKeyOf sch 0))))) (roundKeyOf sch 10) := rfl

theorem decrypt_eq (b : Block) (sch : Schedule) :
    decrypt b sch = xorRoundKey (subBytesInverse (shiftRowsInverse
      (forDown 1 9 (decryptRound sch) (xorRoundKey b (roundKeyOf sch 10))))) (roundKeyOf sch 0) := rfl

/-- Before MixColumns, a round of decryption undoes a round of encryption. -/
theorem decryptRound_encryptRound (sch : Schedule) (r : Nat) (b : Block) :
    decryptRound sch r (shiftRows (subBytes (encryptRound sch r b))) = shiftRows (subBytes b) := by
  simp [encryptRound, decryptRound]

/-- Before the round key, a round of encryption undoes a round of decryption. -/
theorem encryptRound_decryptRound (sch : Schedule) (r : Nat) (b : Block) :
    encryptRound sch r (subBytesInverse (shiftRowsInverse (decryptRound sch r b)))
      = subBytesInverse (shiftRowsInverse b) := by
  simp [encryptRound, decryptRound]

@[simp] theorem decrypt_encrypt (b : Block) (sch : Schedule) : decrypt (encrypt b sch) sch = b := by
  rw [decrypt_eq, encrypt_eq, xorRoundKey_xorRoundKey,
    forDown_map_forUp (φ := fun b => shiftRows (subBytes b)) (decryptRound_encryptRound sch),
    shiftRowsInverse_shiftRows, subBytesInverse_subBytes, xorRoundKey_xorRoundKey]

@[simp] theorem encrypt_decrypt (b : Block) (sch : Schedule) : encrypt (decrypt b sch) sch = b := by
  rw [encrypt_eq, decrypt_eq, xorRoundKey_xorRoundKey,
    forUp_map_forDown (φ := fun b => subBytesInverse (shiftRowsInverse b)) (encryptRound_decryptRound sch),
    subBytes_subBytesInverse, shiftRows_shiftRowsInverse, xorRoundKey_xorRoundKey]

/-! ### The on-the-fly forms -/

/-- The key walk advances from one round key of a schedule to the next (R182). -/
theorem advance_roundKeyOf (k : Block) {r : Nat} (h : r < 10) :
    KeyWalk.advance ⟨roundKeyOf (expand k) r, rcon (r + 1)⟩
      = ⟨roundKeyOf (expand k) (r + 1), gfDouble (rcon (r + 1))⟩ := by
  rw [KeyWalk.advance, roundKeyOf_expand_succ k h]

/-- Regressing a round key of a schedule gives the one before it (R183). -/
theorem regressRound_roundKeyOf (k : Block) {r : Nat} (h : r < 10) :
    regressRound (roundKeyOf (expand k) (r + 1)) (rcon (r + 1)) = roundKeyOf (expand k) r := by
  rw [roundKeyOf_expand_succ k h, regressRound_advanceRound]

/-- The key walk regresses from one round key of a schedule to the one before (R183). -/
theorem regress_roundKeyOf (k : Block) {r : Nat} (h : r < 10) :
    KeyWalk.regress ⟨roundKeyOf (expand k) (r + 1), rcon (r + 1)⟩
      = ⟨roundKeyOf (expand k) r, gfHalve (rcon (r + 1))⟩ := by
  rw [KeyWalk.regress, regressRound_roundKeyOf k h]

/-- The first n rounds of `encrypt_on_the_fly` are those of `encrypt`, and leave round key n (R182). -/
theorem forUp_encryptRoundOnTheFly (k b : Block) {n : Nat} (h : n ≤ 9) :
    forUp 1 n encryptRoundOnTheFly ⟨b, ⟨k, 0x01#8⟩⟩
      = ⟨forUp 1 n (encryptRound (expand k)) b, ⟨roundKeyOf (expand k) n, rcon (n + 1)⟩⟩ := by
  induction n with
  | zero => rw [roundKeyOf_expand_zero]; rfl
  | succ n ih =>
    rw [forUp_succ, forUp_succ, ih (by omega), encryptRoundOnTheFly, advance_roundKeyOf k (by omega),
      if_pos (by omega), ← rcon_succ_eq_gfDouble (by omega) (by omega), encryptRound, Nat.add_comm 1 n]

/-- `encrypt_on_the_fly` encrypts under the schedule of its key, and leaves round key 10 (R182, R184). -/
theorem encryptOnTheFly_eq (b k : Block) :
    encryptOnTheFly b k = ⟨encrypt b (expand k), ⟨roundKeyOf (expand k) 10, gfDouble (rcon 10)⟩⟩ := by
  rw [encryptOnTheFly, forUp_succ, forUp_encryptRoundOnTheFly k _ le_rfl, encryptRoundOnTheFly,
    advance_roundKeyOf k (by omega), encrypt_eq, roundKeyOf_expand_zero]
  rfl

/-- n rounds of `decrypt_on_the_fly` down to round 1 are those of `decrypt`, and leave round key 1 (R183). -/
theorem forDown_decryptRoundOnTheFly (k b : Block) {n : Nat} (h : n ≤ 9) :
    forDown 1 n decryptRoundOnTheFly ⟨b, ⟨roundKeyOf (expand k) (n + 1), rcon (n + 1)⟩⟩
      = ⟨forDown 1 n (decryptRound (expand k)) b, ⟨roundKeyOf (expand k) 1, rcon 1⟩⟩ := by
  induction n generalizing b with
  | zero => rfl
  | succ n ih =>
    rw [forDown_succ, forDown_succ, decryptRoundOnTheFly, regress_roundKeyOf k (by omega), if_pos (by omega),
      rcon_succ_eq_gfDouble (by omega) (by omega), gfHalve_gfDouble, ih _ (by omega), decryptRound, Nat.add_comm 1 n]

/-- From round key 10 of a key, `decrypt_on_the_fly` decrypts under the key's schedule, and leaves the key (R183,
R184). -/
theorem decryptOnTheFly_eq (b k : Block) :
    decryptOnTheFly b (roundKeyOf (expand k) 10) = ⟨decrypt b (expand k), ⟨k, gfHalve (rcon 1)⟩⟩ := by
  have hsplit : decryptOnTheFly b (roundKeyOf (expand k) 10) = decryptRoundOnTheFly 0 (forDown 1 9 decryptRoundOnTheFly
      ⟨xorRoundKey b (roundKeyOf (expand k) 10), ⟨roundKeyOf (expand k) 10, rcon 10⟩⟩) := rfl
  rw [hsplit, forDown_decryptRoundOnTheFly k _ le_rfl, decryptRoundOnTheFly, regress_roundKeyOf k (by omega),
    decrypt_eq, roundKeyOf_expand_zero]
  rfl

/-- Settles O50: rounds undo rounds under every schedule, and the on-the-fly forms meet the schedule's round keys. -/
theorem cipherLaws : Obligations.CipherLaws := by
  refine ⟨decrypt_encrypt, fun p k => ?_, fun c k => ?_⟩
  · rw [encryptOnTheFly_eq]
    exact ⟨rfl, rfl, roundKeyOf_expand_last k⟩
  · rw [decryptOnTheFly_eq]
    exact ⟨rfl, rfl⟩

end Sys2Proof.Proofs
end

section
/-! ENC, DEC, ENCF and DECF on the machine (R185 to R188, R274, R276). -/

namespace Sys2Proof.Proofs

open Sys2Proof Sys2Proof.Machine Sys2Proof.Claims

/-! ### BLK, KEY and SCH after the shared operations -/

section
variable (s : State) (v : Block) (reads : List Span)

@[simp] theorem storeAt_blk_blk : (s.storeAt 0x0010 v.toList).blk = v := storeAt_bytesAt_same s 0x0010 v
@[simp] theorem storeAt_blk_key : (s.storeAt 0x0010 v.toList).key = s.key :=
  storeAt_bytesAt_disjoint s 0x0010 0x0020 16 _ (by simp)
@[simp] theorem storeAt_blk_sch : (s.storeAt 0x0010 v.toList).sch = s.sch :=
  storeAt_bytesAt_disjoint s 0x0010 0x0100 176 _ (by simp)

@[simp] theorem storeAt_key_blk : (s.storeAt 0x0020 v.toList).blk = s.blk :=
  storeAt_bytesAt_disjoint s 0x0020 0x0010 16 _ (by simp)
@[simp] theorem storeAt_key_key : (s.storeAt 0x0020 v.toList).key = v := storeAt_bytesAt_same s 0x0020 v

@[simp] theorem storeAt_sch_blk (sch : Schedule) : (s.storeAt 0x0100 sch.toList).blk = s.blk :=
  storeAt_bytesAt_disjoint s 0x0100 0x0010 16 _ (by simp)
@[simp] theorem storeAt_sch_sch (sch : Schedule) : (s.storeAt 0x0100 sch.toList).sch = sch :=
  storeAt_bytesAt_same s 0x0100 sch

@[simp] theorem noteReads_blk : (s.noteReads reads).blk = s.blk :=
  State.bytesAt_congr fun a _ _ => noteReads_byteAt s reads a
@[simp] theorem noteReads_key : (s.noteReads reads).key = s.key :=
  State.bytesAt_congr fun a _ _ => noteReads_byteAt s reads a
@[simp] theorem noteReads_sch : (s.noteReads reads).sch = s.sch :=
  State.bytesAt_congr fun a _ _ => noteReads_byteAt s reads a

end

/-! ### The four commands -/

/-- A command with the plan of a cipher under SCH runs, and BLK holds its image. -/
theorem runs_cipher {i : Instr} {f : Block → Schedule → Block} {s : State} (hi : Executable i s)
    (hp : plan i s = cipherPlan f s) : ∃ t, Runs i s t ∧ t.blk = f s.blk s.sch := by
  refine ⟨_, runs_plan hi, ?_⟩
  rw [hp]
  exact storeAt_blk_blk _ _

/-- A command with the plan of an on-the-fly cipher runs, and BLK and KEY hold its block and its key. -/
theorem runs_onTheFly {i : Instr} {f : Block → Block → OnTheFly} {s : State} (hi : Executable i s)
    (hp : plan i s = onTheFlyPlan f s) :
    ∃ t, Runs i s t ∧ t.blk = (f s.blk s.key).blk ∧ t.key = (f s.blk s.key).walk.key := by
  refine ⟨_, runs_plan hi, ?_⟩
  rw [hp]
  exact ⟨(storeAt_key_blk _ _).trans (storeAt_blk_blk _ _), storeAt_key_key _ _⟩

/-- Settles O38: both commands perform their plan, which stores the cipher's image of BLK under SCH. -/
theorem encAndDecTransformBlkBySch : Obligations.EncAndDecTransformBlkBySch :=
  ⟨wordOf_of_encode rfl (formatN_eq_ofNat 0x50#8), wordOf_of_encode rfl (formatN_eq_ofNat 0x51#8), fun _ =>
    ⟨runs_cipher ⟨rfl, rfl⟩ rfl, runs_cipher ⟨rfl, rfl⟩ rfl⟩⟩

/-- Settles O39: both commands perform their plan, which stores the block and the key of the on-the-fly cipher. -/
theorem encfAndDecfTransformBlkAndKey : Obligations.EncfAndDecfTransformBlkAndKey :=
  ⟨wordOf_of_encode rfl (formatN_eq_ofNat 0x52#8), wordOf_of_encode rfl (formatN_eq_ofNat 0x53#8), fun _ =>
    ⟨runs_onTheFly ⟨rfl, rfl⟩ rfl, runs_onTheFly ⟨rfl, rfl⟩ rfl⟩⟩

/-! ### One command after another -/

/-- Every value of KEY is round key 10 of some key (R166). -/
theorem exists_roundKeyOf_expand_last (v : Block) : ∃ k, roundKeyOf (expand k) 10 = v := by
  obtain ⟨k, hk⟩ := deriveDecryptStartKey_bijective.surjective v
  exact ⟨k, (roundKeyOf_expand_last k).trans hk⟩

/-- Settles O54: the ciphers undo each other, and every KEY that DECF starts from is round key 10 of a key. -/
theorem decryptionUndoesEncryption : Obligations.DecryptionUndoesEncryption := by
  intro s
  refine ⟨⟨_, rfl, ?_⟩, ⟨_, rfl, ?_⟩, ⟨_, rfl, ?_⟩, _, _, rfl, rfl, ?_⟩
  · simp
  · simp [encryptOnTheFly_eq, decryptOnTheFly_eq]
  · obtain ⟨k, hk⟩ := exists_roundKeyOf_expand_last s.key
    simp [← hk, encryptOnTheFly_eq, decryptOnTheFly_eq]
  · simp [encryptOnTheFly_eq]

end Sys2Proof.Proofs
end

section
/-! The round commands one after the other do what ENC and DEC do, by the reads noted and the block so far in BLK
(R40, R180, R181, R185, R186). -/

namespace Sys2Proof.Proofs

open Sys2Proof Sys2Proof.Machine Sys2Proof.Claims

/-! ### Reads noted one after the other -/

/-- The first undefined byte depends on the written marks of the spans only. -/
theorem firstUndefined_congr {s t : State} {reads : List Span}
    (h : ∀ sp ∈ reads, ∀ a, sp.base ≤ a → a < sp.base + sp.len → s.written a = t.written a) :
    s.firstUndefined reads = t.firstUndefined reads := by
  rw [firstUndefined_eq_find, firstUndefined_eq_find]
  refine List.find?_congr fun a ha => ?_
  obtain ⟨sp, hsp, hmem⟩ := List.mem_flatMap.1 ha
  obtain ⟨h1, h2⟩ := mem_offsets.1 hmem
  rw [h sp hsp a h1 h2]

/-- Reads noted after other reads are noted as one list. -/
theorem noteReads_noteReads (s : State) (reads reads' : List Span) :
    (s.noteReads reads).noteReads reads' = s.noteReads (reads ++ reads') := by
  have hboth : s.firstUndefined (reads ++ reads') = (s.firstUndefined reads).or (s.firstUndefined reads') :=
    List.findSome?_append
  rw [noteReads_eq, noteReads_eq s, noteReads_eq s (reads ++ reads')]
  simp only [noteReads_modelFault, hboth]
  cases s.modelFault <;> cases s.firstUndefined reads <;> rfl

/-- A store below the spans read does not change what the reads record. -/
theorem noteReads_storeAt_of_le (s : State) (base : Nat) (bs : List Byte) {reads : List Span}
    (h : ∀ sp ∈ reads, base + bs.length ≤ sp.base) :
    (s.storeAt base bs).noteReads reads = (s.noteReads reads).storeAt base bs := by
  have hfirst : (s.storeAt base bs).firstUndefined reads = s.firstUndefined reads :=
    firstUndefined_congr fun sp hsp a h1 _ => storeAt_written_of_not_mem s base bs (by have := h sp hsp; omega)
  rw [storeAt_noteReads, noteReads_eq, noteReads_modelFault, noteReads_modelFault, hfirst]
  rfl

/-- Reads of the same bytes in the same order record the same. -/
theorem noteReads_congr {reads reads' : List Span}
    (h : (reads.flatMap fun sp => offsets sp.base sp.len) = reads'.flatMap fun sp => offsets sp.base sp.len)
    (s : State) : s.noteReads reads = s.noteReads reads' := by
  have hfirst : s.firstUndefined reads = s.firstUndefined reads' := by
    rw [firstUndefined_eq_find, firstUndefined_eq_find]
    exact congrArg _ h
  rw [State.noteReads, hfirst]
  rfl

/-! ### The round commands as functions of BLK and KEY -/

theorem exec_subb (s : State) : exec .subb s = blockUnary subBytes s := rfl
theorem exec_isubb (s : State) : exec .isubb s = blockUnary subBytesInverse s := rfl
theorem exec_shr (s : State) : exec .shr s = blockUnary shiftRows s := rfl
theorem exec_ishr (s : State) : exec .ishr s = blockUnary shiftRowsInverse s := rfl
theorem exec_mixc (s : State) : exec .mixc s = blockUnary mixColumns s := rfl
theorem exec_imixc (s : State) : exec .imixc s = blockUnary mixColumnsInverse s := rfl

/-- ARK with a legal SRC notes the reads of BLK and of the selected round key, and XORs them (R145). -/
theorem exec_ark {src : BitVec 4} (h : srcLegal src = true) (s : State) :
    exec (.ark src) s = .next ((s.noteReads [regionSpan .blk, srcSpan src]).setBlk
      (xorRoundKey s.blk (s.srcKey src))) := if_pos h

/-! ### Rounds under SCH -/

/-- The state during a cipher under SCH that began in `s`: the reads noted so far, and the block so far in BLK. -/
def duringCipher (s : State) (reads : List Span) (b : Block) : State := (s.noteReads reads).setBlk b

/-- Round key r of SCH (R26, R51). -/
def roundKeySpan (r : Nat) : Span := { base := 0x0100 + 16 * r, len := 16 }

section
variable (s : State) (reads : List Span) (b : Block)

@[simp] theorem duringCipher_blk : (duringCipher s reads b).blk = b := storeAt_blk_blk _ b

@[simp] theorem duringCipher_sch : (duringCipher s reads b).sch = s.sch := by simp [duringCipher]

@[simp] theorem duringCipher_setBlk (b' : Block) : (duringCipher s reads b).setBlk b' = duringCipher s reads b' :=
  storeAt_storeAt_same _ 0x0010 _ _ (by simp)

/-- Reading BLK records nothing, since it is written; round keys of SCH are noted after the reads before them. -/
theorem duringCipher_noteReads (rs : List Nat) :
    (duringCipher s reads b).noteReads (regionSpan .blk :: rs.map roundKeySpan)
      = duringCipher s (reads ++ rs.map roundKeySpan) b := by
  have hblk : (duringCipher s reads b).noteReads [regionSpan .blk] = duringCipher s reads b :=
    noteReads_eq_self fun sp hsp a h1 h2 => by
      obtain rfl := List.mem_singleton.1 hsp
      exact storeAt_written_of_mem _ _ _ h1 (by rwa [Vector.length_toList])
  rw [← List.singleton_append, ← noteReads_noteReads, hblk]
  refine (noteReads_storeAt_of_le _ _ _ fun sp hsp => ?_).trans (congrArg (·.setBlk b) (noteReads_noteReads ..))
  obtain ⟨r, -, rfl⟩ := List.mem_map.1 hsp
  simp [roundKeySpan]
  omega

theorem blockUnary_duringCipher (f : Block → Block) :
    blockUnary f (duringCipher s reads b) = .next (duringCipher s reads (f b)) := by
  have hreads := duringCipher_noteReads s reads b []
  rw [List.map_nil, List.append_nil] at hreads
  rw [blockUnary, hreads, duringCipher_blk, duringCipher_setBlk]

variable {r : Nat}

theorem srcLegal_ofNat (h : r ≤ 10) : srcLegal (BitVec.ofNat 4 r) = true := by interval_cases r <;> rfl

theorem srcSpan_ofNat (h : r ≤ 10) : srcSpan (BitVec.ofNat 4 r) = roundKeySpan r := by interval_cases r <;> rfl

theorem srcKey_ofNat (h : r ≤ 10) : s.srcKey (BitVec.ofNat 4 r) = roundKeyOf s.sch r := by interval_cases r <;> rfl

/-- ARK with round key r of SCH (R145). -/
theorem exec_ark_ofNat (h : r ≤ 10) : exec (.ark (BitVec.ofNat 4 r)) s
    = .next (duringCipher s [regionSpan .blk, roundKeySpan r] (xorRoundKey s.blk (roundKeyOf s.sch r))) := by
  rw [exec_ark (srcLegal_ofNat h), srcSpan_ofNat h, srcKey_ofNat s h]
  rfl

theorem exec_ark_duringCipher (h : r ≤ 10) : exec (.ark (BitVec.ofNat 4 r)) (duringCipher s reads b)
    = .next (duringCipher s (reads ++ [roundKeySpan r]) (xorRoundKey b (roundKeyOf s.sch r))) := by
  have hreads := duringCipher_noteReads s reads b [r]
  rw [exec_ark_ofNat _ h, duringCipher, ← List.map_singleton, hreads, duringCipher_setBlk, duringCipher_blk,
    duringCipher_sch, List.map_singleton]

/-- Rounds that each read one round key of SCH read these keys in order, and iterate their function on BLK. -/
theorem runCommands_rounds_duringCipher {round : Nat → List Instr} {f : Nat → Block → Block} {key : Nat → Nat}
    {n : Nat} (h : ∀ k, k < n → ∀ reads b, runCommands (round k) (duringCipher s reads b)
      = .next (duringCipher s (reads ++ [roundKeySpan (key k)]) (f k b))) :
    runCommands ((List.range n).flatMap round) (duringCipher s reads b)
      = .next (duringCipher s (reads ++ (List.range n).map fun k => roundKeySpan (key k)) (forUp 0 n f b)) := by
  induction n with
  | zero => simp [runCommands]
  | succ n ih =>
    rw [List.range_succ, List.flatMap_append, runCommands_append _ (ih fun k hk => h k (by omega)),
      List.flatMap_singleton, h n (by omega), List.map_append, ← List.append_assoc, forUp_succ, Nat.zero_add]
    rfl

theorem runCommands_encRound {k : Nat} (h : k < 9) : runCommands (encRound k) (duringCipher s reads b)
    = .next (duringCipher s (reads ++ [roundKeySpan (k + 1)]) (encryptRound s.sch (k + 1) b)) := by
  have hark := fun b => exec_ark_duringCipher s reads b (r := k + 1) (by omega)
  simp only [encRound, runCommands, exec_subb, exec_shr, exec_mixc, blockUnary_duringCipher, hark]
  rfl

theorem runCommands_decRound (k : Nat) : runCommands (decRound k) (duringCipher s reads b)
    = .next (duringCipher s (reads ++ [roundKeySpan (9 - k)]) (decryptRound s.sch (9 - k) b)) := by
  have hark := fun b => exec_ark_duringCipher s reads b (r := 9 - k) (by omega)
  simp only [decRound, runCommands, exec_ishr, exec_isubb, exec_imixc, blockUnary_duringCipher, hark]
  rfl

end

/-! ### The whole sequences -/

theorem exec_enc (s : State) :
    exec .enc s = .next (duringCipher s [regionSpan .blk, regionSpan .sch] (encrypt s.blk s.sch)) := rfl

theorem exec_dec (s : State) :
    exec .dec s = .next (duringCipher s [regionSpan .blk, regionSpan .sch] (decrypt s.blk s.sch)) := rfl

theorem runCommands_cons {i : Instr} {s t : State} (h : exec i s = .next t) (is : List Instr) :
    runCommands (i :: is) s = runCommands is t := by
  rw [runCommands, h]

/-- The round commands of R180 encrypt BLK, and read BLK and then the round keys in order. -/
theorem runCommands_encSequence (s : State) : runCommands encSequence s = .next (duringCipher s
    (regionSpan .blk :: (List.range 11).map roundKeySpan) (encrypt s.blk s.sch)) := by
  have hlast := fun reads b => exec_ark_duringCipher s reads b (r := 10) le_rfl
  rw [encSequence, runCommands_cons (exec_ark_ofNat s (r := 0) (by omega)), List.append_eq,
    runCommands_append _ (runCommands_rounds_duringCipher s _ _ fun k hk reads b =>
      runCommands_encRound s reads b hk)]
  simp only [runCommands, exec_subb, exec_shr, blockUnary_duringCipher, hlast]
  rw [← forUp_start_succ]
  rfl

/-- The round commands of R181 decrypt BLK, and read BLK and then the round keys from the last to the first. -/
theorem runCommands_decSequence (s : State) : runCommands decSequence s = .next (duringCipher s
    (regionSpan .blk :: (List.range 11).reverse.map roundKeySpan) (decrypt s.blk s.sch)) := by
  have hlast := fun reads b => exec_ark_duringCipher s reads b (r := 0) (by omega)
  rw [decSequence, runCommands_cons (exec_ark_ofNat s (r := 10) le_rfl), List.append_eq,
    runCommands_append _ (runCommands_rounds_duringCipher s _ _ fun k _ reads b => runCommands_decRound s reads b k)]
  simp only [runCommands, exec_ishr, exec_isubb, blockUnary_duringCipher, hlast]
  rfl

/-- BLK and then the round keys of SCH in order are BLK and SCH. -/
theorem roundKeySpans_offsets :
    ((regionSpan .blk :: (List.range 11).map roundKeySpan).flatMap fun sp => offsets sp.base sp.len)
      = [regionSpan .blk, regionSpan .sch].flatMap fun sp => offsets sp.base sp.len := by
  decide +kernel

/-- Settles O51: the sequence encrypts BLK and reads the bytes of BLK and SCH in the order of ENC. -/
theorem encIsTheRoundCommandSequence : Obligations.EncIsTheRoundCommandSequence := fun s => by
  rw [exec_enc, runCommands_encSequence, duringCipher, duringCipher, noteReads_congr roundKeySpans_offsets]

/-- Settles O52: the sequence decrypts BLK, and where BLK and SCH are written neither it nor DEC records a read. -/
theorem decIsTheRoundCommandSequence : Obligations.DecIsTheRoundCommandSequence := by
  intro s hblk hsch
  have hdec : s.noteReads [regionSpan .blk, regionSpan .sch] = s := noteReads_eq_self fun sp hsp => by
    obtain rfl | rfl := List.mem_pair.1 hsp
    exacts [hblk, hsch]
  have hseq : s.noteReads (regionSpan .blk :: (List.range 11).reverse.map roundKeySpan) = s :=
    noteReads_eq_self fun sp hsp a h1 h2 => by
      obtain rfl | hsp := List.mem_cons.1 hsp
      · exact hblk a h1 h2
      · obtain ⟨r, hr, rfl⟩ := List.mem_map.1 hsp
        rw [List.mem_reverse, List.mem_range] at hr
        simp only [roundKeySpan] at h1 h2
        exact hsch a (by omega) (by omega)
  rw [exec_dec, runCommands_decSequence, duringCipher, duringCipher, hdec, hseq]

end Sys2Proof.Proofs
end

section
/-! The round commands with KADV and KREG one after the other do what ENCF and DECF do: once ARK has noted the reads of
BLK and KEY, no later command records anything new (R40, R182, R183, R187, R188). -/

namespace Sys2Proof.Proofs

open Sys2Proof Sys2Proof.Machine Sys2Proof.Claims

/-! ### Commands that record nothing new -/

/-- Reading BLK and KEY records nothing new: a mark stands, or both are written. -/
def BlkKeyNoted (s : State) : Prop :=
  s.modelFault = none →
    ∀ sp ∈ [regionSpan .blk, regionSpan .key], ∀ a, sp.base ≤ a → a < sp.base + sp.len → s.written a = true

theorem blkKeyNoted_noteReads (s : State) : BlkKeyNoted (s.noteReads [regionSpan .blk, regionSpan .key]) := by
  intro h sp hsp a h1 h2
  rw [noteReads_written]
  exact ((noteReads_none s _).1 h).2 sp hsp a h1 h2

theorem blkKeyNoted_storeAt {s : State} (h : BlkKeyNoted s) (base : Nat) (bs : List Byte) :
    BlkKeyNoted (s.storeAt base bs) := fun hm sp hsp a h1 h2 => by
  by_cases ha : base ≤ a ∧ a < base + bs.length
  · exact storeAt_written_of_mem s base bs ha.1 ha.2
  · rw [storeAt_written_of_not_mem s base bs ha]
    exact h hm sp hsp a h1 h2

section
variable {s : State} (h : BlkKeyNoted s)
include h

theorem noteReads_of_blkKeyNoted {reads : List Span} (hr : reads ⊆ [regionSpan .blk, regionSpan .key]) :
    s.noteReads reads = s := by
  cases hm : s.modelFault with
  | none => exact noteReads_eq_self fun sp hsp => h hm sp (hr hsp)
  | some f => rw [noteReads_eq, noteReads_sticky reads hm, ← hm]

theorem blockUnary_of_blkKeyNoted (f : Block → Block) :
    blockUnary f s = .next (s.storeAt 0x0010 (f s.blk).toList) := by
  rw [blockUnary, noteReads_of_blkKeyNoted h (by simp)]
  rfl

theorem keyUnary_of_blkKeyNoted (f : Block → Block) :
    keyUnary f s = .next (s.storeAt 0x0020 (f s.key).toList) := by
  rw [keyUnary, noteReads_of_blkKeyNoted h (by simp)]
  rfl

theorem exec_ark_key_of_blkKeyNoted :
    exec (.ark 15#4) s = .next (s.storeAt 0x0010 (xorRoundKey s.blk s.key).toList) := by
  have hreads : s.noteReads [regionSpan .blk, srcSpan 15#4] = s := noteReads_of_blkKeyNoted h (List.Subset.refl _)
  rw [exec_ark rfl, hreads]
  rfl

end

/-! ### BLK and KEY stored -/

/-- BLK and KEY stored. -/
def storeBlkKey (s : State) (b k : Block) : State := (s.setBlk b).setKey k

section
variable (s : State) (b k : Block)

@[simp] theorem storeBlkKey_blk : (storeBlkKey s b k).blk = b := by simp [storeBlkKey]
@[simp] theorem storeBlkKey_key : (storeBlkKey s b k).key = k := by simp [storeBlkKey]

/-- Stores of BLK over each other leave the last one. -/
theorem storeAt_blk_storeAt_blk (b' : Block) :
    (s.storeAt 0x0010 b.toList).storeAt 0x0010 b'.toList = s.storeAt 0x0010 b'.toList :=
  storeAt_storeAt_same _ _ _ _ (by simp)

/-- A store of BLK after one of KEY is a store of both. -/
theorem storeAt_key_storeAt_blk : (s.storeAt 0x0020 k.toList).storeAt 0x0010 b.toList = storeBlkKey s b k :=
  (storeAt_comm _ _ _ _ _ (by simp)).symm

theorem storeBlkKey_storeAt_blk (b' : Block) :
    (storeBlkKey s b k).storeAt 0x0010 b'.toList = storeBlkKey s b' k := by
  rw [← storeAt_key_storeAt_blk, storeAt_blk_storeAt_blk, storeAt_key_storeAt_blk]

/-- A store of both covers an earlier store of BLK. -/
theorem storeBlkKey_of_storeAt_blk (b' : Block) :
    storeBlkKey (s.storeAt 0x0010 b.toList) b' k = storeBlkKey s b' k := by
  rw [storeBlkKey, setBlk_eq, storeAt_blk_storeAt_blk]
  rfl

theorem storeBlkKey_storeBlkKey (b' k' : Block) : storeBlkKey (storeBlkKey s b k) b' k' = storeBlkKey s b' k' := by
  rw [storeBlkKey, setBlk_eq, setKey_eq, storeBlkKey_storeAt_blk]
  exact storeAt_storeAt_same _ 0x0020 _ _ (by simp)

end

section
variable {s : State} (h : BlkKeyNoted s) (b k : Block)
include h

theorem blkKeyNoted_storeBlkKey : BlkKeyNoted (storeBlkKey s b k) :=
  blkKeyNoted_storeAt (blkKeyNoted_storeAt h _ _) _ _

theorem blockUnary_storeBlkKey (f : Block → Block) :
    blockUnary f (storeBlkKey s b k) = .next (storeBlkKey s (f b) k) := by
  rw [blockUnary_of_blkKeyNoted (blkKeyNoted_storeBlkKey h b k), storeBlkKey_blk, storeBlkKey_storeAt_blk]

theorem exec_ark_key_storeBlkKey :
    exec (.ark 15#4) (storeBlkKey s b k) = .next (storeBlkKey s (xorRoundKey b k) k) := by
  rw [exec_ark_key_of_blkKeyNoted (blkKeyNoted_storeBlkKey h b k), storeBlkKey_blk, storeBlkKey_key,
    storeBlkKey_storeAt_blk]

/-- The commands that begin a round of R182. -/
theorem runCommands_kadv_subb (rc : Byte) (is : List Instr) : runCommands (.kadv rc :: .subb :: is) s
    = runCommands is (storeBlkKey s (subBytes s.blk) (advanceRound s.key rc)) := by
  rw [runCommands_cons (i := .kadv rc) (keyUnary_of_blkKeyNoted h (advanceRound · rc)),
    runCommands_cons (i := .subb) (blockUnary_of_blkKeyNoted (blkKeyNoted_storeAt h _ _) subBytes), storeAt_key_blk,
    storeAt_key_storeAt_blk]

/-- The commands that begin a round of R183. -/
theorem runCommands_ishr_isubb_kreg (rc : Byte) (is : List Instr) :
    runCommands (.ishr :: .isubb :: .kreg rc :: is) s
      = runCommands is (storeBlkKey s (subBytesInverse (shiftRowsInverse s.blk)) (regressRound s.key rc)) := by
  have hs := blkKeyNoted_storeAt h 0x0010
  rw [runCommands_cons (i := .ishr) (blockUnary_of_blkKeyNoted h shiftRowsInverse),
    runCommands_cons (i := .isubb) (blockUnary_of_blkKeyNoted (hs _) subBytesInverse), storeAt_blk_blk,
    storeAt_blk_storeAt_blk, runCommands_cons (i := .kreg rc) (keyUnary_of_blkKeyNoted (hs _) (regressRound · rc)),
    storeAt_blk_key]
  rfl

end

/-! ### Rounds one after the other -/

/-- Commands that, where BLK and KEY are noted and KEY holds `k`, store `f` of BLK in BLK and `k'` in KEY. -/
def Transforms (is : List Instr) (k : Block) (f : Block → Block) (k' : Block) : Prop :=
  ∀ s : State, BlkKeyNoted s → s.key = k → runCommands is s = .next (storeBlkKey s (f s.blk) k')

theorem transforms_append {is js : List Instr} {k k' k'' : Block} {f g : Block → Block} (hi : Transforms is k f k')
    (hj : Transforms js k' g k'') : Transforms (is ++ js) k (g ∘ f) k'' := by
  intro s h hk
  rw [runCommands_append _ (hi s h hk), hj _ (blkKeyNoted_storeBlkKey h _ _) (storeBlkKey_key s _ _), storeBlkKey_blk,
    storeBlkKey_storeBlkKey]
  rfl

/-- Rounds that walk KEY from `key 0` to `key n`, before a last round. -/
theorem transforms_rounds {round : Nat → List Instr} {f : Nat → Block → Block} {key : Nat → Block} {n : Nat}
    (hround : ∀ k, k < n → Transforms (round k) (key k) (f k) (key (k + 1)))
    {last : List Instr} {g : Block → Block} {k' : Block} (hlast : Transforms last (key n) g k') :
    Transforms ((List.range n).flatMap round ++ last) (key 0) (g ∘ forUp 0 n f) k' := by
  induction n generalizing last g with
  | zero => exact hlast
  | succ n ih =>
    have hfun : g ∘ forUp 0 (n + 1) f = (g ∘ f n) ∘ forUp 0 n f := funext fun b => by
      rw [Function.comp_apply, forUp_succ, Nat.zero_add]
      rfl
    rw [hfun, List.range_succ, List.flatMap_append, List.flatMap_singleton, List.append_assoc]
    exact ih (fun k hk => hround k (by omega)) (transforms_append (hround n (by omega)) hlast)

/-- ARK KEY notes the reads of BLK and KEY, so commands after it transform what it leaves. -/
theorem runCommands_ark_key_cons {is : List Instr} {s : State} {f : Block → Block} {k' : Block}
    (h : Transforms is s.key f k') : runCommands (.ark 15#4 :: is) s = .next
      (storeBlkKey (s.noteReads [regionSpan .blk, regionSpan .key]) (f (xorRoundKey s.blk s.key)) k') := by
  rw [runCommands_cons (exec_ark rfl s)]
  refine (h _ (blkKeyNoted_storeAt (blkKeyNoted_noteReads s) _ _) (by simp)).trans ?_
  rw [storeAt_blk_blk, storeBlkKey_of_storeAt_blk]
  rfl

/-! ### The rounds on the fly -/

section
variable (k : Block)

theorem transforms_encfRound {r : Nat} (h : r < 9) : Transforms (encfRound r) (roundKeyOf (expand k) r)
    (encryptRound (expand k) (r + 1)) (roundKeyOf (expand k) (r + 1)) := by
  intro s hs hk
  rw [encfRound, runCommands_kadv_subb hs, hk, ← roundKeyOf_expand_succ k (by omega)]
  simp only [runCommands, exec_shr, exec_mixc, blockUnary_storeBlkKey hs, exec_ark_key_storeBlkKey hs]
  rfl

theorem transforms_encfLast : Transforms [.kadv 0x36#8, .subb, .shr, .ark 15#4] (roundKeyOf (expand k) 9)
    (fun b => xorRoundKey (shiftRows (subBytes b)) (roundKeyOf (expand k) 10)) (roundKeyOf (expand k) 10) := by
  intro s hs hk
  have hnext : advanceRound (roundKeyOf (expand k) 9) 0x36#8 = roundKeyOf (expand k) 10 :=
    (roundKeyOf_expand_succ k (by omega)).symm
  rw [runCommands_kadv_subb hs, hk, hnext]
  simp only [runCommands, exec_shr, blockUnary_storeBlkKey hs, exec_ark_key_storeBlkKey hs]

theorem transforms_decfRound {r : Nat} (h : r < 9) : Transforms (decfRound r) (roundKeyOf (expand k) (10 - r))
    (decryptRound (expand k) (9 - r)) (roundKeyOf (expand k) (10 - (r + 1))) := by
  intro s hs hk
  rw [decfRound, runCommands_ishr_isubb_kreg hs, hk, (by omega : 10 - r = 9 - r + 1),
    regressRound_roundKeyOf k (by omega), (by omega : 10 - (r + 1) = 9 - r)]
  simp only [runCommands, exec_imixc, blockUnary_storeBlkKey hs, exec_ark_key_storeBlkKey hs]
  rfl

theorem transforms_decfLast : Transforms [.ishr, .isubb, .kreg 0x01#8, .ark 15#4] (roundKeyOf (expand k) 1)
    (fun b => xorRoundKey (subBytesInverse (shiftRowsInverse b)) (roundKeyOf (expand k) 0)) k := by
  intro s hs hk
  have hnext : regressRound (roundKeyOf (expand k) 1) 0x01#8 = k :=
    (regressRound_roundKeyOf k (by omega)).trans (roundKeyOf_expand_zero k)
  rw [runCommands_ishr_isubb_kreg hs, hk, hnext, roundKeyOf_expand_zero]
  simp only [runCommands, exec_ark_key_storeBlkKey hs]

end

/-! ### The whole sequences on the fly -/

theorem exec_encf (s : State) : exec .encf s = .next (storeBlkKey (s.noteReads [regionSpan .blk, regionSpan .key])
    (encryptOnTheFly s.blk s.key).blk (encryptOnTheFly s.blk s.key).walk.key) := rfl

theorem exec_decf (s : State) : exec .decf s = .next (storeBlkKey (s.noteReads [regionSpan .blk, regionSpan .key])
    (decryptOnTheFly s.blk s.key).blk (decryptOnTheFly s.blk s.key).walk.key) := rfl

/-- The round commands of R182 do what ENCF does: KEY walks the round keys of its schedule upwards. -/
theorem exec_encf_eq_runCommands (s : State) : exec .encf s = runCommands encfSequence s := by
  have hrounds := transforms_rounds (key := roundKeyOf (expand s.key))
    (fun _ hk => transforms_encfRound s.key hk) (transforms_encfLast s.key)
  rw [roundKeyOf_expand_zero] at hrounds
  rw [encfSequence, List.append_eq, runCommands_ark_key_cons hrounds, exec_encf, encryptOnTheFly_eq, encrypt_eq,
    roundKeyOf_expand_zero, forUp_start_succ 0 9]
  rfl

/-- The round commands of R183 do what DECF does: KEY is round key 10 of some key, and walks its schedule downwards. -/
theorem exec_decf_eq_runCommands (s : State) : exec .decf s = runCommands decfSequence s := by
  obtain ⟨k, hk⟩ := exists_roundKeyOf_expand_last s.key
  have hrounds := transforms_rounds (key := fun r => roundKeyOf (expand k) (10 - r))
    (fun _ hr => transforms_decfRound k hr) (transforms_decfLast k)
  rw [Nat.sub_zero, hk] at hrounds
  rw [decfSequence, List.append_eq, runCommands_ark_key_cons hrounds, exec_decf, ← hk, decryptOnTheFly_eq, decrypt_eq]
  rfl

/-- Settles O53: on the fly, each round leaves the round key of the schedule that the whole command reaches. -/
theorem onTheFlyCommandsAreTheRoundCommandSequences : Obligations.OnTheFlyCommandsAreTheRoundCommandSequences :=
  fun s => ⟨exec_encf_eq_runCommands s, exec_decf_eq_runCommands s⟩

end Sys2Proof.Proofs
end

section
/-! HDBL (R209), and the laws of the three multiplies and of the doubling (R200, R201, R208). -/

namespace Sys2Proof.Proofs

open Sys2Proof Sys2Proof.Machine Sys2Proof.Claims

/-! ### HDBL -/

theorem runs_hdbl (s : State) : ∃ t, Runs .hdbl s t ∧ t.gx = gf128Double s.gx :=
  ⟨_, runs_plan (i := .hdbl) ⟨rfl, rfl⟩, storeAt_bytesAt_same _ 0x0030 _⟩

/-- x^127 falls out and comes back as x^7 + x^2 + x + 1. -/
theorem gf128Double_last :
    gf128Double (block [0, 0, 0, 0, 0, 0, 0, 0, 0, 0, 0, 0, 0, 0, 0, 1]) = elem 0xE1 := by decide

theorem gf128Double_zeroBlock : gf128Double zeroBlock = zeroBlock :=
  residue128_injective (by rw [residue128_gf128Double, residue128_zeroBlock, mul_zero])

theorem gf128Double_all_ones :
    gf128Double (block [255, 255, 255, 255, 255, 255, 255, 255, 255, 255, 255, 255, 255, 255, 255, 255])
      = block [0x9E, 255, 255, 255, 255, 255, 255, 255, 255, 255, 255, 255, 255, 255, 255, 255] := by decide

/-- The lowest bit of a byte moves into the highest of the next. -/
theorem gf128Double_carry : gf128Double (elem 0x01) = block [0x00, 0x80] := by decide

theorem gf128Double_elem_one : gf128Double (elem 0x80) = elem 0x40 := by decide

/-- Settles O40: HDBL performs its plan, and the corner cases are single values of `gf128_double`. -/
theorem hdblMultipliesGxByX : Obligations.HdblMultipliesGxByX :=
  ⟨wordOf_of_encode rfl rfl, runs_hdbl, gf128Double_last, gf128Double_zeroBlock, gf128Double_all_ones,
    gf128Double_carry, gf128Double_elem_one⟩

/-! ### The product by x and its inverse -/

theorem multiplyBitByBit_comm (a b : Block) : multiplyBitByBit a b = multiplyBitByBit b a :=
  residue128_injective (by rw [residue128_multiplyBitByBit, residue128_multiplyBitByBit, mul_comm])

/-- `elem(0x40)` is the polynomial x, being the double of 1. -/
theorem residue128_elem_x : residue128 (elem 0x40) = AdjoinRoot.root modulus128 := by
  rw [← gf128Double_elem_one, residue128_gf128Double, residue128_elem_one, mul_one]

theorem multiplyBitByBit_elem_x (a : Block) : multiplyBitByBit a (elem 0x40) = gf128Double a :=
  residue128_injective (by rw [residue128_multiplyBitByBit, residue128_elem_x, residue128_gf128Double, mul_comm])

/-- x^127 + x^6 + x + 1, the inverse of x modulo R12's polynomial. -/
def xInverse : Block := block [0xC2, 0, 0, 0, 0, 0, 0, 0, 0, 0, 0, 0, 0, 0, 0, 1]

theorem gf128Double_xInverse : gf128Double xInverse = elem 0x80 := by decide

theorem root_mul_residue128_xInverse : AdjoinRoot.root modulus128 * residue128 xInverse = 1 := by
  rw [← residue128_gf128Double, gf128Double_xInverse, residue128_elem_one]

theorem multiplyBitByBit_gf128Double_xInverse (a : Block) : multiplyBitByBit (gf128Double a) xInverse = a :=
  residue128_injective (by
    rw [residue128_multiplyBitByBit, residue128_gf128Double, mul_right_comm, root_mul_residue128_xInverse, one_mul])

theorem gf128Double_multiplyBitByBit_xInverse (a : Block) : gf128Double (multiplyBitByBit a xInverse) = a :=
  residue128_injective (by
    rw [residue128_gf128Double, residue128_multiplyBitByBit, mul_left_comm, root_mul_residue128_xInverse, mul_one])

/-- The product by the inverse of x undoes the doubling from both sides. -/
theorem gf128Double_bijective : Function.Bijective gf128Double :=
  Function.bijective_iff_has_inverse.2
    ⟨fun a => multiplyBitByBit a xInverse, multiplyBitByBit_gf128Double_xInverse,
      gf128Double_multiplyBitByBit_xInverse⟩

/-- Settles O57: all three multiplies are the product of the field, in which x has an inverse. -/
theorem multiplierLaws : Obligations.MultiplierLaws :=
  ⟨fun a b => ⟨multiplyTable8_buildTable8 a b, multiplyTable4_buildTable4 a b, multiplyBitByBit_comm a b⟩,
    fun a => ⟨multiplyBitByBit_elem_one a, zeroBlock_multiplyBitByBit a, multiplyBitByBit_elem_x a⟩,
    gf128Double_bijective⟩

end Sys2Proof.Proofs
end

section
/-! NOP, and the reserved words of its OP (R230). -/

namespace Sys2Proof.Proofs

open Sys2Proof Sys2Proof.Machine Sys2Proof.Claims

theorem wordOf_nop : WordOf 0x00000000 .nop := wordOf_of_encode rfl rfl

/-- OP 0x00 is format N and needs no option, so any bit above OP makes the word reserved. -/
theorem decode_nop_reserved (b : Build) {w : Word} (hop : w.toNat % 256 = 0) (hw : w ≠ 0x00000000#32) :
    decode b w = .error .reservedField := by
  have hop' : opField w = 0x00#8 := BitVec.eq_of_toNat_eq ((opField_toNat w).trans hop)
  have hw0 : w.toNat ≠ 0 := fun h => hw (BitVec.eq_of_toNat_eq h)
  have hrow : opMap.find? (fun r => r.op == opField w) = some ⟨0x00#8, .n, none, fun _ => .nop⟩ := by
    rw [hop']
    rfl
  have hbits : 2 ^ usedBits .n ≤ w.toNat := by
    simp only [usedBits]
    omega
  exact (decode_reservedField_iff hrow).2 ⟨rfl, .inl hbits⟩

theorem exec_nop (s : State) : exec .nop s = .next s := rfl

/-- The write of NOP's word puts it in CMD and answers; its command then changes nothing (R31, R230). -/
theorem step_nop {s : State} {rest : List HostEvent} (h : s.pending = .write 0x0000#13 4 0x00000000#32 :: rest) :
    step s = .next { s with pending := rest, cmd := 0x00000000#32, response := .done } := by
  have hdec : decode s.cfg 0x00000000#32 = .ok .nop := wordOf_nop.2 s.cfg rfl
  rw [step_cmdWrite h, onCmdWrite_ok (s := { s with pending := rest }) hdec, exec_nop]

/-- Settles O26: the zero word decodes to NOP, whose command is the identity; a word of its OP with another bit set
has a reserved bit. -/
theorem nopChangesNothing : Obligations.NopChangesNothing :=
  ⟨wordOf_nop, exec_nop, fun _ _ => step_nop, fun b _ => decode_nop_reserved b⟩

end Sys2Proof.Proofs
end

section
/-! Reset and the reset input, the idle step, and the command error: what each leaves behind, and that no step stops
(R244, R247, R257, R270 to R272). -/

namespace Sys2Proof.Proofs

open Sys2Proof Sys2Proof.Machine Sys2Proof.Claims

/-! ### The command error (R244) -/

section
variable (code op : Byte)

theorem captureError_of_err {st : Status} (h : st.err = true) : captureError code op st = st := if_pos h

theorem captureError_of_no_err {st : Status} (h : st.err = false) :
    captureError code op st = { err := true, cause := code, eop := op } := if_neg (by simp [h])

theorem captureError_err (st : Status) : (captureError code op st).err = true := by
  cases h : st.err with
  | false => rw [captureError_of_no_err code op h]
  | true => rw [captureError_of_err code op h, h]

end

/-- The write of a word that fails to decode puts it in CMD, and STATUS takes the error (R31, R243). -/
theorem step_commandError {s : State} {rest : List HostEvent} {w : Word} {e : CommandError}
    (h : s.pending = .write 0x0000#13 4 w :: rest) (hd : decode s.cfg w = .error e) :
    step s = .next (takeCommandError e (opField w) { s with pending := rest, cmd := w, response := .done }) :=
  (step_cmdWrite h).trans (onCmdWrite_error (s := { s with pending := rest }) hd)

/-- Settles O5: the step takes the error, which only STATUS records; the build is as before, so the next command's
word decodes as it would have. -/
theorem commandErrorCapturesTheFirstErrorOnly : Obligations.CommandErrorCapturesTheFirstErrorOnly := by
  intro s rest w e h hd
  refine ⟨_, step_commandError h hd, rfl, captureError_err e.code (opField w) s.status, fun herr => ?_,
    fun herr => ?_, rfl, rfl, rfl, rfl, rfl, fun v i rest' hrest hv => ?_⟩
  · rw [takeCommandError_status, captureError_of_no_err _ _ herr]
    exact ⟨rfl, rfl⟩
  · rw [takeCommandError_status, captureError_of_err _ _ herr]
    exact ⟨rfl, rfl⟩
  · exact stepRunsTheDecodedCommand _ rest' v i hrest hv

/-! ### Every step -/

/-- Settles O15: the step of every event, and of none, has one of the listed effects. -/
theorem everyStepAnswersANextState : Obligations.EveryStepAnswersANextState := fun s =>
  have ⟨t, hstep, _⟩ := step_effect s
  ⟨t, hstep⟩

/-- Settles O16: no effect of a step clears the mark. -/
theorem uninitReadMarkIsSticky : Obligations.UninitReadMarkIsSticky :=
  fun _ _ _ hf hstep => stepEffect_sticky (step_cases hstep) hf

/-! ### Reset -/

theorem written_resetOf (b : Build) (a : Nat) : (State.resetOf b).written a = false := rfl

theorem step_reset {s : State} {rest : List HostEvent} (h : s.pending = .reset :: rest) :
    step s = .next (resetInput { s with pending := rest }) := step_event h

/-- Settles O13: the reset input's storage and registers are those of the state after reset. -/
theorem resetInputAndIdleStep : Obligations.ResetInputAndIdleStep :=
  fun s _ => ⟨fun h => ⟨_, step_reset h, rfl, rfl, rfl, written_resetOf s.cfg, rfl, rfl⟩, step_idle⟩

theorem cfgWord_toNat (b : Build) : (cfgWord b).toNat = b.mulb.toNat + 2 * b.t4.toNat + 4 * b.t8.toNat := by
  have hmulb := b.mulb.toNat_le
  have ht4 := b.t4.toNat_le
  have ht8 := b.t8.toNat_le
  rw [cfgWord_eq_ofNat, BitVec.toNat_ofNat, Nat.mod_eq_of_lt (by omega)]

theorem statusWord_reset : statusWord Status.reset = 0x00000000#32 := by decide

/-- Settles O1: nothing is stored yet, STATUS is 0, and CFG's word is the number of the build's three bits. -/
theorem resetLeavesRegistersAndUndefinedBytes : Obligations.ResetLeavesRegistersAndUndefinedBytes :=
  fun b => ⟨rfl, rfl, rfl, rfl, statusWord_reset, cfgWord_toNat b, written_resetOf b⟩

end Sys2Proof.Proofs
end
